-- ==== Sys2Proof/Word.lean ====
section
/-! DEFINITION. The command word: the unit of the command stream. -/

namespace Sys2Proof

/-- A command word of the stream `PROG`: 16 bits, whatever `W_WORD` is (R80). -/
abbrev Word := BitVec 16

end Sys2Proof
end

