-- ==== Sys2Proof/Config.lean ====
section
/-! DEFINITION. The implementation parameters of R7, the test configuration TC16, and the free values of the model. -/

namespace Sys2Proof

/-- `WORD_ORDER` (R7, R11): the order in which the words of a multi-word register are read or written. -/
inductive WordOrder where
  | lowFirst
  | highFirst
deriving DecidableEq, Repr

/-- The parameters of R7. The spec fixes none of them; a state carries its configuration and no step writes it
(R35; log entry 1). -/
structure Config where
  /-- `W_WORD`: bits of one atomically readable word. -/
  wWord : Nat
  /-- `W_HW`: width of `HWCNT`, `CCR` and `LAST`. -/
  wHw : Nat
  /-- `W_TICK`: width of `TICKS`. -/
  wTick : Nat
  /-- `W_SEC`: width of `SECONDS`. -/
  wSec : Nat
  /-- `TPS`: ticks per second. -/
  tps : Nat
  /-- `HW_RATE`: hardware counter increments per second. -/
  hwRate : Nat
  /-- `INTERVAL`: hardware-counter units between deadlines. -/
  interval : Nat
  /-- `WORD_ORDER`. -/
  wordOrder : WordOrder
deriving DecidableEq, Repr

/-- TC16, the spec's test configuration (R7, last column). It is not a property of the hardware (R5, N3). -/
def tc16 : Config where
  wWord := 16
  wHw := 16
  wTick := 32
  wSec := 32
  tps := 128
  hwRate := 32768
  interval := 256
  wordOrder := .lowFirst

/-- Free value (R204, I5; log entry 7): which of the enabled agents steps next, once the supplied schedule has ended.
The argument numbers the choices; nothing constrains the answer. -/
opaque Config.freeChoice : Nat → Nat

/-- Free value (R131, I2; log entry 8): the scheduler's answer once the supplied answers have ended: `none` when no
timed event is pending, `some t` when one is and its expiration tick is `t`. The argument numbers the draws. -/
opaque Config.freeAnswer : Nat → Option Nat

end Sys2Proof
end

