-- ==== Sys2Proof/Machine/Arith.lean ====
section
/-! DEFINITION. The spec's arithmetic on unsigned values of a stated width (R10) and the words of a multi-word
register (R11). Widths are parameters, so a value is a natural number and every result is narrowed here. -/

namespace Sys2Proof

/-- `u_N(x) = x mod 2^N` (R10), for a natural number `x`. -/
def narrow (n x : Nat) : Nat := x % 2 ^ n

/-- `a +_N b = u_N(a + b)` (R10). -/
def addW (n a b : Nat) : Nat := narrow n (a + b)

/-- `a -_N b = u_N(a - b)` (R10), without leaving the natural numbers; Laws/Arith.lean shows it is the difference
of integers modulo `2^N`. -/
def subW (n a b : Nat) : Nat := narrow n (a + (2 ^ n - narrow n b))

/-- `ceil(a / b)`. -/
def ceilDiv (a b : Nat) : Nat := (a + b - 1) / b

/-- `word_j(R)` of a value `v` for words of `w` bits (R11). -/
def wordAt (w v j : Nat) : Nat := narrow w (v / 2 ^ (j * w))

/-- Writing word `j` of a `width`-bit register that holds `v` with value `x`: only the bits below `width` are kept,
and the other words stay (R11). -/
def setWordAt (w width v j x : Nat) : Nat :=
  narrow width (narrow (j * w) v + narrow w x * 2 ^ (j * w) + v / 2 ^ ((j + 1) * w) * 2 ^ ((j + 1) * w))

end Sys2Proof
end

