-- ==== Sys2Proof/Machine/Params.lean ====
section
/-! DEFINITION. Which configurations are legal (R7, R9) and the constants derived from one (R8, R11, R40). -/

namespace Sys2Proof

/-- `TPS` is a power of two (R7). -/
def isPowerOfTwo (n : Nat) : Bool := 2 ^ Nat.log2 n == n

/-- Every constraint of R7. A configuration that breaks one is refused, and no run starts from it (R9). -/
def Config.valid (c : Config) : Bool :=
  decide (8 ≤ c.wWord)
  && decide (1 ≤ c.wHw) && decide (c.wHw ≤ c.wWord)
  && decide (1 ≤ c.wTick) && decide (c.wTick ≤ 8 * c.wWord)
  && decide (1 ≤ c.wSec) && decide (c.wSec ≤ 8 * c.wWord)
  && isPowerOfTwo c.tps && decide (c.tps ≤ 2 ^ c.wTick)
  && decide (1 ≤ c.hwRate)
  && decide (c.interval = c.hwRate / c.tps)
  && decide (1 ≤ c.interval) && decide (c.interval ≤ 2 ^ c.wHw - 1)

/-- `K_T`: words in `TICKS` (R8). -/
def Config.kT (c : Config) : Nat := ceilDiv c.wTick c.wWord

/-- `K_S`: words in `SECONDS` (R8). -/
def Config.kS (c : Config) : Nat := ceilDiv c.wSec c.wWord

/-- `SEC_MASK = TPS - 1` (R8). -/
def Config.secMask (c : Config) : Nat := c.tps - 1

/-- `HALF_T = 2^(W_TICK - 1)` (R8). -/
def Config.halfT (c : Config) : Nat := 2 ^ (c.wTick - 1)

/-- `log2(TPS)`, the constant of word `TPS_LOG2` (R40). -/
def Config.tpsLog2 (c : Config) : Nat := Nat.log2 c.tps

/-- `order(K)`: the word indices in the order they are read or written (R11). -/
def Config.order (c : Config) (k : Nat) : List Nat :=
  match c.wordOrder with
  | .lowFirst => List.range k
  | .highFirst => (List.range k).reverse

end Sys2Proof
end

