-- ==== Sys2Proof/Syntax.lean ====
section
/-! DEFINITION. The operations and step labels of the block: one constructor of Instr per row of
spec/opcode_table.json (R2, R85, R86). -/

namespace Sys2Proof

/-- The ten foreground operations (class 0, R85) and the nine step labels (class 8, R86). An operand is a natural
number; its width depends on the configuration (R83) and WellFormed.lean checks it. -/
inductive Instr where
  /-- `ENTER_CRITICAL` (R100). -/
  | enterCritical
  /-- `EXIT_CRITICAL m` (R101): `m` is the mask word. -/
  | exitCritical (m : Nat)
  /-- `CLOCK_INIT` (R110). -/
  | clockInit
  /-- `CURRENT_TICKS` (R162). -/
  | currentTicks
  /-- `CURRENT_SECONDS` (R163). -/
  | currentSeconds
  /-- `FINE_TICKS` (R166). -/
  | fineTicks
  /-- `FINE_MAX` (R168). -/
  | fineMax
  /-- `WAIT n` (R169): `n` is the tick count. -/
  | wait (n : Nat)
  /-- `REBASE t, h` (R190): the new tick value and the new hardware counter value. -/
  | rebase (t h : Nat)
  /-- `SET_SECONDS s` (R192): `s` is ignored. -/
  | setSeconds (s : Nat)
  /-- `TMR_COUNT` (R121). -/
  | tmrCount
  /-- `HOST_STOP` (R123). -/
  | hostStop
  /-- `HOST_START` (R123). -/
  | hostStart
  /-- `ISR_ENTRY` (R124). -/
  | isrEntry
  /-- `ISR_REARM` (R126). -/
  | isrRearm
  /-- `ISR_TEST` (R128). -/
  | isrTest
  /-- `ISR_SNAPSHOT` (R129). -/
  | isrSnapshot
  /-- `ISR_EVENTCHECK` (R131). -/
  | isrEventcheck
  /-- `ISR_EXIT` (R132). -/
  | isrExit
deriving DecidableEq, Repr

/-- The mnemonics of the foreground operations: what a `RET` event names (R34) and what the opcode lookup of the
decoder answers (R87). -/
inductive OpName where
  | enterCritical
  | exitCritical
  | clockInit
  | currentTicks
  | currentSeconds
  | fineTicks
  | fineMax
  | wait
  | rebase
  | setSeconds
deriving DecidableEq, Repr

/-- The mnemonic of a foreground operation; none for a step label, which the foreground cannot issue (R86). -/
def Instr.opName : Instr → Option OpName
  | .enterCritical => some .enterCritical
  | .exitCritical _ => some .exitCritical
  | .clockInit => some .clockInit
  | .currentTicks => some .currentTicks
  | .currentSeconds => some .currentSeconds
  | .fineTicks => some .fineTicks
  | .fineMax => some .fineMax
  | .wait _ => some .wait
  | .rebase _ _ => some .rebase
  | .setSeconds _ => some .setSeconds
  | .tmrCount => none
  | .hostStop => none
  | .hostStart => none
  | .isrEntry => none
  | .isrRearm => none
  | .isrTest => none
  | .isrSnapshot => none
  | .isrEventcheck => none
  | .isrExit => none

/-- The instruction is a foreground operation, one a command stream may hold (R85, R94). -/
def Instr.issuable (i : Instr) : Bool := i.opName.isSome

end Sys2Proof
end

