-- ==== Sys2Proof/Machine/Operands.lean ====
section
/-! DEFINITION. The operand forms of the command stream: operand widths, operand words, assembly (R83) and the length
of each operation (R84). -/

namespace Sys2Proof

/-- `N(X) = ceil(width(X) / 16)`: operand words of a `w`-bit operand (R81). -/
def operandWords (w : Nat) : Nat := ceilDiv w 16

/-- The widths of an operation's operands, in stream order (R83). -/
def OpName.operandWidths (c : Config) : OpName → List Nat
  | .enterCritical => []
  | .exitCritical => [c.wWord]
  | .clockInit => []
  | .currentTicks => []
  | .currentSeconds => []
  | .fineTicks => []
  | .fineMax => []
  | .wait => [c.wTick]
  | .rebase => [c.wTick, c.wHw]
  | .setSeconds => [c.wSec]

/-- The operation with its operand values, where there are as many as it takes. -/
def OpName.withOperands : OpName → List Nat → Option Instr
  | .enterCritical, [] => some .enterCritical
  | .exitCritical, [m] => some (.exitCritical m)
  | .clockInit, [] => some .clockInit
  | .currentTicks, [] => some .currentTicks
  | .currentSeconds, [] => some .currentSeconds
  | .fineTicks, [] => some .fineTicks
  | .fineMax, [] => some .fineMax
  | .wait, [n] => some (.wait n)
  | .rebase, [t, h] => some (.rebase t h)
  | .setSeconds, [s] => some (.setSeconds s)
  | _, _ => none

/-- The operand values of an instruction, in stream order (R83). -/
def Instr.operands : Instr → List Nat
  | .exitCritical m => [m]
  | .wait n => [n]
  | .rebase t h => [t, h]
  | .setSeconds s => [s]
  | _ => []

/-- Words of operands with the given widths. -/
def operandsLength (widths : List Nat) : Nat := (widths.map operandWords).sum

/-- The length of an operation in words (R84), a function of the operation and the configuration alone (R90). -/
def OpName.length (c : Config) (op : OpName) : Nat := 1 + operandsLength (op.operandWidths c)

/-- The value of operand words, least significant first: the sum of `o_k * 2^(16*k)` (R83). -/
def assembleOperand : List Word → Nat
  | [] => 0
  | o :: os => o.toNat + 2 ^ 16 * assembleOperand os

/-- A value in `n` operand words, least significant first: what an assembler emits (R83, R91). -/
def splitOperand : Nat → Nat → List Word
  | 0, _ => []
  | n + 1, v => BitVec.ofNat 16 v :: splitOperand n (v / 2 ^ 16)

end Sys2Proof
end

