-- ==== Sys2Proof/WellFormed.lean ====
section
/-! DEFINITION. Which instructions a configuration can encode: every operand is below two to the power of its width
(R83). -/

namespace Sys2Proof

/-- Every operand fits its width (R83): `m` in `W_WORD`, `n` and `t` in `W_TICK`, `h` in `W_HW`, `s` in `W_SEC`. -/
def Instr.wf (c : Config) : Instr → Bool
  | .enterCritical => true
  | .exitCritical m => decide (m < 2 ^ c.wWord)
  | .clockInit => true
  | .currentTicks => true
  | .currentSeconds => true
  | .fineTicks => true
  | .fineMax => true
  | .wait n => decide (n < 2 ^ c.wTick)
  | .rebase t h => decide (t < 2 ^ c.wTick) && decide (h < 2 ^ c.wHw)
  | .setSeconds s => decide (s < 2 ^ c.wSec)
  | .tmrCount => true
  | .hostStop => true
  | .hostStart => true
  | .isrEntry => true
  | .isrRearm => true
  | .isrTest => true
  | .isrSnapshot => true
  | .isrEventcheck => true
  | .isrExit => true

end Sys2Proof
end

