-- ==== Sys2Proof/Decode.lean ====
section
/-! DEFINITION. The decoder of the command stream (R87), the reader of step-label words (R86, R94), and the encoder
(R83, R85, R86, R91). -/

namespace Sys2Proof

/-- Why the decoder refuses: the decoder's reasons of R201. Each is safe: the model admits no run where the real block
might do something. -/
inductive DecodeRefusal where
  /-- Op word bits 11:8 are not zero. -/
  | reservedBits
  /-- A class 8 step label stands in the command stream. -/
  | notIssuable
  /-- The class is neither 0 nor 8. -/
  | reservedClass
  /-- No row of R85 has this `OP`. -/
  | unassignedOp
  /-- The stream ends inside the operation. -/
  | truncated
  /-- An assembled operand is at least two to the power of its width. -/
  | operandRange
deriving DecidableEq, Repr

/-- What decoding at `cpc` gives (R87): the foreground is done, the stream is refused there, or an operation. -/
inductive Decoded where
  | done
  | refused (reason : DecodeRefusal)
  | op (i : Instr)
deriving DecidableEq, Repr

/-- `CLASS`, bits 15:12 (R81). -/
def classOf (w : Word) : BitVec 4 := w.extractLsb' 12 4

/-- `RSV`, bits 11:8 (R81). -/
def reservedOf (w : Word) : BitVec 4 := w.extractLsb' 8 4

/-- `OP`, bits 7:0 (R81). -/
def codeOf (w : Word) : BitVec 8 := w.extractLsb' 0 8

/-- The opcode map of class 0 (R85). -/
def lookupOp (code : BitVec 8) : Option OpName :=
  if code = 0x01 then some .enterCritical
  else if code = 0x02 then some .exitCritical
  else if code = 0x10 then some .clockInit
  else if code = 0x20 then some .currentTicks
  else if code = 0x21 then some .currentSeconds
  else if code = 0x22 then some .fineTicks
  else if code = 0x23 then some .fineMax
  else if code = 0x24 then some .wait
  else if code = 0x30 then some .rebase
  else if code = 0x31 then some .setSeconds
  else none

/-- The map of class 8 (R86). -/
def lookupLabel (code : BitVec 8) : Option Instr :=
  if code = 0x01 then some .tmrCount
  else if code = 0x02 then some .hostStop
  else if code = 0x03 then some .hostStart
  else if code = 0x10 then some .isrEntry
  else if code = 0x11 then some .isrRearm
  else if code = 0x12 then some .isrTest
  else if code = 0x13 then some .isrSnapshot
  else if code = 0x14 then some .isrEventcheck
  else if code = 0x15 then some .isrExit
  else none

/-- Operand assembly in the order of R83: each operand takes its words, and the first one out of range refuses. -/
def takeOperands : List Nat → List Word → Except DecodeRefusal (List Nat)
  | [], _ => .ok []
  | w :: ws, stream =>
    let x := assembleOperand (stream.take (operandWords w))
    if 2 ^ w ≤ x then .error .operandRange
    else
      match takeOperands ws (stream.drop (operandWords w)) with
      | .ok xs => .ok (x :: xs)
      | .error r => .error r

/-- The operands of a known operation, taken from the words after its op word: `TRUNCATED` is tested before any
operand is assembled (R87). -/
def decodeOperands (c : Config) (op : OpName) (rest : List Word) : Decoded :=
  if rest.length < operandsLength (op.operandWidths c) then .refused .truncated
  else
    match takeOperands (op.operandWidths c) rest with
    | .error r => .refused r
    | .ok xs =>
      match op.withOperands xs with
      | some i => .op i
      | none => .refused .truncated

/-- `decode(PROG, cpc)` (R87), its tests in the rule's order. A `cpc` past the end, which R31 excludes, is done too
(log entry 11). -/
def decode (c : Config) (prog : List Word) (cpc : Nat) : Decoded :=
  match prog.drop cpc with
  | [] => .done
  | w :: rest =>
    if reservedOf w ≠ 0 then .refused .reservedBits
    else if classOf w = 8 then .refused .notIssuable
    else if classOf w ≠ 0 then .refused .reservedClass
    else
      match lookupOp (codeOf w) with
      | none => .refused .unassignedOp
      | some op => decodeOperands c op rest

/-- The step that a step-label word names, as traces and schedules use it (R86, R94). DESIGN CHOICE (log entry 27): the
spec defines no reader of step-label words. For a word that names no step this one borrows the reasons of R87's decoder, in
its order: `RESERVED_BITS`, then `RESERVED_CLASS` for every class but `0x8` (class `0x0` too), then `UNASSIGNED_OP`. -/
def decodeLabel (w : Word) : Except DecodeRefusal Instr :=
  if reservedOf w ≠ 0 then .error .reservedBits
  else if classOf w ≠ 8 then .error .reservedClass
  else
    match lookupLabel (codeOf w) with
    | none => .error .unassignedOp
    | some i => .ok i

/-- Words of the longest operation (R84): the room an instruction may need in the stream. -/
def Config.maxLength (c : Config) : Nat :=
  [OpName.exitCritical, .wait, .rebase, .setSeconds].foldl (fun n op => max n (op.length c)) 1

/-- The instruction that a row of the opcode table stands for, read from its bits: bit 0 is the least significant bit of
the first word, and every bit from `nbits` up is 0. A class 8 word is a step label; anything else is the first
operation of a command stream in TC16 (log entry 22). -/
def decodeTableWord (nbits w : Nat) : Option Instr :=
  let bits := w % 2 ^ nbits
  let first : Word := BitVec.ofNat 16 bits
  if classOf first = 8 then
    match decodeLabel first with
    | .ok i => some i
    | .error _ => none
  else
    match decode tc16 (splitOperand tc16.maxLength bits) 0 with
    | .op i => some i
    | _ => none

/-- The op word of an operation (R85) or the word of a step label (R86). -/
def Instr.opWord : Instr → Word
  | .enterCritical => 0x0001
  | .exitCritical _ => 0x0002
  | .clockInit => 0x0010
  | .currentTicks => 0x0020
  | .currentSeconds => 0x0021
  | .fineTicks => 0x0022
  | .fineMax => 0x0023
  | .wait _ => 0x0024
  | .rebase _ _ => 0x0030
  | .setSeconds _ => 0x0031
  | .tmrCount => 0x8001
  | .hostStop => 0x8002
  | .hostStart => 0x8003
  | .isrEntry => 0x8010
  | .isrRearm => 0x8011
  | .isrTest => 0x8012
  | .isrSnapshot => 0x8013
  | .isrEventcheck => 0x8014
  | .isrExit => 0x8015

/-- The widths that go with an instruction's operands (R83). -/
def Instr.operandWidths (c : Config) (i : Instr) : List Nat :=
  match i.opName with
  | some op => op.operandWidths c
  | none => []

/-- The words of an instruction: the op word, then each operand's words, least significant first (R83, R91). DESIGN CHOICE
(log entry 26): an operand too wide for its words, of which R91 says nothing, is cut to them. -/
def encode (c : Config) (i : Instr) : List Word :=
  i.opWord :: (List.zipWith (fun w x => splitOperand (operandWords w) x) (i.operandWidths c) i.operands).flatten

end Sys2Proof
end

