-- ==== Sys2Proof/Machine/State.lean ====
section
/-! DEFINITION. The state of the tick-counter block (R20 to R34), the reasons a step can stop, and power-on reset
(R44, R240). -/

namespace Sys2Proof.Machine

/-- `IPH`, the handler phase: the handler's program counter (R30). -/
inductive Phase where
  | none
  | rearm
  | test
  | snap
  | check
  | exit
deriving DecidableEq, Repr

/-- The next micro-step of a foreground operation, with its working values (R32). A sample in progress is the list `w`
of the words read so far, oldest first; `a` is the previous whole sample of the read synchronizer, if there is one
(R161). -/
inductive FgLabel where
  /-- The one step of an operation that has one step. -/
  | only
  /-- `CURRENT_TICKS` or `CURRENT_SECONDS`: the next word read of its `ReadSync`. -/
  | sample (a : Option Nat) (w : List Nat)
  /-- `WAIT`: the next word read of the `ReadSync` that gives `start`. -/
  | waitStart (a : Option Nat) (w : List Nat)
  /-- `WAIT`: the next word read of a `ReadSync` that gives `now`. -/
  | waitNow (start : Nat) (a : Option Nat) (w : List Nat)
  /-- `FINE_TICKS`: the read of `LAST`. -/
  | fineLast
  /-- `FINE_TICKS`: the read of `HWCNT`; `s` is the value read from `LAST`. -/
  | fineHwcnt (s : Nat)
  /-- `REBASE`: the write of `HWCNT`. -/
  | rebaseHwcnt
  /-- `REBASE`: the write of `CCR`. -/
  | rebaseCcr
  /-- `REBASE`: the write of `TICKS` word number `k` of `order(K_T)`. -/
  | rebaseTicks (k : Nat)
deriving DecidableEq, Repr

/-- `FGS`, the foreground sequencer (R32). The operands are inside `op`. -/
inductive Fgs where
  | idle
  | busy (op : Instr) (lbl : FgLabel)
deriving DecidableEq, Repr

/-- The events of `HIST`: the block's outputs (R33, R34). -/
inductive Event where
  | hwinit
  | energestOn
  | energestOff
  | energestFlush
  | wdtStart
  | wdtStop
  | schedPendingQ (p : Bool)
  | schedNextQ (t : Nat)
  | pollReq
  | lpmExitReq
  /-- Completion of a foreground operation: its mnemonic and its result, `none` for the empty value `-`. -/
  | ret (op : OpName) (v : Option Nat)
deriving DecidableEq, Repr

/-- Who steps next: an agent of R6, and for the host which of its two actions. -/
inductive Choice where
  | fg
  | isr
  | tmr
  | hostStop
  | hostStart
deriving DecidableEq, Repr

/-- Why a step has no transition. The block itself has no faults (R200): each of these is the model's stuck state for a
step the spec does not enable, or for a state the spec excludes. All are safe: the model admits no such run. -/
inductive Fault where
  /-- Raised by a foreground operation while `IN_ISR = 1`, when the foreground has no step (R125). Safe. -/
  | foregroundHeld
  /-- Raised by a step of the foreground when it is done (R31). Safe. -/
  | foregroundDone
  /-- Raised by a foreground operation when `FGS` holds another operation or another operation's label: the sequencer
  runs one operation at a time (R31, R32). Safe. -/
  | foregroundBusy
  /-- Raised by `TMR_COUNT` when `RUN = 0`: the step is not enabled (R121). Safe. -/
  | counterStopped
  /-- Raised by `ISR_ENTRY` unless all four enables hold (R124, R203). Safe. -/
  | entryNotEnabled
  /-- Raised by a handler micro-step that `IPH` does not name (R125). Safe. -/
  | phaseNotNamed
  /-- Raised by an access to a word offset of 0x18 or above, which is not present (R40). Safe. -/
  | wordNotPresent
deriving DecidableEq, Repr

/-- Why the model has no meaning for its input (R201). All are safe: the model admits no such run. -/
inductive Refusal where
  /-- `CONFIG_INVALID`: raised by step when the configuration breaks a constraint of R7 (R9). Safe. -/
  | configInvalid
  /-- The decoder's refusal at `cpc`, by its name (R87): raised by step when the foreground begins an operation. Safe. -/
  | decoder (reason : DecodeRefusal)
  /-- Raised by a word write to a read-only or reserved word, which no rule makes (R41, I9). Safe. -/
  | wordNotWritable
  /-- An instruction of the table that has no meaning yet. Safe; no arm of exec answers it. -/
  | notModelled (mnemonic : String)
deriving DecidableEq, Repr

/-- The state of the block. Registers hold natural numbers below two to the power of their width, which is an
invariant of every step (R45; log entry 3). -/
structure State where
  /-- The configuration: a parameter, never written (R35; log entry 1). -/
  cfg : Config
  /-- `PROG`, the command stream: a parameter, never written (R31, R72). -/
  prog : List Word
  /-- `cpc`, the command pointer, in words (R31). -/
  cpc : Nat
  /-- `FGS`, the foreground sequencer (R32). -/
  fgs : Fgs
  /-- `TICKS` (R21). -/
  ticks : Nat
  /-- `SECONDS` (R22). -/
  seconds : Nat
  /-- `HWCNT` (R23). -/
  hwcnt : Nat
  /-- `CCR` (R24). -/
  ccr : Nat
  /-- `LAST` (R25). -/
  last : Nat
  /-- `GIE` (R26). -/
  gie : Bool
  /-- `CMPIE` (R27). -/
  cmpie : Bool
  /-- `CMPIFG` (R28). -/
  cmpifg : Bool
  /-- `RUN` (R29). -/
  run : Bool
  /-- `IN_ISR` (R30). -/
  inIsr : Bool
  /-- `IPH` (R30). -/
  iph : Phase
  /-- `ih`, the handler's copy of the counter (R30, R128). -/
  ih : Nat
  /-- `ip`, the scheduler's pending answer (R30, R131). -/
  ip : Bool
  /-- `it`, the expiration target (R30, R131). -/
  it : Nat
  /-- `HIST`, the event history, oldest first (R33). -/
  hist : List Event
  /-- The model's own: the supplied part of the schedule, next first (R261; log entry 7). -/
  sched : List Choice
  /-- The model's own: free scheduling choices drawn so far (log entry 7). -/
  choices : Nat
  /-- The model's own: the supplied scheduler answers, next first; `none` is `ip = 0` (R261; log entry 8). -/
  answers : List (Option Nat)
  /-- The model's own: free scheduler answers drawn so far (log entry 8). -/
  draws : Nat
deriving DecidableEq, Repr

/-- Power-on reset (R44, R240) with the draws `h0` and `c0` of R241, for a configuration, a command stream, and the
inputs the host supplies (R261). The handler locals, for which R44 gives no value, are 0 (log entry 5). -/
def State.por (cfg : Config) (prog : List Word) (h0 c0 : Nat) (sched : List Choice)
    (answers : List (Option Nat)) : State where
  cfg := cfg
  prog := prog
  cpc := 0
  fgs := .idle
  ticks := 0
  seconds := 0
  hwcnt := narrow cfg.wHw h0
  ccr := narrow cfg.wHw c0
  last := 0
  gie := false
  cmpie := false
  cmpifg := false
  run := false
  inIsr := false
  iph := .none
  ih := 0
  ip := false
  it := 0
  hist := []
  sched := sched
  choices := 0
  answers := answers
  draws := 0

/-- The machine right after reset: power-on reset in TC16 with an empty command stream, nothing supplied, and the draws
`h0` and `c0` both 0 (log entries 2, 4, 6, 7, 8). -/
def State.reset : State := State.por tc16 [] 0 0 [] []

end Sys2Proof.Machine
end

