-- ==== Sys2Proof/Machine/Flags.lean ====
section
/-! DEFINITION. The flag computations and tests of the block: compare match, entry enable, second boundary, rearm test,
due test. -/

namespace Sys2Proof.Machine

/-- A flag as a bit. -/
def bit (b : Bool) : Nat := if b then 1 else 0

/-- `CMPIFG` after the counter has counted to `h`: set on equality with `CCR`, kept otherwise (R121, R122). -/
def matchFlag (cmpifg : Bool) (h ccr : Nat) : Bool := if h = ccr then true else cmpifg

/-- The handler can be entered: `CMPIFG = 1`, `CMPIE = 1`, `GIE = 1` and `IN_ISR = 0` (R124, R203). -/
def State.entryEnabled (s : State) : Bool := s.cmpifg && s.cmpie && s.gie && !s.inIsr

/-- The seconds rule on a new tick value: `(TICKS & SEC_MASK) == 0` (R127). -/
def onSecond (c : Config) (ticks : Nat) : Bool := ticks &&& c.secMask == 0

/-- `d`, the wrap-aware lead of the deadline over a counter value (R128). -/
def leadOf (c : Config) (ccr h : Nat) : Nat := subW c.wHw ccr h

/-- The rearm test: the deadline has been reached or passed, so the catch-up loop goes on (R128, C1). -/
def deadlinePassed (c : Config) (d : Nat) : Bool := d == 0 || decide (c.interval < d)

/-- `Due(tgt, now)`, the wrap-safe half-range test (R130). -/
def due (c : Config) (tgt now : Nat) : Bool := decide (subW c.wTick now tgt < c.halfT)

/-- The enable bit of a mask word: bit 0 alone counts (R101, R43). -/
def maskEnable (m : Nat) : Bool := m % 2 == 1

end Sys2Proof.Machine
end

