-- ==== Sys2Proof/Machine/Ops.lean ====
section
/-! DEFINITION. The named operations over the registers: the register word view (R40 to R43, R60), the foreground
sequencer (R31, R32), the read synchronizer's word step (R160, R161), interrupt entry and return (R205, R206), and the
pieces of the handler and the counter. -/

namespace Sys2Proof.Machine

/-! ### Events -/

/-- `emit` for a list of events, in order (R12, R33). -/
def State.emit (s : State) (es : List Event) : State := { s with hist := s.hist ++ es }

/-! ### The register word view -/

/-- Word `STATUS` (R43). -/
def State.statusWord (s : State) : Nat := bit s.gie

/-- Word `CTRL` (R42). -/
def State.ctrlWord (s : State) : Nat :=
  bit s.run + 2 * bit s.cmpie + 4 * bit s.cmpifg + 8 * bit s.inIsr

/-- The words of the view that hold one whole register each, by offset; the last of them, `0x07`, is reserved and
reads 0 (R40, R41). -/
def State.singleWord (s : State) : Nat → Nat
  | 0x00 => s.statusWord
  | 0x01 => s.ctrlWord
  | 0x02 => s.hwcnt
  | 0x03 => s.ccr
  | 0x04 => s.last
  | 0x05 => s.cfg.interval
  | 0x06 => s.cfg.tpsLog2
  | _ => 0

/-- `MemRead(off, 1)`: the word at an offset of the view (R12, R40): eight single words, eight places for the words of
`TICKS`, eight for those of `SECONDS`, and none present above them. A place without a word reads 0 (R41). -/
def State.memRead (s : State) (off : Nat) : Option Nat :=
  if off < 0x08 then some (s.singleWord off)
  else if off < 0x10 then
    some (if off - 0x08 < s.cfg.kT then wordAt s.cfg.wWord s.ticks (off - 0x08) else 0)
  else if off < 0x18 then
    some (if off - 0x10 < s.cfg.kS then wordAt s.cfg.wWord s.seconds (off - 0x10) else 0)
  else none

/-- `MemWrite(off, 1, v)`: writes the word at an offset of the view (R12, R40), keeping the bits the register has. The
fields of `STATUS` and `CTRL` are written only by their own rules, the constants and reserved words never: a word write
to one is refused (R41, I9; log entry 14). -/
def State.memWrite (s : State) (off v : Nat) : Host.Outcome State Fault Refusal :=
  if off = 0x02 then .next { s with hwcnt := narrow s.cfg.wHw v }
  else if off = 0x03 then .next { s with ccr := narrow s.cfg.wHw v }
  else if off = 0x04 then .next { s with last := narrow s.cfg.wHw v }
  else if 0x08 ≤ off ∧ off < 0x10 ∧ off - 0x08 < s.cfg.kT then
    .next { s with ticks := setWordAt s.cfg.wWord s.cfg.wTick s.ticks (off - 0x08) v }
  else if 0x10 ≤ off ∧ off < 0x18 ∧ off - 0x10 < s.cfg.kS then
    .next { s with seconds := setWordAt s.cfg.wWord s.cfg.wSec s.seconds (off - 0x10) v }
  else if off < 0x18 then .refused .wordNotWritable
  else .fault .wordNotPresent

/-- A word write, and then what the same step does after it. -/
def State.writeThen (s : State) (off v : Nat) (after : State → State) : Host.Outcome State Fault Refusal :=
  match s.memWrite off v with
  | .next t => .next (after t)
  | .fault f => .fault f
  | .refused r => .refused r

/-- The word offset of `TICKS` (R40, R160). -/
def ticksBase : Nat := 0x08

/-- The word offset of `SECONDS` (R40, R160). -/
def secondsBase : Nat := 0x10

/-! ### The foreground sequencer -/

/-- The micro-step at which an operation starts (R32). -/
def firstLabel : Instr → FgLabel
  | .currentTicks => .sample none []
  | .currentSeconds => .sample none []
  | .wait _ => .waitStart none []
  | .fineTicks => .fineLast
  | .rebase _ _ => .rebaseHwcnt
  | _ => .only

/-- The micro-step that the foreground takes for `op`: the first one when `FGS` is `Idle`, the one it is at when `FGS`
holds `op`. The foreground has no step while `IN_ISR = 1` (R125), and it runs one operation at a time (R32). -/
def State.fgLabel (s : State) (op : Instr) : Except Fault FgLabel :=
  if s.inIsr then .error .foregroundHeld
  else
    match s.fgs with
    | .idle => .ok (firstLabel op)
    | .busy op' lbl => if op' = op then .ok lbl else .error .foregroundBusy

/-- The operation goes on at `lbl` (R32). -/
def State.continueAt (s : State) (op : Instr) (lbl : FgLabel) : State := { s with fgs := .busy op lbl }

/-- The end of a foreground operation: `emit RET(op, v)`, `cpc <- cpc + len`, `FGS <- Idle` (R31, R34). -/
def State.finish (s : State) (op : OpName) (v : Option Nat) : State :=
  { s with hist := s.hist ++ [.ret op v], cpc := s.cpc + op.length s.cfg, fgs := .idle }

/-- An operation that is one atomic step: it answers `after`. -/
def State.oneStep (s : State) (op : Instr) (after : State) : Host.Outcome State Fault Refusal :=
  match s.fgLabel op with
  | .error f => .fault f
  | .ok .only => .next after
  | .ok _ => .fault .foregroundBusy

/-! ### The read synchronizer -/

/-- What a word read of `ReadSync` leads to: another word read, or the agreed value (R161). -/
inductive SyncResult where
  | again (a : Option Nat) (w : List Nat)
  | agreed (v : Nat)
deriving DecidableEq, Repr

/-- The value of a whole sample: `w` holds its words in the order they were read, `order(K)`, and word `j` counts
`2^(j * W_WORD)`; a `width`-bit value (R11, R160). -/
def sampleValue (c : Config) (k width : Nat) (w : List Nat) : Nat :=
  narrow width ((List.zipWith (fun j x => narrow c.wWord x * 2 ^ (j * c.wWord)) (c.order k) w).sum)

/-- The word of a `k`-word register that a sample reads next, when it has read `n` words (R160). -/
def sampleIndex (c : Config) (k n : Nat) : Nat := (c.order k).getD n 0

/-- The read synchronizer after it has read the word `x` (R160, R161): a sample of `k` words is taken; a whole sample
equal to the one before it is the agreed value; otherwise it becomes the first of the next pair. -/
def syncStep (c : Config) (k width : Nat) (a : Option Nat) (w : List Nat) (x : Nat) : SyncResult :=
  if (w ++ [x]).length < k then .again a (w ++ [x])
  else if a = some (sampleValue c k width (w ++ [x])) then .agreed (sampleValue c k width (w ++ [x]))
  else .again (some (sampleValue c k width (w ++ [x]))) []

/-- One micro-step of `ReadSync` on the `k`-word, `width`-bit register at `base`: one atomic word read, and what it
leads to folded into it (R13, R160, R161). -/
def State.readSync (s : State) (base k width : Nat) (a : Option Nat) (w : List Nat)
    (after : SyncResult → State) : Host.Outcome State Fault Refusal :=
  match s.memRead (base + sampleIndex s.cfg k w.length) with
  | none => .fault .wordNotPresent
  | some x => .next (after (syncStep s.cfg k width a w x))

/-- One micro-step of `ReadSync(TICKS)`. -/
def State.readSyncTicks (s : State) (a : Option Nat) (w : List Nat)
    (after : SyncResult → State) : Host.Outcome State Fault Refusal :=
  s.readSync ticksBase s.cfg.kT s.cfg.wTick a w after

/-- One micro-step of `ReadSync(SECONDS)`. -/
def State.readSyncSeconds (s : State) (a : Option Nat) (w : List Nat)
    (after : SyncResult → State) : Host.Outcome State Fault Refusal :=
  s.readSync secondsBase s.cfg.kS s.cfg.wSec a w after

/-! ### Taking the interrupt and returning from it -/

/-- Taking the compare interrupt (R124, R205): the pending match is acknowledged, the handler becomes active at its first
phase. Nothing of the foreground is saved or changed, and `GIE` is not written. -/
def State.takeInterrupt (s : State) : State :=
  { s with inIsr := true, cmpifg := false, iph := .rearm, hist := s.hist ++ [.energestOn, .wdtStart] }

/-- Returning from the handler (R132, R206). `CMPIFG`, `GIE` and the foreground are not touched. -/
def State.returnFromInterrupt (s : State) : State :=
  { s with inIsr := false, iph := .none, hist := s.hist ++ [.wdtStop, .energestOff] }

/-- A handler micro-step, enabled when `IPH` names it (R125). -/
def State.inPhase (s : State) (p : Phase) (after : State) : Host.Outcome State Fault Refusal :=
  if s.iph = p then .next after else .fault .phaseNotNamed

/-! ### The counter and the handler's work -/

/-- The counter counts one unit, and the compare match on its new value (R121, R122). -/
def State.countUp (s : State) : State :=
  { s with
    hwcnt := addW s.cfg.wHw s.hwcnt 1
    cmpifg := matchFlag s.cmpifg (addW s.cfg.wHw s.hwcnt 1) s.ccr }

/-- One deadline counted: the deadline advances by one interval, the tick counter by one, and at a multiple of `TPS` the
seconds counter by one, with the energy flush (R126, R127). -/
def State.countDeadline (s : State) : State :=
  { s with
    ccr := addW s.cfg.wHw s.ccr s.cfg.interval
    ticks := addW s.cfg.wTick s.ticks 1
    seconds :=
      if onSecond s.cfg (addW s.cfg.wTick s.ticks 1) then addW s.cfg.wSec s.seconds 1 else s.seconds
    hist :=
      if onSecond s.cfg (addW s.cfg.wTick s.ticks 1) then s.hist ++ [.energestFlush] else s.hist }

/-- The scheduler's next answer (R131): the next supplied one, and after those a free value (log entry 8). -/
def State.nextAnswer (s : State) : Option Nat :=
  match s.answers with
  | ans :: _ => ans
  | [] => Config.freeAnswer s.draws

/-- The answer is drawn: it is used up. -/
def State.drawAnswer (s : State) : State :=
  match s.answers with
  | _ :: rest => { s with answers := rest }
  | [] => { s with draws := s.draws + 1 }

/-- The events of the event check when the scheduler's pending answer is `ip` and its expiration tick is `it` (R131). -/
def checkEvents (c : Config) (ticks : Nat) (ip : Bool) (it : Nat) : List Event :=
  if ip then
    [.schedPendingQ true, .schedNextQ it] ++ (if due c it ticks then [.pollReq, .lpmExitReq] else [])
  else [.schedPendingQ false]

/-- The event check with the scheduler's answer `ans` (R131). No expiration is asked for when nothing is pending: `it`
then keeps its value. -/
def State.checkWith (s : State) (ans : Option Nat) : State :=
  { s with
    ip := ans.isSome
    it := (ans.map (narrow s.cfg.wTick)).getD s.it
    hist := s.hist ++ checkEvents s.cfg s.ticks ans.isSome ((ans.map (narrow s.cfg.wTick)).getD s.it)
    iph := .exit }

end Sys2Proof.Machine
end

