-- ==== Sys2Proof/Machine/ClockInit.lean ====
section
/-! DEFINITION. Clock initialization (R110 to R112). -/

namespace Sys2Proof.Machine

/-- The timer configured and the counters zeroed, with the bring-up call before it (R110, R111). `GIE` and `RUN` are
cleared and set again inside the one step, so only their last values show. -/
def State.initClock (s : State) : State :=
  { s.emit [.hwinit] with
    hwcnt := 0
    ccr := s.cfg.interval
    cmpifg := false
    cmpie := true
    ticks := 0
    seconds := 0
    last := 0
    run := true
    gie := true }

/-- `CLOCK_INIT` (R110), one atomic step; it may be issued again (R112). -/
def execClockInit (s : State) : Host.Outcome State Fault Refusal :=
  s.oneStep .clockInit (s.initClock.finish .clockInit none)

end Sys2Proof.Machine
end

