-- ==== Sys2Proof/Machine/Critical.lean ====
section
/-! DEFINITION. The interrupt-enable and interrupt-disable primitives (R100, R101). -/

namespace Sys2Proof.Machine

/-- `ENTER_CRITICAL` (R100): the mask word is the prior `GIE` in bit 0, and `GIE` is cleared, in one step. -/
def execEnterCritical (s : State) : Host.Outcome State Fault Refusal :=
  s.oneStep .enterCritical ({ s with gie := false }.finish .enterCritical (some s.statusWord))

/-- `EXIT_CRITICAL m` (R101): bit 0 of `m` sets `GIE`; nothing clears it. -/
def execExitCritical (m : Nat) (s : State) : Host.Outcome State Fault Refusal :=
  s.oneStep (.exitCritical m)
    ({ s with gie := if maskEnable m then true else s.gie }.finish .exitCritical none)

end Sys2Proof.Machine
end

