-- ==== Sys2Proof/Machine/Handler.lean ====
section
/-! DEFINITION. The compare-match handler: arbiter, rearm loop, snapshot, event check and exit (R124 to R132). -/

namespace Sys2Proof.Machine

/-- `ISR_ENTRY` (R124): taken when all four enables hold; it does not check that the deadline has been reached. -/
def execIsrEntry (s : State) : Host.Outcome State Fault Refusal :=
  if s.entryEnabled then .next s.takeInterrupt else .fault .entryNotEnabled

/-- `ISR_REARM` (R126): unconditionally counts one deadline. -/
def execIsrRearm (s : State) : Host.Outcome State Fault Refusal :=
  s.inPhase .rearm { s.countDeadline with iph := .test }

/-- `ISR_TEST` (R128): reads the live counter and chooses between another rearm and the snapshot. -/
def execIsrTest (s : State) : Host.Outcome State Fault Refusal :=
  s.inPhase .test
    { s with
      ih := s.hwcnt
      iph := if deadlinePassed s.cfg (leadOf s.cfg s.ccr s.hwcnt) then .rearm else .snap }

/-- `ISR_SNAPSHOT` (R129): a fresh read of the live counter. -/
def execIsrSnapshot (s : State) : Host.Outcome State Fault Refusal :=
  s.inPhase .snap { s with last := s.hwcnt, iph := .check }

/-- `ISR_EVENTCHECK` (R131): draws the scheduler's answer and signals it when its next event is due. -/
def execIsrEventcheck (s : State) : Host.Outcome State Fault Refusal :=
  s.inPhase .check (s.drawAnswer.checkWith s.nextAnswer)

/-- `ISR_EXIT` (R132): the return. -/
def execIsrExit (s : State) : Host.Outcome State Fault Refusal :=
  s.inPhase .exit s.returnFromInterrupt

end Sys2Proof.Machine
end

