-- ==== Sys2Proof/Machine/Readers.lean ====
section
/-! DEFINITION. The foreground operations that read time (R162 to R169). Each call is one micro-step. -/

namespace Sys2Proof.Machine

/-- `CURRENT_TICKS` after a word read: the result is the agreed value (R162). -/
def State.afterTicksRead (s : State) : SyncResult → State
  | .again a w => s.continueAt .currentTicks (.sample a w)
  | .agreed v => s.finish .currentTicks (some v)

/-- `CURRENT_TICKS` (R162): `ReadSync(TICKS)`, the end folded into its last word read. -/
def execCurrentTicks (s : State) : Host.Outcome State Fault Refusal :=
  match s.fgLabel .currentTicks with
  | .error f => .fault f
  | .ok (.sample a w) => s.readSyncTicks a w s.afterTicksRead
  | .ok _ => .fault .foregroundBusy

/-- `CURRENT_SECONDS` after a word read: the result is the agreed value (R163). -/
def State.afterSecondsRead (s : State) : SyncResult → State
  | .again a w => s.continueAt .currentSeconds (.sample a w)
  | .agreed v => s.finish .currentSeconds (some v)

/-- `CURRENT_SECONDS` (R163): `ReadSync(SECONDS)`, the end folded into its last word read. -/
def execCurrentSeconds (s : State) : Host.Outcome State Fault Refusal :=
  match s.fgLabel .currentSeconds with
  | .error f => .fault f
  | .ok (.sample a w) => s.readSyncSeconds a w s.afterSecondsRead
  | .ok _ => .fault .foregroundBusy

/-- `FINE_TICKS` (R166): reads `LAST`, then the live `HWCNT`, and returns their wrap-aware difference. -/
def execFineTicks (s : State) : Host.Outcome State Fault Refusal :=
  match s.fgLabel .fineTicks with
  | .error f => .fault f
  | .ok .fineLast =>
    match s.memRead 0x04 with
    | none => .fault .wordNotPresent
    | some v => .next (s.continueAt .fineTicks (.fineHwcnt v))
  | .ok (.fineHwcnt v) =>
    match s.memRead 0x02 with
    | none => .fault .wordNotPresent
    | some c => .next (s.finish .fineTicks (some (subW s.cfg.wHw c v)))
  | .ok _ => .fault .foregroundBusy

/-- `FINE_MAX` (R168): the configured interval. -/
def execFineMax (s : State) : Host.Outcome State Fault Refusal :=
  s.oneStep .fineMax (s.finish .fineMax (some s.cfg.interval))

/-- `WAIT n` after a word read for `start`: once agreed, `start` is held and the loop begins (R169). -/
def State.afterWaitStart (s : State) (n : Nat) : SyncResult → State
  | .again a w => s.continueAt (.wait n) (.waitStart a w)
  | .agreed v => s.continueAt (.wait n) (.waitNow v none [])

/-- `WAIT n` after a word read for `now`: the wait ends when `now - start` is at least `n`, and goes on otherwise
(R169). -/
def State.afterWaitNow (s : State) (n start : Nat) : SyncResult → State
  | .again a w => s.continueAt (.wait n) (.waitNow start a w)
  | .agreed now =>
    if n ≤ subW s.cfg.wTick now start then s.finish .wait none
    else s.continueAt (.wait n) (.waitNow start none [])

/-- `WAIT n` (R169): `start` is a `ReadSync(TICKS)`; then each `now` is one, until `now - start` reaches `n`. -/
def execWait (n : Nat) (s : State) : Host.Outcome State Fault Refusal :=
  match s.fgLabel (.wait n) with
  | .error f => .fault f
  | .ok (.waitStart a w) => s.readSyncTicks a w (s.afterWaitStart n)
  | .ok (.waitNow start a w) => s.readSyncTicks a w (s.afterWaitNow n start)
  | .ok _ => .fault .foregroundBusy

end Sys2Proof.Machine
end

