-- ==== Sys2Proof/Machine/Rebase.lean ====
section
/-! DEFINITION. Rebase and the no-op `SET_SECONDS` (R190 to R192). -/

namespace Sys2Proof.Machine

/-- `REBASE` after it has written `TICKS` word number `k` of `order(K_T)`: the next word, or the end folded into the last
write (R190). -/
def State.afterTicksWrite (op : Instr) (k : Nat) (s : State) : State :=
  if k + 1 < s.cfg.kT then s.continueAt op (.rebaseTicks (k + 1)) else s.finish .rebase none

/-- `REBASE t, h` (R190): `HWCNT`, then `CCR` from the operand, then the words of `TICKS` in `order(K_T)`, one word per
step. It masks no interrupt. -/
def execRebase (t h : Nat) (s : State) : Host.Outcome State Fault Refusal :=
  match s.fgLabel (.rebase t h) with
  | .error f => .fault f
  | .ok .rebaseHwcnt => s.writeThen 0x02 h fun u => u.continueAt (.rebase t h) .rebaseCcr
  | .ok .rebaseCcr =>
    s.writeThen 0x03 (addW s.cfg.wHw h s.cfg.interval) fun u => u.continueAt (.rebase t h) (.rebaseTicks 0)
  | .ok (.rebaseTicks k) =>
    s.writeThen (ticksBase + sampleIndex s.cfg s.cfg.kT k) (wordAt s.cfg.wWord t (sampleIndex s.cfg s.cfg.kT k))
      (State.afterTicksWrite (.rebase t h) k)
  | .ok _ => .fault .foregroundBusy

/-- `SET_SECONDS s` (R192): accepted and ignored; only the `RET` event happens. -/
def execSetSeconds (value : Nat) (s : State) : Host.Outcome State Fault Refusal :=
  s.oneStep (.setSeconds value) (s.finish .setSeconds none)

end Sys2Proof.Machine
end

