-- ==== Sys2Proof/Machine/Timer.lean ====
section
/-! DEFINITION. The free-running counter and the host's stop and start (R121 to R123). -/

namespace Sys2Proof.Machine

/-- `TMR_COUNT` (R121), enabled when `RUN = 1`. -/
def execTmrCount (s : State) : Host.Outcome State Fault Refusal :=
  if s.run then .next s.countUp else .fault .counterStopped

/-- `HOST_STOP` (R123), enabled in any state. -/
def execHostStop (s : State) : Host.Outcome State Fault Refusal := .next { s with run := false }

/-- `HOST_START` (R123), enabled in any state. -/
def execHostStart (s : State) : Host.Outcome State Fault Refusal := .next { s with run := true }

end Sys2Proof.Machine
end

