-- ==== Sys2Proof/Machine/Dispatch.lean ====
section
/-! DEFINITION. The meaning of each instruction: one micro-step of it (R13). -/

namespace Sys2Proof.Machine

-- one arm per row of spec/opcode_table.json
def exec (i : Instr) (s : State) : Host.Outcome State Fault Refusal :=
  match i with
  | .enterCritical => Sys2Proof.Machine.execEnterCritical s
  | .exitCritical m => Sys2Proof.Machine.execExitCritical m s
  | .clockInit => Sys2Proof.Machine.execClockInit s
  | .currentTicks => Sys2Proof.Machine.execCurrentTicks s
  | .currentSeconds => Sys2Proof.Machine.execCurrentSeconds s
  | .fineTicks => Sys2Proof.Machine.execFineTicks s
  | .fineMax => Sys2Proof.Machine.execFineMax s
  | .wait n => Sys2Proof.Machine.execWait n s
  | .rebase t h => Sys2Proof.Machine.execRebase t h s
  | .setSeconds v => Sys2Proof.Machine.execSetSeconds v s
  | .tmrCount => Sys2Proof.Machine.execTmrCount s
  | .hostStop => Sys2Proof.Machine.execHostStop s
  | .hostStart => Sys2Proof.Machine.execHostStart s
  | .isrEntry => Sys2Proof.Machine.execIsrEntry s
  | .isrRearm => Sys2Proof.Machine.execIsrRearm s
  | .isrTest => Sys2Proof.Machine.execIsrTest s
  | .isrSnapshot => Sys2Proof.Machine.execIsrSnapshot s
  | .isrEventcheck => Sys2Proof.Machine.execIsrEventcheck s
  | .isrExit => Sys2Proof.Machine.execIsrExit s

end Sys2Proof.Machine
end

