-- ==== Sys2Proof/Machine/Sched.lean ====
section
/-! DEFINITION. The interleaving: which agents are enabled (R6, R125, R204), which one steps next, and which instruction
its next step is. -/

namespace Sys2Proof.Machine

/-- The foreground is done: `cpc` is at the end of `PROG` and no operation is in progress (R31, R260). -/
def State.fgDone (s : State) : Bool := decide (s.fgs = .idle) && decide (s.prog.length ≤ s.cpc)

/-- The foreground has a step: it is neither held by the handler nor done (R31, R125). -/
def State.fgEnabled (s : State) : Bool := !s.inIsr && !s.fgDone

/-- The handler has a step: the one `IPH` names, or its entry (R124, R125). -/
def State.isrEnabled (s : State) : Bool := if s.inIsr then decide (s.iph ≠ .none) else s.entryEnabled

/-- Every agent step that is enabled (R6, R204). The host's two always are (R123). -/
def State.enabled (s : State) : List Choice :=
  (if s.fgEnabled then [.fg] else []) ++ (if s.isrEnabled then [.isr] else [])
    ++ (if s.run then [.tmr] else []) ++ [.hostStop, .hostStart]

/-- Who steps next: the next of the supplied schedule, and after its end a free choice among the enabled agents
(R204, R261; log entry 7). -/
def State.choice (s : State) : Choice :=
  match s.sched with
  | c :: _ => c
  | [] => s.enabled.getD (Config.freeChoice s.choices % s.enabled.length) .hostStop

/-- The choice is made: it is used up. -/
def State.chosen (s : State) : State :=
  match s.sched with
  | _ :: rest => { s with sched := rest }
  | [] => { s with choices := s.choices + 1 }

/-- The handler's next step: its entry when it is not active, else the step that `IPH` names (R125). An active handler
with no phase, which R30 excludes, has none. -/
def State.isrInstr (s : State) : Instr :=
  match s.iph with
  | .none => .isrEntry
  | .rearm => .isrRearm
  | .test => .isrTest
  | .snap => .isrSnapshot
  | .check => .isrEventcheck
  | .exit => .isrExit

/-- The instruction of the foreground's next step: the one `FGS` holds, or the one decoded at `cpc` in the first
micro-step (R32, R87). -/
def State.fgInstr (s : State) : Host.Outcome Instr Fault Refusal :=
  match s.fgs with
  | .busy op _ => .next op
  | .idle =>
    if s.inIsr then .fault .foregroundHeld
    else
      match decode s.cfg s.prog s.cpc with
      | .done => .fault .foregroundDone
      | .refused r => .refused (.decoder r)
      | .op i => .next i

/-- The instruction that an agent's next step is. -/
def State.instrOf (s : State) : Choice → Host.Outcome Instr Fault Refusal
  | .fg => s.fgInstr
  | .isr => .next s.isrInstr
  | .tmr => .next .tmrCount
  | .hostStop => .next .hostStop
  | .hostStart => .next .hostStart

end Sys2Proof.Machine
end

