-- ==== Sys2Proof/Machine/Fetch.lean ====
section
/-! DEFINITION. Placing an instruction where the next step takes it from (log entries 6 and 17). -/

namespace Sys2Proof.Machine

/-- The words put into a command stream at an index, which is extended with zero words to reach it. -/
def placeWords (prog : List Word) (at_ : Nat) (ws : List Word) : List Word :=
  (prog ++ List.replicate (at_ - prog.length) 0).take at_ ++ ws ++ prog.drop (at_ + ws.length)

/-- The foreground begins the operation whose words are at `cpc` as its next step. -/
def State.withOperation (s : State) (ws : List Word) : State :=
  { s with
    prog := placeWords s.prog s.cpc ws
    fgs := .idle
    inIsr := false
    iph := .none
    sched := .fg :: s.sched }

/-- The handler takes the step of phase `p` next. -/
def State.withPhase (s : State) (p : Phase) : State :=
  { s with inIsr := true, iph := p, sched := .isr :: s.sched }

/-- The step a label names is the next one: its agent is scheduled, and what enables the step holds (R121, R123,
R124, R125). -/
def State.withLabel (s : State) : Instr → State
  | .tmrCount => { s with run := true, sched := .tmr :: s.sched }
  | .hostStop => { s with sched := .hostStop :: s.sched }
  | .hostStart => { s with sched := .hostStart :: s.sched }
  | .isrEntry =>
    { s with cmpifg := true, cmpie := true, gie := true, inIsr := false, iph := .none, sched := .isr :: s.sched }
  | .isrRearm => s.withPhase .rearm
  | .isrTest => s.withPhase .test
  | .isrSnapshot => s.withPhase .snap
  | .isrEventcheck => s.withPhase .check
  | .isrExit => s.withPhase .exit
  | _ => s

/-- The state whose next step takes the instruction with these bits: a step label by scheduling its agent, anything else
by its words in the command stream at `cpc`. -/
def State.placeInstr (s : State) (bits : Nat) : State :=
  match decodeLabel (BitVec.ofNat 16 bits) with
  | .ok i => s.withLabel i
  | .error _ => s.withOperation (splitOperand s.cfg.maxLength bits)

end Sys2Proof.Machine
end

