-- ==== Sys2Proof/Machine/Step.lean ====
section
/-! DEFINITION. One step of the machine: one transition of one agent (R13, R68). -/

namespace Sys2Proof.Machine

/-- One step: an invalid configuration is refused (R9), an agent is chosen, and its next micro-step is executed. -/
def step (s : State) : Host.Outcome State Fault Refusal :=
  if s.cfg.valid then
    match s.instrOf s.choice with
    | .next i => exec i s.chosen
    | .fault f => .fault f
    | .refused r => .refused r
  else .refused .configInvalid

/-- The state whose next step runs the instruction whose bits are `w`, of which the lowest `nbits` count. -/
def State.withFetchWord (s : State) (nbits w : Nat) : State := s.placeInstr (w % 2 ^ nbits)

end Sys2Proof.Machine
end

