-- ==== Sys2Proof/Machine/Run.lean ====
section
/-! DEFINITION. Runs of the machine under a given schedule (R13, R204, R261), the result of a run (R260), and two
sequences of micro-steps that the spec's derived rules speak of (R137, R164). -/

namespace Sys2Proof.Machine

/-- What follows a step, if it answers a next state. -/
def andThen (o : Host.Outcome State Fault Refusal) (next : State → Host.Outcome State Fault Refusal) :
    Host.Outcome State Fault Refusal :=
  match o with
  | .next t => next t
  | .fault f => .fault f
  | .refused r => .refused r

/-- One step in which agent `c` is the one that steps. -/
def stepAs (c : Choice) (s : State) : Host.Outcome State Fault Refusal := step { s with sched := c :: s.sched }

/-- The agents of a list step one after the other, stopping at the first stop. -/
def runAs : List Choice → State → Host.Outcome State Fault Refusal
  | [], s => .next s
  | c :: cs, s => andThen (stepAs c s) (runAs cs)

/-- `n` consecutive `ISR_REARM` steps (R137), whatever phase the handler goes through between them. -/
def rearmTimes : Nat → State → Host.Outcome State Fault Refusal
  | 0, s => .next s
  | n + 1, s => andThen (rearmTimes n s) fun t => exec .isrRearm { t with iph := .rearm }

/-- `n` micro-steps of the operation `op`, `during i` being what the handler has done to the state before the `i`-th
(R160, R164). -/
def readDuring (op : Instr) (during : Nat → State → State) : Nat → State → Host.Outcome State Fault Refusal
  | 0, s => .next s
  | n + 1, s => andThen (readDuring op during n s) fun t => exec op (during n t)

/-- After `n` steps of a sequence, and after no fewer but 0, the state has `p`; it is `t` then. -/
def FirstReaches (seq : Nat → Host.Outcome State Fault Refusal) (p : State → Prop) (n : Nat) (t : State) : Prop :=
  0 < n ∧ seq n = .next t ∧ p t ∧ ∀ m u, 0 < m → m < n → seq m = .next u → ¬ p u

/-- Of the first `n` values, the last `window` change at most once (R164). -/
def ChangesOnce (v : Nat → Nat) (window n : Nat) : Prop :=
  ∃ x y cut, ∀ i, n ≤ i + window → i < n → v i = if i < cut then x else y

/-! ### The result of a run -/

/-- The run is at its end: the foreground is done and no invocation is in progress (R260). -/
def State.runDone (s : State) : Bool := s.fgDone && !s.inIsr

/-- What a run gives back (R260, R261). -/
inductive RunResult where
  /-- The foreground became done: the end state, with its `HIST`. -/
  | done (endState : State)
  /-- The foreground is not done: there is no end state, only `HIST` so far. -/
  | unfinished (hist : List Event)
  /-- The run was refused: the reason, and neither `HIST` nor an end state (R201). -/
  | refused (reason : Refusal)
  /-- The schedule named an agent that has no step: the model's stuck state (log entry 9). -/
  | stuck (reason : Fault)
deriving DecidableEq, Repr

/-- The result of a run of at most `n` steps (R260): the state at which the run is at its end for the first time, whatever
background agents would do after it. -/
def runResult : Nat → State → RunResult
  | 0, s => if s.cfg.valid && s.runDone then .done s else .unfinished s.hist
  | n + 1, s =>
    if s.cfg.valid && s.runDone then .done s
    else
      match step s with
      | .next t => runResult n t
      | .fault f => .stuck f
      | .refused r => .refused r

end Sys2Proof.Machine
end

