-- ==== Sys2Proof/Safety.lean ====
section
/-! DEFINITION. The invariants every rule keeps (R31, R32, R45), runs and their end (R260), and the premises of R258 and
R263 that a claim about a run may take. -/

namespace Sys2Proof.Machine

/-! ### Invariants -/

/-- The working values of a sample in progress have their widths: `a` that of the register, each word `W_WORD`, and
fewer than `k` words have been read (R32, R45). -/
def sampleFits (c : Config) (k width : Nat) (a : Option Nat) (w : List Nat) : Bool :=
  a.all (fun v => decide (v < 2 ^ width)) && decide (w.length < k) && w.all (fun x => decide (x < 2 ^ c.wWord))

/-- A label belongs to its operation, and its working values have their widths (R32, R45). -/
def labelFits (c : Config) : Instr → FgLabel → Bool
  | .currentTicks, .sample a w => sampleFits c c.kT c.wTick a w
  | .currentSeconds, .sample a w => sampleFits c c.kS c.wSec a w
  | .wait _, .waitStart a w => sampleFits c c.kT c.wTick a w
  | .wait _, .waitNow start a w => decide (start < 2 ^ c.wTick) && sampleFits c c.kT c.wTick a w
  | .fineTicks, .fineLast => true
  | .fineTicks, .fineHwcnt v => decide (v < 2 ^ c.wHw)
  | .rebase _ _, .rebaseHwcnt => true
  | .rebase _ _, .rebaseCcr => true
  | .rebase _ _, .rebaseTicks k => decide (k < c.kT)
  | .enterCritical, .only => true
  | .exitCritical _, .only => true
  | .clockInit, .only => true
  | .fineMax, .only => true
  | .setSeconds _, .only => true
  | _, _ => false

/-- What `FGS` holds fits the configuration (R32, R45). -/
def Fgs.fits (c : Config) : Fgs → Bool
  | .idle => true
  | .busy op lbl => op.wf c && labelFits c op lbl

/-- The state invariants of R45, in a legal configuration (R9). -/
structure State.Wf (s : State) : Prop where
  cfg_valid : s.cfg.valid = true
  phase : s.iph = .none ↔ s.inIsr = false
  ticks_lt : s.ticks < 2 ^ s.cfg.wTick
  seconds_lt : s.seconds < 2 ^ s.cfg.wSec
  hwcnt_lt : s.hwcnt < 2 ^ s.cfg.wHw
  ccr_lt : s.ccr < 2 ^ s.cfg.wHw
  last_lt : s.last < 2 ^ s.cfg.wHw
  ih_lt : s.ih < 2 ^ s.cfg.wHw
  it_lt : s.it < 2 ^ s.cfg.wTick
  fgs_fits : s.fgs.fits s.cfg = true

/-- The sequencing invariant of R31 and R32: `cpc` does not pass the end of `PROG`, and while an operation is in progress
`cpc` holds the index of that operation's command word. -/
structure State.Sequenced (s : State) : Prop where
  cpc_le : s.cpc ≤ s.prog.length
  busy_op : ∀ op lbl, s.fgs = .busy op lbl → decode s.cfg s.prog s.cpc = .op op

/-! ### Runs -/

/-- The next step runs instruction `i`. -/
def Runs (s : State) (i : Instr) : Prop := s.instrOf s.choice = .next i

/-- An endless run from power-on reset (R260): no state of it is a stop. -/
structure IsRun (σ : Nat → State) : Prop where
  start : ∃ c prog h0 c0 sched answers, c.valid = true ∧ σ 0 = State.por c prog h0 c0 sched answers
  steps : ∀ n, step (σ n) = .next (σ (n + 1))

/-- The run's result is the state at index `n`, with its `HIST` (R260): there, and at no earlier state, the foreground is
done and no invocation is in progress. Later steps of background agents are no part of the result. -/
def EndsAt (σ : Nat → State) (n : Nat) : Prop := (σ n).runDone = true ∧ ∀ m, m < n → (σ m).runDone = false

/-! ### The named premises (R263) -/

/-- `P_INIT`: the first foreground operation is `CLOCK_INIT`, and no other follows (R242, R254). -/
def PInit (σ : Nat → State) : Prop :=
  ∃ n, Runs (σ n) .clockInit ∧ (∀ m, m < n → (σ m).choice ≠ .fg) ∧ ∀ m, n < m → ¬ Runs (σ m) .clockInit

/-- `P_NOSTOP`: no `HOST_STOP` step occurs (R123). -/
def PNoStop (σ : Nat → State) : Prop := ∀ n, ¬ Runs (σ n) .hostStop

/-- `P_SERIAL`: every `REBASE` starts with `GIE = 0` (R244). -/
def PSerial (σ : Nat → State) : Prop :=
  ∀ n t h, Runs (σ n) (.rebase t h) → (σ n).fgs = .idle → (σ n).gie = false

/-- The lead of the deadline over the counter is in `[1, INTERVAL]`: the deadline is strictly ahead (R245). -/
def State.deadlineAhead (s : State) : Prop :=
  1 ≤ leadOf s.cfg s.ccr s.hwcnt ∧ leadOf s.cfg s.ccr s.hwcnt ≤ s.cfg.interval

/-- `P_NOSTALE`: no `ISR_ENTRY` with the deadline strictly ahead (R245). -/
def PNoStale (σ : Nat → State) : Prop := ∀ n, Runs (σ n) .isrEntry → ¬ (σ n).deadlineAhead

/-- `P_NOCROSS`: no `TMR_COUNT` makes a match while `IPH` is `REARM` or `TEST` (R246). -/
def PNoCross (σ : Nat → State) : Prop :=
  ∀ n, Runs (σ n) .tmrCount → (σ n).iph = .rearm ∨ (σ n).iph = .test →
    addW (σ n).cfg.wHw (σ n).hwcnt 1 ≠ (σ n).ccr

/-- The label at which the foreground takes its next micro-step. -/
def State.currentLabel (s : State) : FgLabel :=
  match s.fgs with
  | .busy _ lbl => lbl
  | .idle =>
    match s.fgInstr with
    | .next i => firstLabel i
    | _ => .only

/-- The counter and the deadline without wrapping, after the step from `s` (R134, R247): counting and rearming add, the
bases of R136 start anew. -/
def unwrapStep (s : State) (u : Nat × Nat) : Nat × Nat :=
  match s.instrOf s.choice with
  | .next .tmrCount => (u.1 + 1, u.2)
  | .next .isrRearm => (u.1, u.2 + s.cfg.interval)
  | .next .clockInit => (0, s.cfg.interval)
  | .next (.rebase _ h) =>
    match s.currentLabel with
    | .rebaseHwcnt => (h, u.2)
    | .rebaseCcr => (u.1, h + s.cfg.interval)
    | _ => u
  | _ => u

/-- The unwrapped counter and deadline at each state of a run (R247; log entry 20). -/
def unwrapped (σ : Nat → State) : Nat → Nat × Nat
  | 0 => ((σ 0).hwcnt, (σ 0).ccr)
  | n + 1 => unwrapStep (σ n) (unwrapped σ n)

/-- `P_LAG`: at every `ISR_TEST` of a passed deadline the lag is below `2^W_HW - INTERVAL` (R247). -/
def PLag (σ : Nat → State) : Prop :=
  ∀ n, Runs (σ n) .isrTest → (unwrapped σ n).2 ≤ (unwrapped σ n).1 →
    (unwrapped σ n).1 - (unwrapped σ n).2 < 2 ^ (σ n).cfg.wHw - (σ n).cfg.interval

/-- `P_TICKING`: `GIE = 1`, `CMPIE = 1` and `RUN = 1` throughout a `WAIT` (R248). -/
def PTicking (σ : Nat → State) : Prop :=
  ∀ n k lbl, (σ n).fgs = .busy (.wait k) lbl →
    (σ n).gie = true ∧ (σ n).cmpie = true ∧ (σ n).run = true

/-- The next micro-step is a word read of `ReadSync(TICKS)` (`secs` false) or `ReadSync(SECONDS)` (`secs` true), with this
previous sample and these words read (R160, R161). -/
def State.Samples (s : State) (secs : Bool) (a : Option Nat) (w : List Nat) : Prop :=
  s.choice = .fg ∧
    ((secs = false ∧ Runs s .currentTicks ∧ s.currentLabel = .sample a w)
      ∨ (secs = true ∧ Runs s .currentSeconds ∧ s.currentLabel = .sample a w)
      ∨ (secs = false ∧ ∃ n, Runs s (.wait n)
          ∧ (s.currentLabel = .waitStart a w ∨ ∃ start, s.currentLabel = .waitNow start a w)))

/-- The register that `ReadSync` samples, its words and its width. -/
def State.sampled (s : State) (secs : Bool) : Nat := if secs then s.seconds else s.ticks

/-- Words of the sampled register. -/
def sampledWords (c : Config) (secs : Bool) : Nat := if secs then c.kS else c.kT

/-- Width of the sampled register. -/
def sampledWidth (c : Config) (secs : Bool) : Nat := if secs then c.wSec else c.wTick

/-- The next micro-step begins a sample (R160). -/
def State.BeginsSample (s : State) (secs : Bool) : Prop := ∃ a, s.Samples secs a []

/-- The next micro-step is the last word read of a sample (R160). -/
def State.EndsSample (s : State) (secs : Bool) : Prop :=
  ∃ a w, s.Samples secs a w ∧ w.length + 1 = sampledWords s.cfg secs

/-- The next micro-step ends a `ReadSync`, which agrees on `v` (R161). -/
def State.EndsReadSync (s : State) (secs : Bool) (v : Nat) : Prop :=
  ∃ a w, s.Samples secs a w
    ∧ syncStep s.cfg (sampledWords s.cfg secs) (sampledWidth s.cfg secs) a w
        (wordAt s.cfg.wWord (s.sampled secs) (sampleIndex s.cfg (sampledWords s.cfg secs) w.length)) = .agreed v

/-- Two consecutive samples: one begins at `m`, the next at `p`, and `n` is the last word read of the second (R164). -/
def TwoSamples (σ : Nat → State) (secs : Bool) (m p n : Nat) : Prop :=
  m < p ∧ p ≤ n ∧ (σ m).BeginsSample secs ∧ (σ p).BeginsSample secs ∧ (σ n).EndsSample secs
    ∧ (∀ k, m < k → k ≤ n → k ≠ p → ¬ (σ k).BeginsSample secs)
    ∧ ∀ k, p ≤ k → k < n → ¬ (σ k).EndsSample secs

/-- The step from index `k` changes the register. -/
def ChangesAt (σ : Nat → State) (secs : Bool) (k : Nat) : Prop := (σ (k + 1)).sampled secs ≠ (σ k).sampled secs

/-- From index `m` to index `n` the register changes at most once, and not by a multiple of `2^width` (R164, R250). One
invocation is one change: all the steps that change the register belong to the same invocation, no `ISR_ENTRY` coming
between two of them, and together they leave the register unequal to its old value (log entry 21). -/
def OneChange (σ : Nat → State) (secs : Bool) (m n : Nat) : Prop :=
  (∀ j k, m ≤ j → j < k → k < n → ChangesAt σ secs j → ChangesAt σ secs k →
      ∀ e, j < e → e < k → ¬ Runs (σ e) .isrEntry)
    ∧ ((∃ k, m ≤ k ∧ k < n ∧ ChangesAt σ secs k) → (σ n).sampled secs ≠ (σ m).sampled secs)

/-- `P_READ1`: between the first word read of the last sample but one of a `ReadSync` and the last word read of its last
sample, the register changes at most once, and not by a multiple of `2^width` (R164, R250). -/
def PRead1 (σ : Nat → State) : Prop :=
  ∀ secs m p n v, TwoSamples σ secs m p n → (σ n).EndsReadSync secs v → OneChange σ secs m n

/-- The next micro-step begins a call of `ReadSync`: the call has no sample yet (R161). -/
def State.BeginsReadSync (s : State) (secs : Bool) : Prop := s.Samples secs none []

/-- `P_QUIET`: each call of `ReadSync` eventually meets two consecutive samples of its own between which the register does
not change (R165, R250). The call begins at `m₀`; no word read before `n`, the last of the two samples, ends it. -/
def PQuiet (σ : Nat → State) : Prop :=
  ∀ secs m₀, (σ m₀).BeginsReadSync secs →
    ∃ m p n, m₀ ≤ m ∧ TwoSamples σ secs m p n
      ∧ (∀ k v, m₀ ≤ k → k < n → ¬ (σ k).EndsReadSync secs v)
      ∧ ∀ k, m ≤ k → k ≤ n → (σ k).sampled secs = (σ m).sampled secs

/-- A target is within `HALF_T` ticks of now, both unwrapped (R251): at most `HALF_T - 1` behind and at most `HALF_T`
ahead. -/
def withinHalf (c : Config) (tgt now : Int) : Prop := now - tgt < c.halfT ∧ tgt - now ≤ c.halfT

/-- `P_HALF`: whenever the scheduler answers an expiration, it is the `W_TICK` bits of a target within `HALF_T` of the
unwrapped ticks (R251). `target` and `now` are the unwrapped values. -/
def PHalf (σ : Nat → State) (target now : Nat → Int) : Prop :=
  ∀ n t, Runs (σ n) .isrEventcheck → (σ n).nextAnswer = some t →
    (narrow (σ n).cfg.wTick t : Int) = target n % 2 ^ (σ n).cfg.wTick
      ∧ ((σ n).ticks : Int) = now n % 2 ^ (σ n).cfg.wTick
      ∧ withinHalf (σ n).cfg (target n) (now n)

/-- The masks of the critical sections still open after the step from `s`, innermost first (R100 to R102). -/
def openMasksStep (s : State) (masks : List Nat) : List Nat :=
  match s.instrOf s.choice with
  | .next .enterCritical => s.statusWord :: masks
  | .next (.exitCritical _) => masks.tail
  | _ => masks

/-- The masks of the critical sections open at each state of a run, innermost first: the results of the
`ENTER_CRITICAL`s not yet exited. -/
def openMasks (σ : Nat → State) : Nat → List Nat
  | 0 => []
  | n + 1 => openMasksStep (σ n) (openMasks σ n)

/-- Balanced use (R252, R258): every `EXIT_CRITICAL` takes its own level's mask, the one that the innermost open section's
`ENTER_CRITICAL` returned. -/
def PBalanced (σ : Nat → State) : Prop :=
  ∀ n m, Runs (σ n) (.exitCritical m) → (openMasks σ n).head? = some m

/-- Ticks that the next step counts: one for an `ISR_REARM` (R126). -/
def State.ticksCounted (s : State) : Nat :=
  match s.instrOf s.choice with
  | .next .isrRearm => 1
  | _ => 0

/-- Ticks counted by the steps from index `m` up to index `n`. -/
def ticksBetween (σ : Nat → State) (m n : Nat) : Nat :=
  ((List.range (n - m)).map fun j => (σ (m + j)).ticksCounted).sum

/-- `WAIT k` is in the loop that reads `now` (R169). -/
def State.InWaitLoop (s : State) (k : Nat) : Prop := ∃ start a w, s.fgs = .busy (.wait k) (.waitNow start a w)

/-- A `now` sample of `WAIT k` is read: its last two samples begin at `m`, and the micro-step at `e` ends its `ReadSync`
(R164, R169). -/
def ReadsNow (σ : Nat → State) (k m e : Nat) : Prop :=
  (σ e).InWaitLoop k ∧ ∃ p v, TwoSamples σ false m p e ∧ (σ e).EndsReadSync false v

/-- `n` small enough (R253, R258): `n <= 2^W_TICK - 1 - M`, for the ticks `M` counted between any two consecutive `now`
samples of a `WAIT n`, said without subtraction. A `now` value is held somewhere within its last two samples, so the ticks
are counted from the beginning of those of the earlier `now` to the end of the later one (log entry 28). -/
def PWaitSmall (σ : Nat → State) : Prop :=
  ∀ n m e m' e', ReadsNow σ n m e → ReadsNow σ n m' e' → e < e' →
    (∀ j, e < j → j < e' → (σ j).InWaitLoop n ∧ ∀ v, ¬ (σ j).EndsReadSync false v) →
    n + ticksBetween σ m e' + 1 ≤ 2 ^ (σ e').cfg.wTick

/-- `P_FAIR`, weak fairness (R216): a counter step and a handler entry that stay enabled are taken, an active handler
steps, and a foreground that stays enabled steps. The host need never act. -/
structure PFair (σ : Nat → State) : Prop where
  counter : ∀ n, (∀ m, n ≤ m → (σ m).run = true) → ∃ m, n ≤ m ∧ (σ m).choice = .tmr
  entry : ∀ n, (∀ m, n ≤ m → (σ m).entryEnabled = true) → ∃ m, n ≤ m ∧ (σ m).choice = .isr
  handler : ∀ n, (σ n).inIsr = true → ∃ m, n ≤ m ∧ (σ m).choice = .isr
  foreground : ∀ n, (∀ m, n ≤ m → (σ m).fgEnabled = true) → ∃ m, n ≤ m ∧ (σ m).choice = .fg

end Sys2Proof.Machine
end

