-- ==== Sys2Proof/Certificates/Slice0/Obligations.lean ====
section
/-! DEFINITION. The statements for the provers, from the spec's numbered rules. A statement about one micro-step gives the
whole next state, so that it says the frame too: every field it does not name is as before. -/

open Sys2Proof Sys2Proof.Machine

/-! ### Reset -/

/-- R44: the power-on values, for every configuration, command stream and draws `h0`, `c0`. -/
def Obligations.PowerOnResetSetsEveryRegister : Prop :=
  ∀ (c : Config) (prog : List Word) (h0 c0 : Nat) (sched : List Choice) (answers : List (Option Nat)),
    h0 < 2 ^ c.wHw → c0 < 2 ^ c.wHw →
    ∃ s, State.por c prog h0 c0 sched answers = s
      ∧ s.ticks = 0 ∧ s.seconds = 0 ∧ s.hwcnt = h0 ∧ s.ccr = c0 ∧ s.last = 0
      ∧ s.gie = false ∧ s.cmpie = false ∧ s.cmpifg = false ∧ s.run = false
      ∧ s.inIsr = false ∧ s.iph = .none ∧ s.fgs = .idle ∧ s.cpc = 0 ∧ s.hist = []
      ∧ s.cfg = c ∧ s.prog = prog

/-- R44, R45, R31: power-on reset of a legal configuration meets both invariants, whatever is drawn and supplied; and so
does State.reset, whose configuration, stream and draws are the model's choice (log entries 2, 4, 6). -/
def Obligations.ResetMeetsTheInvariants : Prop :=
  (∀ (c : Config) (prog : List Word) (h0 c0 : Nat) (sched : List Choice) (answers : List (Option Nat)),
    c.valid = true →
      (State.por c prog h0 c0 sched answers).Wf ∧ (State.por c prog h0 c0 sched answers).Sequenced)
  ∧ State.reset.Wf ∧ State.reset.Sequenced

/-! ### The step -/

/-- One step executes the chosen agent's instruction: the foreground's is the one decoded at `cpc` or the one in
progress (R32, R87), the handler's is the one `IPH` names (R125). The instruction runs on the state with the choice used
up, which changes nothing the spec names (a schedule carried in the state is the model's form, log entry 7). -/
def Obligations.StepRunsTheChosenAgentsInstruction : Prop :=
  ∀ s : State, s.cfg.valid = true →
    (∀ i, s.choice = .fg → s.inIsr = false → s.fgs = .idle → decode s.cfg s.prog s.cpc = .op i →
      step s = exec i s.chosen)
    ∧ (∀ op lbl, s.choice = .fg → s.fgs = .busy op lbl → step s = exec op s.chosen)
    ∧ (s.choice = .isr → s.iph = .none → step s = exec .isrEntry s.chosen)
    ∧ (s.choice = .isr → s.iph = .rearm → step s = exec .isrRearm s.chosen)
    ∧ (s.choice = .isr → s.iph = .test → step s = exec .isrTest s.chosen)
    ∧ (s.choice = .isr → s.iph = .snap → step s = exec .isrSnapshot s.chosen)
    ∧ (s.choice = .isr → s.iph = .check → step s = exec .isrEventcheck s.chosen)
    ∧ (s.choice = .isr → s.iph = .exit → step s = exec .isrExit s.chosen)
    ∧ (s.choice = .tmr → step s = exec .tmrCount s.chosen)
    ∧ (s.choice = .hostStop → step s = exec .hostStop s.chosen)
    ∧ (s.choice = .hostStart → step s = exec .hostStart s.chosen)
    ∧ (∀ c cs, s.sched = c :: cs → s.choice = c ∧ s.chosen = { s with sched := cs })
    ∧ (s.sched = [] → s.chosen = { s with choices := s.choices + 1 })

/-- R7, R9, R87, R201: a step is refused `CONFIG_INVALID` exactly when the configuration breaks a constraint of R7's table
(a refusal of every step, and not of the run's start alone, is the model's form, log entry 10), and a decoder's refusal stops
the run under its own name. -/
def Obligations.StepRefusesByName : Prop :=
  (∀ s : State, step s = .refused .configInvalid ↔
    ¬ (8 ≤ s.cfg.wWord
      ∧ (1 ≤ s.cfg.wHw ∧ s.cfg.wHw ≤ s.cfg.wWord)
      ∧ (1 ≤ s.cfg.wTick ∧ s.cfg.wTick ≤ 8 * s.cfg.wWord)
      ∧ (1 ≤ s.cfg.wSec ∧ s.cfg.wSec ≤ 8 * s.cfg.wWord)
      ∧ ((∃ n, s.cfg.tps = 2 ^ n) ∧ s.cfg.tps ≤ 2 ^ s.cfg.wTick)
      ∧ 1 ≤ s.cfg.hwRate
      ∧ (s.cfg.interval = s.cfg.hwRate / s.cfg.tps ∧ 1 ≤ s.cfg.interval ∧ s.cfg.interval < 2 ^ s.cfg.wHw)))
  ∧ ∀ (s : State) (r : DecodeRefusal), s.cfg.valid = true → s.choice = .fg → s.inIsr = false → s.fgs = .idle →
      decode s.cfg s.prog s.cpc = .refused r → step s = .refused (.decoder r)

/-- R6, R121, R123, R124, R125, R31: an agent can step exactly when its step is enabled. (A foreground that begins an
operation also needs the stream to decode there; otherwise the run is refused.) -/
def Obligations.AgentsStepExactlyWhenEnabled : Prop :=
  ∀ s : State, s.Wf →
    ((∃ t, stepAs .fg s = .next t) ↔ s.inIsr = false ∧
      ((∃ op lbl, s.fgs = .busy op lbl) ∨ (s.fgs = .idle ∧ ∃ i, decode s.cfg s.prog s.cpc = .op i)))
    ∧ ((∃ t, stepAs .isr s = .next t) ↔ s.inIsr = true ∨ (s.cmpifg = true ∧ s.cmpie = true ∧ s.gie = true))
    ∧ ((∃ t, stepAs .tmr s = .next t) ↔ s.run = true)
    ∧ (∃ t, stepAs .hostStop s = .next t)
    ∧ (∃ t, stepAs .hostStart s = .next t)

/-- R204: once the supplied schedule has ended, the free choice (log entry 7) is always an agent whose step is enabled,
whatever the free value. -/
def Obligations.FreeChoiceIsEnabled : Prop :=
  ∀ s : State, s.Wf → s.sched = [] →
    match s.choice with
    | .fg => s.inIsr = false ∧ ((∃ op lbl, s.fgs = .busy op lbl) ∨ s.cpc < s.prog.length)
    | .isr => s.inIsr = true ∨ (s.cmpifg = true ∧ s.cmpie = true ∧ s.gie = true)
    | .tmr => s.run = true
    | .hostStop => True
    | .hostStart => True

/-! ### Critical section -/

/-- R100: the mask word is the prior `GIE`, and `GIE` is cleared in the same step. -/
def Obligations.EnterCriticalReturnsPriorEnable : Prop :=
  ∀ s : State, s.inIsr = false → s.fgs = .idle →
    exec .enterCritical s = .next
      { s with
        gie := false
        hist := s.hist ++ [.ret .enterCritical (some (if s.gie then 1 else 0))]
        cpc := s.cpc + 1 }

/-- R101: bit 0 of the mask sets `GIE`; a mask with bit 0 clear leaves it as it is; a pending match can then be taken at
once. -/
def Obligations.ExitCriticalRestoresEnable : Prop :=
  ∀ (m : Nat) (s : State), s.inIsr = false → s.fgs = .idle →
    ∃ t, exec (.exitCritical m) s = .next t
      ∧ t = { s with
          gie := if m % 2 = 1 then true else s.gie
          hist := s.hist ++ [.ret .exitCritical none]
          cpc := s.cpc + (1 + (s.cfg.wWord + 15) / 16) }
      ∧ (m % 2 = 1 → s.cmpifg = true → s.cmpie = true →
          exec .isrEntry t = .next t.takeInterrupt)

/-- R102: nested sections, each restored with its own mask, give back `GIE` as it was; it stays 0 between the two
exits. -/
def Obligations.NestedCriticalSectionsRestoreEnable : Prop :=
  ∀ s : State, s.inIsr = false → s.fgs = .idle →
    ∃ s1 s2 s3 s4 m1 m2,
      exec .enterCritical s = .next s1 ∧ s1.hist.getLast? = some (.ret .enterCritical (some m1))
      ∧ exec .enterCritical s1 = .next s2 ∧ s2.hist.getLast? = some (.ret .enterCritical (some m2))
      ∧ exec (.exitCritical m2) s2 = .next s3 ∧ s3.gie = false
      ∧ exec (.exitCritical m1) s3 = .next s4 ∧ s4.gie = s.gie

/-- R104: only `ENTER_CRITICAL`, `EXIT_CRITICAL` and `CLOCK_INIT` write `GIE`; no handler step does. -/
def Obligations.EnableFlagHasThreeWriters : Prop :=
  ∀ (i : Instr) (s t : State), exec i s = .next t → t.gie ≠ s.gie →
    (i = .enterCritical ∧ t.gie = false) ∨ ((∃ m, i = .exitCritical m) ∧ t.gie = true)
      ∨ (i = .clockInit ∧ t.gie = true)

/-- R103: while `GIE = 0` no step of any agent enters the handler, and a pending match is not lost: only `CLOCK_INIT`
clears it. -/
def Obligations.MaskedForegroundKeepsHandlerOut : Prop :=
  ∀ s t : State, step s = .next t → s.inIsr = false → s.gie = false →
    t.inIsr = false ∧ (s.cmpifg = true → t.cmpifg = true ∨ s.instrOf s.choice = .next .clockInit)

/-! ### Clock initialization -/

/-- R110, R111: the state after `CLOCK_INIT`, whatever the state before it. -/
def Obligations.ClockInitSetsTheClock : Prop :=
  ∀ s : State, s.inIsr = false → s.fgs = .idle →
    exec .clockInit s = .next
      { s with
        hwcnt := 0, run := true, ccr := s.cfg.interval, cmpie := true, cmpifg := false
        ticks := 0, seconds := 0, last := 0, gie := true
        hist := s.hist ++ [.hwinit, .ret .clockInit none]
        cpc := s.cpc + 1 }

/-- R110: from the state `CLOCK_INIT` leaves, the first match comes after exactly `INTERVAL` counter steps. -/
def Obligations.FirstMatchAfterOneInterval : Prop :=
  ∀ (n : Nat) (s t : State), s.cfg.valid = true → s.inIsr = false → s.fgs = .idle →
    exec .clockInit s = .next t → n ≤ s.cfg.interval →
    ∃ u, runAs (List.replicate n .tmr) t = .next u ∧ u.hwcnt = n ∧ (u.cmpifg = true ↔ n = s.cfg.interval)

/-- R113: until `CLOCK_INIT` runs, the interrupt stays disabled, the handler stays out and `SECONDS` stays; `TICKS`
changes only by `REBASE`, and a stopped counter only by `REBASE`. -/
def Obligations.NothingTicksBeforeClockInit : Prop :=
  ∀ s t : State, s.Wf → step s = .next t → s.cmpie = false → s.inIsr = false → s.instrOf s.choice ≠ .next .clockInit →
    t.cmpie = false ∧ t.inIsr = false ∧ t.seconds = s.seconds
      ∧ ((∀ v h, s.instrOf s.choice ≠ .next (.rebase v h)) →
          t.ticks = s.ticks ∧ (s.run = false → t.hwcnt = s.hwcnt))

/-! ### Counter and host -/

/-- R121, R122: the counter counts one unit and wraps; a match is the new value's equality with `CCR`, whatever the enables
are; a stopped counter has no step, which is the model's stuck fault (log entry 9). -/
def Obligations.CounterCountsAndMatches : Prop :=
  ∀ s : State,
    (s.run = true →
      exec .tmrCount s = .next
        { s with
          hwcnt := (s.hwcnt + 1) % 2 ^ s.cfg.wHw
          cmpifg := s.cmpifg || decide ((s.hwcnt + 1) % 2 ^ s.cfg.wHw = s.ccr) })
    ∧ (s.run = false → exec .tmrCount s = .fault .counterStopped)

/-- R122: the pending flag is set only by a counter step into equality with `CCR`, and cleared only by `ISR_ENTRY` and
`CLOCK_INIT`. -/
def Obligations.PendingFlagWriters : Prop :=
  ∀ (i : Instr) (s t : State), exec i s = .next t →
    (s.cmpifg = false → t.cmpifg = true → i = .tmrCount ∧ t.hwcnt = s.ccr ∧ t.ccr = s.ccr)
    ∧ (s.cmpifg = true → t.cmpifg = false → i = .isrEntry ∨ i = .clockInit)

/-- R123: the host stops and starts the counter in any state, and nothing else changes. -/
def Obligations.HostStopsAndStartsTheCounter : Prop :=
  ∀ s : State, exec .hostStop s = .next { s with run := false } ∧ exec .hostStart s = .next { s with run := true }

/-! ### The handler -/

/-- R124, R203, R205: with all four enables the handler is entered; with any of them missing there is no step, which is the
model's stuck fault (log entry 9). -/
def Obligations.EntryNeedsAllFourEnables : Prop :=
  ∀ s : State,
    (s.cmpifg = true → s.cmpie = true → s.gie = true → s.inIsr = false →
      exec .isrEntry s = .next
        { s with
          inIsr := true, cmpifg := false, iph := .rearm
          hist := s.hist ++ [.energestOn, .wdtStart] })
    ∧ ((s.cmpifg = false ∨ s.cmpie = false ∨ s.gie = false ∨ s.inIsr = true) →
        exec .isrEntry s = .fault .entryNotEnabled)

/-- R126, R127: one deadline is counted; a second is counted and the flush emitted exactly when the new `TICKS` is a
multiple of `TPS`. -/
def Obligations.RearmCountsOneDeadline : Prop :=
  ∀ s : State, s.cfg.valid = true → s.iph = .rearm →
    exec .isrRearm s = .next
      { s with
        ccr := (s.ccr + s.cfg.interval) % 2 ^ s.cfg.wHw
        ticks := (s.ticks + 1) % 2 ^ s.cfg.wTick
        seconds :=
          if (s.ticks + 1) % 2 ^ s.cfg.wTick % s.cfg.tps = 0 then (s.seconds + 1) % 2 ^ s.cfg.wSec else s.seconds
        hist :=
          if (s.ticks + 1) % 2 ^ s.cfg.wTick % s.cfg.tps = 0 then s.hist ++ [.energestFlush] else s.hist
        iph := .test }

/-- R128: the test reads the counter and goes on to the snapshot exactly when the deadline is 1 to `INTERVAL` units ahead,
as integers modulo `2^W_HW`. -/
def Obligations.TestStopsWhenDeadlineIsAhead : Prop :=
  ∀ s : State, s.Wf → s.iph = .test →
    ∃ d : Int, d = ((s.ccr : Int) - s.hwcnt) % (2 ^ s.cfg.wHw : Nat)
      ∧ exec .isrTest s = .next
        { s with ih := s.hwcnt, iph := if d = 0 ∨ d > s.cfg.interval then .rearm else .snap }

/-- R129: the snapshot is a fresh read of the live counter. -/
def Obligations.SnapshotTakesTheLiveCounter : Prop :=
  ∀ s : State, s.iph = .snap → exec .isrSnapshot s = .next { s with last := s.hwcnt, iph := .check }

/-- R131: the event check for each answer of the scheduler: nothing pending, or an expiration tick, which is due when it
is less than half the range behind `TICKS`. A supplied answer is used up; otherwise the answer is the free value, whatever
it is (log entry 8; `it` is kept when nothing is pending, log entry 24). -/
def Obligations.EventCheckSignalsADueEvent : Prop :=
  ∀ s : State, s.iph = .check →
    (∀ rest, s.answers = none :: rest →
      exec .isrEventcheck s = .next
        { s with ip := false, hist := s.hist ++ [.schedPendingQ false], iph := .exit, answers := rest })
    ∧ (∀ x rest, s.answers = some x :: rest →
        exec .isrEventcheck s = .next
          { s with
            ip := true, it := x % 2 ^ s.cfg.wTick, iph := .exit, answers := rest
            hist := s.hist ++ [.schedPendingQ true, .schedNextQ (x % 2 ^ s.cfg.wTick)]
              ++ (if ((s.ticks : Int) - (x % 2 ^ s.cfg.wTick : Nat)) % (2 ^ s.cfg.wTick : Nat) < (2 ^ (s.cfg.wTick - 1) : Nat)
                then [.pollReq, .lpmExitReq] else []) })
    ∧ (s.answers = [] →
        exec .isrEventcheck s = exec .isrEventcheck { s with answers := [Config.freeAnswer s.draws], draws := s.draws + 1 })
    ∧ ∃ t, exec .isrEventcheck s = .next t

/-- R130, R251: the half-range test answers whether the target has been reached, for every target at most
`HALF_T - 1` ticks behind and at most `HALF_T` ahead; up to a wrap further back a target reads as not due, and up to a
wrap further ahead as due. -/
def Obligations.DueTestIsRightWithinHalfTheRange : Prop :=
  ∀ (c : Config) (tgt now : Nat), c.valid = true →
    (now < tgt + 2 ^ (c.wTick - 1) → tgt ≤ now + 2 ^ (c.wTick - 1) →
      (due c (tgt % 2 ^ c.wTick) (now % 2 ^ c.wTick) = true ↔ tgt ≤ now))
    ∧ (now < tgt + 2 ^ c.wTick → tgt + 2 ^ (c.wTick - 1) ≤ now →
        due c (tgt % 2 ^ c.wTick) (now % 2 ^ c.wTick) = false)
    ∧ (now + 2 ^ (c.wTick - 1) < tgt → tgt ≤ now + 2 ^ c.wTick →
        due c (tgt % 2 ^ c.wTick) (now % 2 ^ c.wTick) = true)

/-- R132, R206: the return clears `IN_ISR` and `IPH` and touches neither `CMPIFG`, `GIE` nor the foreground. -/
def Obligations.ExitReturnsToTheForeground : Prop :=
  ∀ s : State, s.iph = .exit →
    exec .isrExit s = .next
      { s with inIsr := false, iph := .none, hist := s.hist ++ [.wdtStop, .energestOff] }

/-- R125: a handler micro-step that `IPH` does not name has no transition, which is the model's stuck fault (log
entry 9). -/
def Obligations.HandlerStepsFollowThePhase : Prop :=
  ∀ s : State,
    (s.iph ≠ .rearm → exec .isrRearm s = .fault .phaseNotNamed)
    ∧ (s.iph ≠ .test → exec .isrTest s = .fault .phaseNotNamed)
    ∧ (s.iph ≠ .snap → exec .isrSnapshot s = .fault .phaseNotNamed)
    ∧ (s.iph ≠ .check → exec .isrEventcheck s = .fault .phaseNotNamed)
    ∧ (s.iph ≠ .exit → exec .isrExit s = .fault .phaseNotNamed)

/-- R134: an invocation that runs with no other step inside it. From the first rearm, with the counter `h` at or past the
deadline `D` by less than a whole wrap (both unwrapped), `k = (h - D) / INTERVAL + 1` rearms and tests run, and leave the
first deadline strictly after `h`. -/
def Obligations.CatchUpCountsEveryPassedDeadline : Prop :=
  ∀ (s : State) (D h : Nat), s.Wf → s.iph = .rearm →
    s.ccr = D % 2 ^ s.cfg.wHw → s.hwcnt = h % 2 ^ s.cfg.wHw → D ≤ h → h < D + 2 ^ s.cfg.wHw →
    ∃ k t, k = (h - D) / s.cfg.interval + 1
      ∧ runAs (List.replicate (2 * k) .isr) s = .next t
      ∧ t.iph = .snap ∧ t.hwcnt = s.hwcnt
      ∧ t.ticks = (s.ticks + k) % 2 ^ s.cfg.wTick
      ∧ t.ccr = (D + k * s.cfg.interval) % 2 ^ s.cfg.wHw

/-- R134, R120, R247: the same count when counter and host steps fall anywhere between the handler's, in any number that
keeps the lag below `2^W_HW - INTERVAL` at every test. `sch` is what happens from the first rearm to the test that chooses the
snapshot, `pre` what happens before a test, and the deadline is compared with the counter `h_k` of the last test. `CCR` is left
at the first deadline strictly after it. -/
def Obligations.CatchUpCountsUnderInterleaving : Prop :=
  ∀ (s t : State) (D h : Nat) (sch : List Choice), s.Wf → s.iph = .rearm →
    s.ccr = D % 2 ^ s.cfg.wHw → s.hwcnt = h % 2 ^ s.cfg.wHw → D ≤ h →
    runAs sch s = .next t → t.iph = .snap →
    (∀ pre u, pre <+: sch → pre ≠ sch → runAs pre s = .next u → u.iph ≠ .snap) →
    (∀ pre u, pre ++ [.isr] <+: sch → runAs pre s = .next u → u.iph = .test →
      h + pre.count .tmr + s.cfg.interval < D + (pre.count .isr + 1) / 2 * s.cfg.interval + 2 ^ s.cfg.wHw) →
    ∃ k, k = (h + sch.count .tmr - D) / s.cfg.interval + 1
      ∧ sch.count .isr = 2 * k
      ∧ t.ticks = (s.ticks + k) % 2 ^ s.cfg.wTick
      ∧ t.ccr = (D + k * s.cfg.interval) % 2 ^ s.cfg.wHw
      ∧ D + (k - 1) * s.cfg.interval ≤ h + sch.count .tmr
      ∧ h + sch.count .tmr < D + k * s.cfg.interval

/-- R245: an entry with a stale flag, the deadline 1 to `INTERVAL` ahead, over-counts a whole wrap: when `INTERVAL` divides
`2^W_HW`, `2^W_HW / INTERVAL` ticks are counted and `CCR` ends where it began. -/
def Obligations.StaleEntryOvercountsOneWrap : Prop :=
  ∀ s : State, s.Wf → s.iph = .rearm → s.cfg.interval ∣ 2 ^ s.cfg.wHw → s.deadlineAhead →
    ∃ t, runAs (List.replicate (2 * (2 ^ s.cfg.wHw / s.cfg.interval)) .isr) s = .next t
      ∧ t.iph = .snap ∧ t.ccr = s.ccr
      ∧ t.ticks = (s.ticks + 2 ^ s.cfg.wHw / s.cfg.interval) % 2 ^ s.cfg.wTick

/-- R136, R135: between two bases, `TICKS` and `CCR` change only by `ISR_REARM`, and then by exactly one tick and one
interval. -/
def Obligations.TicksAndDeadlineMoveTogether : Prop :=
  ∀ (i : Instr) (s t : State), exec i s = .next t → i ≠ .clockInit → (∀ v h, i ≠ .rebase v h) →
    (i = .isrRearm → t.ticks = (s.ticks + 1) % 2 ^ s.cfg.wTick
      ∧ t.ccr = (s.ccr + s.cfg.interval) % 2 ^ s.cfg.wHw)
    ∧ (i ≠ .isrRearm → t.ticks = s.ticks ∧ t.ccr = s.ccr)

/-- R137: over `N` consecutive rearms `SECONDS` grows by the number of multiples of `TPS` among the ticks counted, which is
`N / TPS` when `TPS` divides `N`. -/
def Obligations.SecondsCountMultiplesOfTicksPerSecond : Prop :=
  ∀ (n : Nat) (s : State), s.Wf →
    ∃ t, rearmTimes n s = .next t
      ∧ t.ticks = (s.ticks + n) % 2 ^ s.cfg.wTick
      ∧ t.seconds = (s.seconds + ((List.range n).filter
          fun j => (s.ticks + (j + 1)) % 2 ^ s.cfg.wTick % s.cfg.tps == 0).length) % 2 ^ s.cfg.wSec
      ∧ (s.cfg.tps ∣ n → t.seconds = (s.seconds + n / s.cfg.tps) % 2 ^ s.cfg.wSec)

/-! ### Who writes what -/

/-- R38: the writer table, for every register: no instruction outside the table's row changes it. -/
def Obligations.RegistersHaveOnlyTheirWriters : Prop :=
  ∀ (i : Instr) (s t : State), s.cfg.valid = true → exec i s = .next t →
    (t.ticks ≠ s.ticks → i = .isrRearm ∨ i = .clockInit ∨ ∃ v h, i = .rebase v h)
    ∧ (t.seconds ≠ s.seconds → i = .isrRearm ∨ i = .clockInit)
    ∧ (t.hwcnt ≠ s.hwcnt → i = .tmrCount ∨ i = .clockInit ∨ ∃ v h, i = .rebase v h)
    ∧ (t.ccr ≠ s.ccr → i = .isrRearm ∨ i = .clockInit ∨ ∃ v h, i = .rebase v h)
    ∧ (t.last ≠ s.last → i = .isrSnapshot ∨ i = .clockInit)
    ∧ (t.cmpie ≠ s.cmpie → i = .clockInit)
    ∧ (t.run ≠ s.run → i = .clockInit ∨ i = .hostStop ∨ i = .hostStart)
    ∧ (t.inIsr ≠ s.inIsr → i = .isrEntry ∨ i = .isrExit)
    ∧ (t.ih ≠ s.ih → i = .isrTest)
    ∧ (t.ip ≠ s.ip ∨ t.it ≠ s.it → i = .isrEventcheck)
    ∧ (t.iph ≠ s.iph → i.issuable = false ∧ i ≠ .tmrCount ∧ i ≠ .hostStop ∧ i ≠ .hostStart)

/-- R35, R72: no step of any agent writes the configuration or the command stream. -/
def Obligations.ConfigurationAndStreamNeverChange : Prop :=
  ∀ s t : State, step s = .next t → t.cfg = s.cfg ∧ t.prog = s.prog

/-- R33: the event history only grows. -/
def Obligations.HistoryOnlyGrows : Prop :=
  ∀ s t : State, step s = .next t → s.hist <+: t.hist

/-- R209, R125, R205: the handler context is entered only by `ISR_ENTRY` and left only by `ISR_EXIT`; inside it no
foreground operation has a step (the model's stuck fault, log entry 9), and no step of any agent touches `FGS` or `cpc`. -/
def Obligations.HandlerContextHoldsTheForeground : Prop :=
  (∀ (i : Instr) (s t : State), exec i s = .next t →
    (s.inIsr = false → t.inIsr = true → i = .isrEntry) ∧ (s.inIsr = true → t.inIsr = false → i = .isrExit)
      ∧ (s.inIsr = true → t.fgs = s.fgs ∧ t.cpc = s.cpc))
  ∧ ∀ (i : Instr) (s : State), s.inIsr = true → i.issuable = true → exec i s = .fault .foregroundHeld

/-! ### The read synchronizer and the readers -/

/-- R160 to R163: one word read of `CURRENT_TICKS` from a state in progress (the first one starts from no sample): it goes
on with the word read; or, at the end of a sample, ends when the sample equals the one before it and slides otherwise. -/
def Obligations.CurrentTicksReadsOneWordAStep : Prop :=
  ∀ (s : State) (a : Option Nat) (w : List Nat), s.cfg.valid = true → s.inIsr = false →
    ((s.fgs = .idle ∧ a = none ∧ w = []) ∨ s.fgs = .busy .currentTicks (.sample a w)) → w.length < s.cfg.kT →
    ∃ j x, (s.cfg.order s.cfg.kT)[w.length]? = some j
      ∧ x = s.ticks / 2 ^ (j * s.cfg.wWord) % 2 ^ s.cfg.wWord
      ∧ (w.length + 1 < s.cfg.kT →
          exec .currentTicks s = .next { s with fgs := .busy .currentTicks (.sample a (w ++ [x])) })
      ∧ (w.length + 1 = s.cfg.kT → ∀ v, v = sampleValue s.cfg s.cfg.kT s.cfg.wTick (w ++ [x]) →
          (a = some v → exec .currentTicks s = .next
            { s with fgs := .idle, cpc := s.cpc + 1, hist := s.hist ++ [.ret .currentTicks (some v)] })
          ∧ (a ≠ some v → exec .currentTicks s = .next
            { s with fgs := .busy .currentTicks (.sample (some v) []) }))

/-- R163: the same for `CURRENT_SECONDS` over the words of `SECONDS`. -/
def Obligations.CurrentSecondsReadsOneWordAStep : Prop :=
  ∀ (s : State) (a : Option Nat) (w : List Nat), s.cfg.valid = true → s.inIsr = false →
    ((s.fgs = .idle ∧ a = none ∧ w = []) ∨ s.fgs = .busy .currentSeconds (.sample a w)) → w.length < s.cfg.kS →
    ∃ j x, (s.cfg.order s.cfg.kS)[w.length]? = some j
      ∧ x = s.seconds / 2 ^ (j * s.cfg.wWord) % 2 ^ s.cfg.wWord
      ∧ (w.length + 1 < s.cfg.kS →
          exec .currentSeconds s = .next { s with fgs := .busy .currentSeconds (.sample a (w ++ [x])) })
      ∧ (w.length + 1 = s.cfg.kS → ∀ v, v = sampleValue s.cfg s.cfg.kS s.cfg.wSec (w ++ [x]) →
          (a = some v → exec .currentSeconds s = .next
            { s with fgs := .idle, cpc := s.cpc + 1, hist := s.hist ++ [.ret .currentSeconds (some v)] })
          ∧ (a ≠ some v → exec .currentSeconds s = .next
            { s with fgs := .busy .currentSeconds (.sample (some v) []) }))

/-- R162, R163, R165, R257: with no other step in between, `CURRENT_TICKS` takes exactly `2 * K_T` word reads and returns
`TICKS`, and `CURRENT_SECONDS` takes `2 * K_S` and returns `SECONDS`; nothing else changes. -/
def Obligations.QuietReadsReturnTheCounter : Prop :=
  ∀ s : State, s.Wf → s.inIsr = false → s.fgs = .idle →
    (decode s.cfg s.prog s.cpc = .op .currentTicks →
      runAs (List.replicate (2 * s.cfg.kT) .fg) s = .next
        { s with cpc := s.cpc + 1, hist := s.hist ++ [.ret .currentTicks (some s.ticks)] })
    ∧ (decode s.cfg s.prog s.cpc = .op .currentSeconds →
      runAs (List.replicate (2 * s.cfg.kS) .fg) s = .next
        { s with cpc := s.cpc + 1, hist := s.hist ++ [.ret .currentSeconds (some s.seconds)] })

/-- R165, R257: inside a critical section the counter and the host may step anywhere, and still both reads end after
exactly `2 * K` word reads with the register's value. -/
def Obligations.MaskedReadsAreExact : Prop :=
  ∀ (s t : State) (sch : List Choice), s.Wf → s.inIsr = false → s.gie = false → s.fgs = .idle →
    runAs sch s = .next t →
    (decode s.cfg s.prog s.cpc = .op .currentTicks → sch.count .fg = 2 * s.cfg.kT →
      t.hist = s.hist ++ [.ret .currentTicks (some s.ticks)] ∧ t.cpc = s.cpc + 1 ∧ t.fgs = .idle)
    ∧ (decode s.cfg s.prog s.cpc = .op .currentSeconds → sch.count .fg = 2 * s.cfg.kS →
      t.hist = s.hist ++ [.ret .currentSeconds (some s.seconds)] ∧ t.cpc = s.cpc + 1 ∧ t.fgs = .idle)

/-- R164: whatever the handler did before, a `ReadSync` whose register changes at most once over its last two samples
(`2 * K` word reads) gives a value that the register held at one of those reads. So it is with the result of `CURRENT_TICKS`
over `TICKS` and of `CURRENT_SECONDS` over `SECONDS`, with the `start` of a `WAIT`, and with each `now` of its loop, on which
the wait ends or goes on. -/
def Obligations.SynchronizerReturnsAHeldValue : Prop :=
  ∀ (s t : State) (v : Nat → Nat) (n : Nat), s.Wf → s.inIsr = false →
    (s.fgs = .idle → (∀ i, v i < 2 ^ s.cfg.wTick) → ChangesOnce v (2 * s.cfg.kT) n →
      FirstReaches (fun m => readDuring .currentTicks (fun i u => { u with ticks := v i }) m s)
        (fun u => u.fgs = .idle) n t →
      ∃ i, n ≤ i + 2 * s.cfg.kT ∧ i < n ∧ t.hist = s.hist ++ [.ret .currentTicks (some (v i))])
    ∧ (s.fgs = .idle → (∀ i, v i < 2 ^ s.cfg.wSec) → ChangesOnce v (2 * s.cfg.kS) n →
      FirstReaches (fun m => readDuring .currentSeconds (fun i u => { u with seconds := v i }) m s)
        (fun u => u.fgs = .idle) n t →
      ∃ i, n ≤ i + 2 * s.cfg.kS ∧ i < n ∧ t.hist = s.hist ++ [.ret .currentSeconds (some (v i))])
    ∧ (∀ k, s.fgs = .idle → (∀ i, v i < 2 ^ s.cfg.wTick) → ChangesOnce v (2 * s.cfg.kT) n →
      FirstReaches (fun m => readDuring (.wait k) (fun i u => { u with ticks := v i }) m s)
        (fun u => ∃ start, u.fgs = .busy (.wait k) (.waitNow start none [])) n t →
      ∃ i, n ≤ i + 2 * s.cfg.kT ∧ i < n ∧ t.fgs = .busy (.wait k) (.waitNow (v i) none []) ∧ t.hist = s.hist)
    ∧ ∀ k start, s.fgs = .busy (.wait k) (.waitNow start none []) → (∀ i, v i < 2 ^ s.cfg.wTick) →
      ChangesOnce v (2 * s.cfg.kT) n →
      FirstReaches (fun m => readDuring (.wait k) (fun i u => { u with ticks := v i }) m s)
        (fun u => u.fgs = .idle ∨ u.fgs = .busy (.wait k) (.waitNow start none [])) n t →
      ∃ i, n ≤ i + 2 * s.cfg.kT ∧ i < n
        ∧ ((k : Int) ≤ ((v i : Int) - start) % (2 ^ s.cfg.wTick : Nat) →
            t.fgs = .idle ∧ t.hist = s.hist ++ [.ret .wait none])
        ∧ (((v i : Int) - start) % (2 ^ s.cfg.wTick : Nat) < k →
            t.fgs = .busy (.wait k) (.waitNow start none []) ∧ t.hist = s.hist)

/-- R166: `LAST` is read first, then the live counter; the result is their difference as integers modulo `2^W_HW`. -/
def Obligations.FineTicksSubtractsTheSnapshot : Prop :=
  ∀ s : State, s.inIsr = false →
    (s.fgs = .idle → exec .fineTicks s = .next { s with fgs := .busy .fineTicks (.fineHwcnt s.last) })
    ∧ (∀ v, s.fgs = .busy .fineTicks (.fineHwcnt v) →
        ∃ d : Nat, (d : Int) = ((s.hwcnt : Int) - v) % (2 ^ s.cfg.wHw : Nat)
          ∧ exec .fineTicks s = .next
            { s with fgs := .idle, cpc := s.cpc + 1, hist := s.hist ++ [.ret .fineTicks (some d)] })

/-- R167: with no snapshot in between, `FINE_TICKS` returns the number of counter steps since the last snapshot. -/
def Obligations.FineTicksCountsSinceTheSnapshot : Prop :=
  ∀ (s : State) (j m : Nat), s.Wf → s.inIsr = false → s.fgs = .idle → s.run = true →
    decode s.cfg s.prog s.cpc = .op .fineTicks → s.last = s.hwcnt → j + m < 2 ^ s.cfg.wHw →
    ∃ t, runAs (List.replicate j .tmr ++ [.fg] ++ List.replicate m .tmr ++ [.fg]) s = .next t
      ∧ t.hist = s.hist ++ [.ret .fineTicks (some (j + m))] ∧ t.cpc = s.cpc + 1 ∧ t.fgs = .idle

/-- R168: `FINE_MAX` returns the configured interval, whatever the state. -/
def Obligations.FineMaxReturnsTheInterval : Prop :=
  ∀ s : State, s.inIsr = false → s.fgs = .idle →
    exec .fineMax s = .next
      { s with cpc := s.cpc + 1, hist := s.hist ++ [.ret .fineMax (some s.cfg.interval)] }

/-- R169: one word read of `WAIT n`: first for `start`, then for each `now`, the wait ending at the first `now` with
`now - start` at least `n`. -/
def Obligations.WaitReadsOneWordAStep : Prop :=
  ∀ (n : Nat) (s : State) (a : Option Nat) (w : List Nat), s.cfg.valid = true → s.inIsr = false →
    w.length < s.cfg.kT →
    ∃ j x, (s.cfg.order s.cfg.kT)[w.length]? = some j
      ∧ x = s.ticks / 2 ^ (j * s.cfg.wWord) % 2 ^ s.cfg.wWord
      ∧ (((s.fgs = .idle ∧ a = none ∧ w = []) ∨ s.fgs = .busy (.wait n) (.waitStart a w)) →
          (w.length + 1 < s.cfg.kT →
            exec (.wait n) s = .next { s with fgs := .busy (.wait n) (.waitStart a (w ++ [x])) })
          ∧ (w.length + 1 = s.cfg.kT → ∀ v, v = sampleValue s.cfg s.cfg.kT s.cfg.wTick (w ++ [x]) →
              (a = some v → exec (.wait n) s = .next { s with fgs := .busy (.wait n) (.waitNow v none []) })
              ∧ (a ≠ some v → exec (.wait n) s = .next { s with fgs := .busy (.wait n) (.waitStart (some v) []) })))
      ∧ (∀ start, s.fgs = .busy (.wait n) (.waitNow start a w) →
          (w.length + 1 < s.cfg.kT →
            exec (.wait n) s = .next { s with fgs := .busy (.wait n) (.waitNow start a (w ++ [x])) })
          ∧ (w.length + 1 = s.cfg.kT → ∀ v, v = sampleValue s.cfg s.cfg.kT s.cfg.wTick (w ++ [x]) →
              (a = some v → (n : Int) ≤ ((v : Int) - start) % (2 ^ s.cfg.wTick : Nat) →
                exec (.wait n) s = .next
                  { s with
                    fgs := .idle
                    cpc := s.cpc + (1 + (s.cfg.wTick + 15) / 16)
                    hist := s.hist ++ [.ret .wait none] })
              ∧ (a = some v → ((v : Int) - start) % (2 ^ s.cfg.wTick : Nat) < n →
                exec (.wait n) s = .next { s with fgs := .busy (.wait n) (.waitNow start none []) })
              ∧ (a ≠ some v →
                exec (.wait n) s = .next { s with fgs := .busy (.wait n) (.waitNow start (some v) []) })))

/-- R169: `WAIT 0` returns after its first `now`: two `ReadSync` calls, `4 * K_T` word reads when no handler step comes
between. -/
def Obligations.WaitZeroReturnsAtOnce : Prop :=
  ∀ s : State, s.Wf → s.inIsr = false → s.fgs = .idle → decode s.cfg s.prog s.cpc = .op (.wait 0) →
    runAs (List.replicate (4 * s.cfg.kT) .fg) s = .next
      { s with cpc := s.cpc + (1 + (s.cfg.wTick + 15) / 16), hist := s.hist ++ [.ret .wait none] }

/-- R170: `WAIT n` returns only when the `now` sample of that step has `now - start` at least `n`. -/
def Obligations.WaitReturnsOnlyWhenElapsed : Prop :=
  ∀ (n : Nat) (s t : State), exec (.wait n) s = .next t → t.fgs = .idle →
    ∃ start now w, s.fgs = .busy (.wait n) (.waitNow start (some now) w)
      ∧ (n : Int) ≤ ((now : Int) - start) % (2 ^ s.cfg.wTick : Nat)
      ∧ t.hist = s.hist ++ [.ret .wait none]

/-- R248: a `WAIT n`, `n >= 1`, begun with interrupts masked or the compare interrupt never enabled hangs, and so does one
begun with the counter stopped, if no match is pending and the host does not start the counter again: whatever schedule the
agents follow, it emits nothing, `TICKS` stands still and `cpc` does not move. -/
def Obligations.MaskedWaitNeverReturns : Prop :=
  ∀ (n : Nat) (s t : State) (sch : List Choice), s.Wf → s.inIsr = false →
    (s.gie = false ∨ s.cmpie = false ∨ (s.run = false ∧ s.cmpifg = false ∧ .hostStart ∉ sch)) →
    s.fgs = .idle → decode s.cfg s.prog s.cpc = .op (.wait n) → 1 ≤ n →
    runAs sch s = .next t →
    t.ticks = s.ticks ∧ t.hist = s.hist ∧ t.cpc = s.cpc
      ∧ (t.fgs = .idle ∨ ∃ lbl, t.fgs = .busy (.wait n) lbl)

/-! ### Rebase and set_seconds -/

/-- R190: the micro-steps of `REBASE`, in the document's order: the counter, the deadline from the operand, and the words of
`TICKS` in `order(K_T)`, the last of which ends the operation. -/
def Obligations.RebaseWritesOneWordAStep : Prop :=
  ∀ (v h : Nat) (s : State), s.cfg.valid = true → s.inIsr = false →
    (s.fgs = .idle →
      exec (.rebase v h) s = .next
        { s with hwcnt := h % 2 ^ s.cfg.wHw, fgs := .busy (.rebase v h) .rebaseCcr })
    ∧ (s.fgs = .busy (.rebase v h) .rebaseCcr →
      exec (.rebase v h) s = .next
        { s with ccr := (h + s.cfg.interval) % 2 ^ s.cfg.wHw, fgs := .busy (.rebase v h) (.rebaseTicks 0) })
    ∧ (∀ k, k < s.cfg.kT → s.fgs = .busy (.rebase v h) (.rebaseTicks k) →
      ∃ j x, (s.cfg.order s.cfg.kT)[k]? = some j
        ∧ x = setWordAt s.cfg.wWord s.cfg.wTick s.ticks j (v / 2 ^ (j * s.cfg.wWord) % 2 ^ s.cfg.wWord)
        ∧ (k + 1 < s.cfg.kT →
            exec (.rebase v h) s = .next
              { s with ticks := x, fgs := .busy (.rebase v h) (.rebaseTicks (k + 1)) })
        ∧ (k + 1 = s.cfg.kT →
            exec (.rebase v h) s = .next
              { s with
                ticks := x, fgs := .idle
                cpc := s.cpc + (1 + (s.cfg.wTick + 15) / 16 + (s.cfg.wHw + 15) / 16)
                hist := s.hist ++ [.ret .rebase none] }))

/-- R190, R191: a `REBASE` with no other step inside it takes `2 + K_T` foreground steps and leaves exactly the new time
base. -/
def Obligations.UninterruptedRebaseSetsTheTimeBase : Prop :=
  ∀ (v h : Nat) (s : State), s.Wf → s.inIsr = false → s.fgs = .idle →
    decode s.cfg s.prog s.cpc = .op (.rebase v h) →
    runAs (List.replicate (2 + s.cfg.kT) .fg) s = .next
      { s with
        hwcnt := h, ccr := (h + s.cfg.interval) % 2 ^ s.cfg.wHw, ticks := v
        cpc := s.cpc + (1 + (s.cfg.wTick + 15) / 16 + (s.cfg.wHw + 15) / 16)
        hist := s.hist ++ [.ret .rebase none] }

/-- R191: a `REBASE` begun with `GIE = 0` or `CMPIE = 0` has no handler step inside it, whatever the counter and the host
do: `TICKS` and `CCR` get their new values, `SECONDS` and `LAST` stay. -/
def Obligations.SerializedRebaseIsNotDisturbed : Prop :=
  ∀ (v h : Nat) (s t : State) (sch : List Choice), s.Wf → s.inIsr = false → (s.gie = false ∨ s.cmpie = false) →
    s.fgs = .idle → decode s.cfg s.prog s.cpc = .op (.rebase v h) →
    runAs sch s = .next t → sch.count .fg = 2 + s.cfg.kT →
    t.ticks = v ∧ t.ccr = (h + s.cfg.interval) % 2 ^ s.cfg.wHw ∧ t.seconds = s.seconds ∧ t.last = s.last
      ∧ t.gie = s.gie ∧ t.cmpie = s.cmpie ∧ t.fgs = .idle ∧ t.hist = s.hist ++ [.ret .rebase none]

/-- R192: `SET_SECONDS` is accepted and changes no register, whatever its operand. -/
def Obligations.SetSecondsDoesNothing : Prop :=
  ∀ (v : Nat) (s : State), s.inIsr = false → s.fgs = .idle →
    exec (.setSeconds v) s = .next
      { s with
        cpc := s.cpc + (1 + (s.cfg.wSec + 15) / 16), hist := s.hist ++ [.ret .setSeconds none] }

/-! ### The register word view -/

/-- R40, R42, R43: what each word of the view holds; the two status words bit by bit; above 0x17 there is no word. -/
def Obligations.WordViewHoldsTheRegisters : Prop :=
  ∀ s : State, s.cfg.valid = true →
    s.memRead 0x00 = some (if s.gie then 1 else 0)
    ∧ (∃ x, s.memRead 0x01 = some x ∧ x < 16 ∧ x.testBit 0 = s.run ∧ x.testBit 1 = s.cmpie
        ∧ x.testBit 2 = s.cmpifg ∧ x.testBit 3 = s.inIsr)
    ∧ s.memRead 0x02 = some s.hwcnt ∧ s.memRead 0x03 = some s.ccr ∧ s.memRead 0x04 = some s.last
    ∧ s.memRead 0x05 = some s.cfg.interval
    ∧ (∃ n, s.memRead 0x06 = some n ∧ 2 ^ n = s.cfg.tps)
    ∧ s.memRead 0x07 = some 0
    ∧ (∀ j, j < 8 → s.memRead (0x08 + j) =
        some (if j < s.cfg.kT then s.ticks / 2 ^ (j * s.cfg.wWord) % 2 ^ s.cfg.wWord else 0))
    ∧ (∀ j, j < 8 → s.memRead (0x10 + j) =
        some (if j < s.cfg.kS then s.seconds / 2 ^ (j * s.cfg.wWord) % 2 ^ s.cfg.wWord else 0))
    ∧ (∀ off, 0x18 ≤ off → s.memRead off = none)

/-- R11, R40, R61: a word write is read back, cut to the bits the register has there, and leaves every other word of the
view; a word no rule writes is refused, and a word that is not present has no access (the refusal and the fault are the
model's, log entries 14 and 15). -/
def Obligations.WordWriteIsReadBackAndLocal : Prop :=
  ∀ (s : State) (off x : Nat), s.Wf → x < 2 ^ s.cfg.wWord →
    (∀ t, s.memWrite off x = .next t →
      (∀ off', off' ≠ off → t.memRead off' = s.memRead off')
      ∧ (∃ n, t.memRead off = some (x % 2 ^ n)
          ∧ ((off = 2 ∨ off = 3 ∨ off = 4) → n = s.cfg.wHw)
          ∧ (∀ j, j < 8 → off = 0x08 + j → n = s.cfg.wTick - j * s.cfg.wWord)
          ∧ (∀ j, j < 8 → off = 0x10 + j → n = s.cfg.wSec - j * s.cfg.wWord))
      ∧ t.fgs = s.fgs ∧ t.cpc = s.cpc ∧ t.hist = s.hist ∧ t.gie = s.gie ∧ t.cmpie = s.cmpie ∧ t.cmpifg = s.cmpifg
      ∧ t.run = s.run ∧ t.inIsr = s.inIsr ∧ t.iph = s.iph)
    ∧ ((∃ t, s.memWrite off x = .next t) ↔
        off = 2 ∨ off = 3 ∨ off = 4 ∨ (∃ j, j < s.cfg.kT ∧ off = 0x08 + j) ∨ (∃ j, j < s.cfg.kS ∧ off = 0x10 + j))
    ∧ ((s.memWrite off x = .fault .wordNotPresent) ↔ 0x18 ≤ off)

/-! ### Encoding -/

/-- R93: the spec's examples of words, read in TC16. -/
def Obligations.WrittenWordsDecodeAsTheSpecSays : Prop :=
  decode tc16 [0x0020] 0 = .op .currentTicks
  ∧ decode tc16 [0x0024, 0x012C, 0x0000] 0 = .op (.wait 300)
  ∧ decode tc16 [0x0030, 0x2345, 0x0001, 0x1000] 0 = .op (.rebase 0x00012345 0x1000)
  ∧ decode tc16 [0x0002, 0x0001] 0 = .op (.exitCritical 1)
  ∧ decode tc16 [0x0120] 0 = .refused .reservedBits
  ∧ decode tc16 [0x8001] 0 = .refused .notIssuable
  ∧ decode tc16 [0x0000] 0 = .refused .unassignedOp
  ∧ decode tc16 [0x0024, 0x0001] 0 = .refused .truncated

/-- R83, R84, R85, R87: anywhere in a stream, the words of a well-formed foreground operation decode to it, in every
configuration, and the operation is as long as R84 says. -/
def Obligations.DecodeOfEncodeIsTheOperation : Prop :=
  ∀ (c : Config) (i : Instr) (op : OpName) (before rest : List Word), i.opName = some op → i.wf c = true →
    decode c (before ++ encode c i ++ rest) before.length = .op i
      ∧ (encode c i).length = op.length c

/-- R83, R87: the other way round: where the decoder reads an operation, the operation is well formed and the stream holds
exactly its words, all of them inside the stream. -/
def Obligations.DecodedOperationIsWhatTheStreamHolds : Prop :=
  ∀ (c : Config) (prog : List Word) (cpc : Nat) (i : Instr), decode c prog cpc = .op i →
    i.wf c = true ∧ i.issuable = true
      ∧ (prog.drop cpc).take (encode c i).length = encode c i
      ∧ cpc + (encode c i).length ≤ prog.length

/-- R86, R87, R94: a step label's word names its step and no other, and in a command stream it is refused. -/
def Obligations.StepLabelsAreNamedButNotIssuable : Prop :=
  ∀ i : Instr, i.issuable = false →
    decodeLabel i.opWord = .ok i
    ∧ (∀ w, decodeLabel w = .ok i → w = i.opWord)
    ∧ ∀ (c : Config) (before rest : List Word),
        decode c (before ++ i.opWord :: rest) before.length = .refused .notIssuable

/-- R87, R88: the decoder's refusals in the rule's order: reserved bits first, then a step label's class, then the other
classes, then an unassigned code. -/
def Obligations.DecoderRefusesInOrder : Prop :=
  ∀ (c : Config) (before rest : List Word) (w : Word) (d : Decoded),
    decode c (before ++ w :: rest) before.length = d →
    (w.toNat / 256 % 16 ≠ 0 → d = .refused .reservedBits)
    ∧ (w.toNat / 256 % 16 = 0 → w.toNat / 4096 = 8 → d = .refused .notIssuable)
    ∧ (w.toNat / 256 % 16 = 0 → w.toNat / 4096 ≠ 8 → w.toNat / 4096 ≠ 0 → d = .refused .reservedClass)
    ∧ (w.toNat < 256 → w.toNat ∉ [0x01, 0x02, 0x10, 0x20, 0x21, 0x22, 0x23, 0x24, 0x30, 0x31] →
        d = .refused .unassignedOp)

/-- R87, R88, R83: an operation the stream ends inside is refused as truncated; one with all its operand words, of which
an assembled value does not fit its width, is refused as out of range. -/
def Obligations.TruncatedOrOutOfRangeOperandsAreRefused : Prop :=
  ∀ (c : Config) (i : Instr) (op : OpName) (before rest : List Word) (d : Decoded), i.opName = some op →
    decode c (before ++ i.opWord :: rest) before.length = d →
    (1 + rest.length < op.length c → d = .refused .truncated)
    ∧ (op.length c ≤ 1 + rest.length → ∀ w, op.operandWidths c = [w] →
        2 ^ w ≤ assembleOperand (rest.take ((w + 15) / 16)) → d = .refused .operandRange)
    ∧ (op.length c ≤ 1 + rest.length → op = .rebase →
        (2 ^ c.wTick ≤ assembleOperand (rest.take ((c.wTick + 15) / 16))
          ∨ 2 ^ c.wHw ≤ assembleOperand ((rest.drop ((c.wTick + 15) / 16)).take ((c.wHw + 15) / 16))) →
        d = .refused .operandRange)

/-! ### Invariants of every step -/

/-- R45: whatever agent steps, `IPH = NONE` exactly when `IN_ISR = 0`, every register and working value keeps its width,
and `FGS` does not change while `IN_ISR = 1`. -/
def Obligations.EveryStepKeepsTheStateInvariant : Prop :=
  ∀ s t : State, s.Wf → step s = .next t → t.Wf ∧ (s.inIsr = true → t.fgs = s.fgs)

/-- R31, R32: whatever agent steps, `cpc` stays within the stream, and an operation in progress is the one at `cpc`; `cpc`
never moves back. -/
def Obligations.EveryStepKeepsTheSequence : Prop :=
  ∀ s t : State, s.Sequenced → step s = .next t → t.Sequenced ∧ s.cpc ≤ t.cpc
end

