-- ==== Sys2Proof/Laws/Arith.lean ====
section
/-! SUPPORT. What the narrowed arithmetic of R10 and the word operations of R11 compute. -/

namespace Sys2Proof

theorem narrow_lt (n x : Nat) : narrow n x < 2 ^ n := Nat.mod_lt _ (Nat.two_pow_pos n)

theorem narrow_of_lt {n x : Nat} (h : x < 2 ^ n) : narrow n x = x := Nat.mod_eq_of_lt h

@[simp] theorem narrow_narrow (n x : Nat) : narrow n (narrow n x) = narrow n x := narrow_of_lt (narrow_lt n x)

theorem addW_lt (n a b : Nat) : addW n a b < 2 ^ n := narrow_lt _ _

theorem subW_lt (n a b : Nat) : subW n a b < 2 ^ n := narrow_lt _ _

/-- `-_N` is the integer difference modulo `2^N`, as R10 says it. -/
theorem subW_eq_int (n a b : Nat) : ((subW n a b : Nat) : Int) = ((a : Int) - b) % (2 ^ n : Nat) := by
  unfold subW narrow
  have hb : b % 2 ^ n < 2 ^ n := Nat.mod_lt _ (Nat.two_pow_pos n)
  generalize 2 ^ n = m at *
  rw [Int.natCast_mod]
  have h1 : ((a + (m - b % m) : Nat) : Int) = (a : Int) - b + (m : Int) * (1 + (b : Int) / m) := by
    have h2 := Nat.mod_add_div b m
    have h3 : ((b % m : Nat) : Int) + m * ((b / m : Nat) : Int) = b := by exact_mod_cast h2
    rw [Nat.cast_add, Nat.cast_sub hb.le]
    push_cast at h3 ⊢
    linarith
  rw [h1, Int.add_mul_emod_self_left]

theorem subW_self (n a : Nat) : subW n a a = 0 := by
  have h := subW_eq_int n a a
  rw [sub_self, Int.zero_emod] at h
  exact_mod_cast h

/-- Adding and then taking away gives back a value of the width. -/
theorem subW_addW_cancel {n d : Nat} (a : Nat) (h : d < 2 ^ n) : subW n (addW n a d) a = d := by
  have h1 := subW_eq_int n (addW n a d) a
  unfold addW narrow at h1 ⊢
  rw [Int.natCast_mod, Int.emod_sub_emod] at h1
  rw [show ((a + d : Nat) : Int) - (a : Int) = (d : Int) by push_cast; ring] at h1
  rw [Int.emod_eq_of_lt (by positivity) (by exact_mod_cast h)] at h1
  exact_mod_cast h1

theorem wordAt_lt (w v j : Nat) : wordAt w v j < 2 ^ w := narrow_lt _ _

theorem setWordAt_lt (w width v j x : Nat) : setWordAt w width v j x < 2 ^ width := narrow_lt _ _

/-- The lowest `k` words of a value, weighted by their places, are its lowest bits. -/
theorem sum_words (w v : Nat) :
    ∀ k, ((List.range k).map fun j => wordAt w v j * 2 ^ (j * w)).sum = v % 2 ^ (k * w)
  | 0 => by simp [Nat.mod_one]
  | k + 1 => by
    rw [List.range_succ, List.map_append, List.sum_append, sum_words w v k]
    simp only [List.map_cons, List.map_nil, List.sum_cons, List.sum_nil, Nat.add_zero]
    rw [Nat.add_mul, Nat.one_mul, Nat.pow_add, Nat.mod_mul, wordAt, narrow]
    ring

/-- `ceil(a / b)` words hold `a` bits. -/
theorem le_ceilDiv_mul (a : Nat) {b : Nat} (hb : 0 < b) : a ≤ ceilDiv a b * b := by
  unfold ceilDiv
  have h := Nat.div_add_mod (a + b - 1) b
  have h2 := Nat.mod_lt (a + b - 1) hb
  rw [Nat.mul_comm] at h
  omega

/-- All words but the last of `ceil(a / b)` do not hold `a` bits. -/
theorem ceilDiv_pred_mul_lt {a b : Nat} (ha : 0 < a) (hb : 0 < b) : (ceilDiv a b - 1) * b < a := by
  unfold ceilDiv
  have h := Nat.div_add_mod (a + b - 1) b
  have h2 := Nat.mod_lt (a + b - 1) hb
  rw [Nat.mul_comm] at h
  have h3 : 1 ≤ (a + b - 1) / b := (Nat.one_le_div_iff hb).2 (by omega)
  rw [Nat.sub_mul, Nat.one_mul]
  have h4 : b ≤ (a + b - 1) / b * b := Nat.le_mul_of_pos_left b h3
  omega

theorem ceilDiv_pos {a b : Nat} (ha : 0 < a) (hb : 0 < b) : 0 < ceilDiv a b :=
  (Nat.one_le_div_iff hb).2 (by omega)

theorem ceilDiv_le {a b k : Nat} (hb : 0 < b) (h : a ≤ k * b) : ceilDiv a b ≤ k := by
  unfold ceilDiv
  rw [← Nat.lt_succ_iff, Nat.div_lt_iff_lt_mul hb, Nat.succ_mul]
  omega

/-- Testing a bit of a narrowed value. -/
theorem testBit_narrow (n x i : Nat) : (narrow n x).testBit i = (decide (i < n) && x.testBit i) :=
  Nat.testBit_mod_two_pow x n i

theorem testBit_wordAt (w v j i : Nat) :
    (wordAt w v j).testBit i = (decide (i < w) && v.testBit (j * w + i)) := by
  rw [wordAt, testBit_narrow, Nat.testBit_div_two_pow, Nat.add_comm]

/-- Writing word `j` replaces the bits of word `j` below the register's width, and no other bit. -/
theorem testBit_setWordAt (w width v j x i : Nat) :
    (setWordAt w width v j x).testBit i =
      (decide (i < width) && if j * w ≤ i ∧ i < (j + 1) * w then x.testBit (i - j * w) else v.testBit i) := by
  unfold setWordAt
  rw [testBit_narrow]
  congr 1
  have hjw : (j + 1) * w = j * w + w := Nat.succ_mul j w
  have h1 : narrow (j * w) v < 2 ^ (j * w) := narrow_lt _ _
  have h2 : narrow w x < 2 ^ w := narrow_lt _ _
  have h3 : narrow (j * w) v + narrow w x * 2 ^ (j * w) < 2 ^ ((j + 1) * w) := by
    rw [hjw, Nat.pow_add]
    nlinarith
  have e1 : narrow (j * w) v + narrow w x * 2 ^ (j * w)
      = 2 ^ (j * w) * narrow w x + narrow (j * w) v := by ring
  have e2 : narrow (j * w) v + narrow w x * 2 ^ (j * w) + v / 2 ^ ((j + 1) * w) * 2 ^ ((j + 1) * w)
      = 2 ^ ((j + 1) * w) * (v / 2 ^ ((j + 1) * w)) + (narrow (j * w) v + narrow w x * 2 ^ (j * w)) := by ring
  rw [e2, Nat.testBit_two_pow_mul_add _ h3, e1, Nat.testBit_two_pow_mul_add _ h1]
  by_cases hi : i < j * w
  · have : i < (j + 1) * w := by omega
    simp [hi, this, testBit_narrow]
  · by_cases hi' : i < (j + 1) * w
    · simp only [hi, hi', if_true, if_false, testBit_narrow]
      have : i - j * w < w := by omega
      simp [this, Nat.not_lt.1 hi]
    · have h5 : (j + 1) * w + (i - (j + 1) * w) = i := by omega
      simp [hi', Nat.testBit_div_two_pow]
      rw [Nat.add_comm, h5]

/-- Reading a word just written gives the written word's bits below the register's width. -/
theorem wordAt_setWordAt_same (w width v j x : Nat) :
    wordAt w (setWordAt w width v j x) j = narrow w (narrow (width - j * w) x) := by
  apply Nat.eq_of_testBit_eq
  intro i
  rw [testBit_wordAt, testBit_setWordAt, testBit_narrow, testBit_narrow]
  by_cases hi : i < w
  · have h1 : j * w ≤ j * w + i ∧ j * w + i < (j + 1) * w := by
      rw [Nat.succ_mul]
      omega
    have h2 : j * w + i - j * w = i := by omega
    have h3 : (j * w + i < width) = (i < width - j * w) := propext (by omega)
    simp only [h1, h2, h3, and_self, if_true]
  · simp [hi]

/-- Writing a word leaves the other words of a register that fits its width. -/
theorem wordAt_setWordAt_other {w width v j j' x : Nat} (hv : v < 2 ^ width) (hj : j' ≠ j) :
    wordAt w (setWordAt w width v j x) j' = wordAt w v j' := by
  apply Nat.eq_of_testBit_eq
  intro i
  rw [testBit_wordAt, testBit_setWordAt, testBit_wordAt]
  by_cases hi : i < w
  · have h1 : ¬ (j * w ≤ j' * w + i ∧ j' * w + i < (j + 1) * w) := by
      rintro ⟨h2, h3⟩
      rcases Nat.lt_or_gt_of_ne hj with h | h
      · have := Nat.mul_le_mul_right w (Nat.succ_le_of_lt h)
        rw [Nat.succ_mul] at this
        omega
      · have : (j + 1) * w ≤ j' * w := Nat.mul_le_mul_right w (Nat.succ_le_of_lt h)
        omega
    rw [if_neg h1]
    by_cases h4 : j' * w + i < width
    · simp [h4]
    · have h5 : v.testBit (j' * w + i) = false :=
        Nat.testBit_lt_two_pow (Nat.lt_of_lt_of_le hv (Nat.pow_le_pow_right (by omega) (Nat.le_of_not_lt h4)))
      simp [h5]
  · simp [hi]

end Sys2Proof
end

