-- ==== Sys2Proof/Laws/Decode.lean ====
section
/-! SUPPORT. Operand words and operand values, both ways (R83), and what operand assembly answers. -/

namespace Sys2Proof

@[simp] theorem splitOperand_length : ∀ n v, (splitOperand n v).length = n
  | 0, _ => rfl
  | n + 1, v => by simp [splitOperand, splitOperand_length n]

/-- A value that fits in its operand words is what they assemble to. -/
theorem assembleOperand_splitOperand : ∀ n v, v < 2 ^ (16 * n) → assembleOperand (splitOperand n v) = v
  | 0, v, h => by
    simp only [Nat.mul_zero, Nat.pow_zero, Nat.lt_one_iff] at h
    subst h
    rfl
  | n + 1, v, h => by
    have h2 : v / 2 ^ 16 < 2 ^ (16 * n) := by
      rw [Nat.div_lt_iff_lt_mul (by norm_num), ← Nat.pow_add]
      exact h
    simp only [splitOperand, assembleOperand, assembleOperand_splitOperand n _ h2, BitVec.toNat_ofNat]
    exact Nat.mod_add_div v (2 ^ 16)

/-- Operand words are those of the value they assemble to. -/
theorem splitOperand_assembleOperand : ∀ ws : List Word, splitOperand ws.length (assembleOperand ws) = ws
  | [] => rfl
  | w :: ws => by
    have hw := w.isLt
    have h1 : (w.toNat + 2 ^ 16 * assembleOperand ws) / 2 ^ 16 = assembleOperand ws := by omega
    simp only [assembleOperand, List.length_cons, splitOperand, h1, splitOperand_assembleOperand ws]
    congr 1
    apply BitVec.eq_of_toNat_eq
    rw [BitVec.toNat_ofNat]
    omega

/-- The words of an operand hold its bits. -/
theorem le_operandWords (w : Nat) : w ≤ 16 * operandWords w := by
  have := le_ceilDiv_mul w (b := 16) (by norm_num)
  unfold operandWords
  omega

/-- A value of its width is what its operand words assemble to. -/
theorem assembleOperand_of_lt {w x : Nat} (h : x < 2 ^ w) :
    assembleOperand (splitOperand (operandWords w) x) = x :=
  assembleOperand_splitOperand _ _ (Nat.lt_of_lt_of_le h (Nat.pow_le_pow_right (by norm_num) (le_operandWords w)))

theorem take_splitOperand (w x : Nat) (rest : List Word) :
    (splitOperand (operandWords w) x ++ rest).take (operandWords w) = splitOperand (operandWords w) x := by
  rw [List.take_append_of_le_length (by simp), List.take_of_length_le (by simp)]

theorem drop_splitOperand (w x : Nat) (rest : List Word) :
    (splitOperand (operandWords w) x ++ rest).drop (operandWords w) = rest := by
  rw [List.drop_append_of_le_length (by simp), List.drop_of_length_le (by simp)]
  rfl

/-- Operand assembly, one operand at a time (R83). -/
theorem takeOperands_cons {w : Nat} {ws : List Nat} {stream : List Word} {xs : List Nat} :
    takeOperands (w :: ws) stream = .ok xs ↔
      ∃ ys, assembleOperand (stream.take (operandWords w)) < 2 ^ w
        ∧ takeOperands ws (stream.drop (operandWords w)) = .ok ys
        ∧ xs = assembleOperand (stream.take (operandWords w)) :: ys := by
  rw [takeOperands]
  split
  · rename_i h
    simp [Nat.not_lt.2 h]
  · rename_i h
    cases he : takeOperands ws (stream.drop (operandWords w)) with
    | error r => simp
    | ok ys => simp [Nat.lt_of_not_le h, eq_comm]

/-- The only refusal of operand assembly is `OPERAND_RANGE`. -/
theorem takeOperands_error {r : DecodeRefusal} :
    ∀ {ws : List Nat} {stream : List Word}, takeOperands ws stream = .error r → r = .operandRange
  | [], _, h => by cases h
  | w :: ws, stream, h => by
    rw [takeOperands] at h
    split at h
    · cases h
      rfl
    · split at h
      · cases h
      · cases h
        exact takeOperands_error ‹_›

end Sys2Proof
end

