-- ==== Sys2Proof/Laws/Params.lean ====
section
/-! SUPPORT. What a legal configuration guarantees (R7, R8), and the words of a register in either order (R11). -/

namespace Sys2Proof

/-- The constraints of R7, one by one. -/
structure Config.Legal (c : Config) : Prop where
  wWord_ge : 8 ≤ c.wWord
  wHw_pos : 1 ≤ c.wHw
  wHw_le : c.wHw ≤ c.wWord
  wTick_pos : 1 ≤ c.wTick
  wTick_le : c.wTick ≤ 8 * c.wWord
  wSec_pos : 1 ≤ c.wSec
  wSec_le : c.wSec ≤ 8 * c.wWord
  tps_pow : 2 ^ Nat.log2 c.tps = c.tps
  tps_le : c.tps ≤ 2 ^ c.wTick
  hwRate_pos : 1 ≤ c.hwRate
  interval_eq : c.interval = c.hwRate / c.tps
  interval_pos : 1 ≤ c.interval
  interval_le : c.interval ≤ 2 ^ c.wHw - 1

theorem Config.valid_iff (c : Config) : c.valid = true ↔ c.Legal := by
  unfold Config.valid isPowerOfTwo
  simp only [Bool.and_eq_true, decide_eq_true_eq, beq_iff_eq]
  constructor
  · rintro ⟨⟨⟨⟨⟨⟨⟨⟨⟨⟨⟨⟨h1, h2⟩, h3⟩, h4⟩, h5⟩, h6⟩, h7⟩, h8⟩, h9⟩, h10⟩, h11⟩, h12⟩, h13⟩
    exact ⟨h1, h2, h3, h4, h5, h6, h7, h8, h9, h10, h11, h12, h13⟩
  · rintro ⟨h1, h2, h3, h4, h5, h6, h7, h8, h9, h10, h11, h12, h13⟩
    exact ⟨⟨⟨⟨⟨⟨⟨⟨⟨⟨⟨⟨h1, h2⟩, h3⟩, h4⟩, h5⟩, h6⟩, h7⟩, h8⟩, h9⟩, h10⟩, h11⟩, h12⟩, h13⟩

namespace Config.Legal

variable {c : Config} (h : c.Legal)
include h

theorem wWord_pos : 0 < c.wWord := by have := h.wWord_ge; omega

theorem tps_pos : 0 < c.tps := by rw [← h.tps_pow]; exact Nat.two_pow_pos _

theorem interval_lt : c.interval < 2 ^ c.wHw := by
  have := h.interval_le
  have := Nat.two_pow_pos c.wHw
  omega

/-- `K_T` is 1 to 8. -/
theorem kT_pos : 0 < c.kT := ceilDiv_pos h.wTick_pos h.wWord_pos

theorem kT_le : c.kT ≤ 8 := ceilDiv_le h.wWord_pos h.wTick_le

/-- `K_S` is 1 to 8. -/
theorem kS_pos : 0 < c.kS := ceilDiv_pos h.wSec_pos h.wWord_pos

theorem kS_le : c.kS ≤ 8 := ceilDiv_le h.wWord_pos h.wSec_le

/-- The words of `TICKS` hold all its bits. -/
theorem wTick_le_words : c.wTick ≤ c.kT * c.wWord := le_ceilDiv_mul _ h.wWord_pos

/-- The words of `SECONDS` hold all its bits. -/
theorem wSec_le_words : c.wSec ≤ c.kS * c.wWord := le_ceilDiv_mul _ h.wWord_pos

/-- The bitmask test of R127 is the remainder test. -/
theorem and_secMask (x : Nat) : x &&& c.secMask = x % c.tps := by
  unfold Config.secMask
  rw [← h.tps_pow, Nat.and_two_pow_sub_one_eq_mod]

/-- `TPS` divides `2^W_TICK`. -/
theorem tps_dvd : c.tps ∣ 2 ^ c.wTick := by
  have h1 := h.tps_le
  rw [← h.tps_pow] at h1 ⊢
  exact Nat.pow_dvd_pow 2 ((Nat.pow_le_pow_iff_right (by omega)).1 h1)

end Config.Legal

@[simp] theorem order_length (c : Config) (k : Nat) : (c.order k).length = k := by
  unfold Config.order
  split <;> simp

theorem mem_order (c : Config) (k j : Nat) : j ∈ c.order k ↔ j < k := by
  unfold Config.order
  split <;> simp

theorem order_perm (c : Config) (k : Nat) : (c.order k).Perm (List.range k) := by
  unfold Config.order
  split
  · exact List.Perm.refl _
  · exact List.reverse_perm _

theorem order_nodup (c : Config) (k : Nat) : (c.order k).Nodup :=
  (order_perm c k).nodup_iff.2 List.nodup_range

end Sys2Proof
end

