-- ==== Sys2Proof/Laws/State.lean ====
section
/-! SUPPORT. One lemma per field per named update of State, so that no later proof unfolds a record update. -/

namespace Sys2Proof.Machine

variable (s : State)

/-! ### State.emit -/

@[simp] theorem State.emit_cfg (es : List Event) : (s.emit es).cfg = s.cfg := rfl
@[simp] theorem State.emit_prog (es : List Event) : (s.emit es).prog = s.prog := rfl
@[simp] theorem State.emit_cpc (es : List Event) : (s.emit es).cpc = s.cpc := rfl
@[simp] theorem State.emit_fgs (es : List Event) : (s.emit es).fgs = s.fgs := rfl
@[simp] theorem State.emit_ticks (es : List Event) : (s.emit es).ticks = s.ticks := rfl
@[simp] theorem State.emit_seconds (es : List Event) : (s.emit es).seconds = s.seconds := rfl
@[simp] theorem State.emit_hwcnt (es : List Event) : (s.emit es).hwcnt = s.hwcnt := rfl
@[simp] theorem State.emit_ccr (es : List Event) : (s.emit es).ccr = s.ccr := rfl
@[simp] theorem State.emit_last (es : List Event) : (s.emit es).last = s.last := rfl
@[simp] theorem State.emit_gie (es : List Event) : (s.emit es).gie = s.gie := rfl
@[simp] theorem State.emit_cmpie (es : List Event) : (s.emit es).cmpie = s.cmpie := rfl
@[simp] theorem State.emit_cmpifg (es : List Event) : (s.emit es).cmpifg = s.cmpifg := rfl
@[simp] theorem State.emit_run (es : List Event) : (s.emit es).run = s.run := rfl
@[simp] theorem State.emit_inIsr (es : List Event) : (s.emit es).inIsr = s.inIsr := rfl
@[simp] theorem State.emit_iph (es : List Event) : (s.emit es).iph = s.iph := rfl
@[simp] theorem State.emit_ih (es : List Event) : (s.emit es).ih = s.ih := rfl
@[simp] theorem State.emit_ip (es : List Event) : (s.emit es).ip = s.ip := rfl
@[simp] theorem State.emit_it (es : List Event) : (s.emit es).it = s.it := rfl
@[simp] theorem State.emit_hist (es : List Event) : (s.emit es).hist = s.hist ++ es := rfl
@[simp] theorem State.emit_sched (es : List Event) : (s.emit es).sched = s.sched := rfl
@[simp] theorem State.emit_choices (es : List Event) : (s.emit es).choices = s.choices := rfl
@[simp] theorem State.emit_answers (es : List Event) : (s.emit es).answers = s.answers := rfl
@[simp] theorem State.emit_draws (es : List Event) : (s.emit es).draws = s.draws := rfl

/-! ### State.continueAt -/

@[simp] theorem State.continueAt_cfg (op : Instr) (lbl : FgLabel) : (s.continueAt op lbl).cfg = s.cfg := rfl
@[simp] theorem State.continueAt_prog (op : Instr) (lbl : FgLabel) : (s.continueAt op lbl).prog = s.prog := rfl
@[simp] theorem State.continueAt_cpc (op : Instr) (lbl : FgLabel) : (s.continueAt op lbl).cpc = s.cpc := rfl
@[simp] theorem State.continueAt_fgs (op : Instr) (lbl : FgLabel) : (s.continueAt op lbl).fgs = .busy op lbl := rfl
@[simp] theorem State.continueAt_ticks (op : Instr) (lbl : FgLabel) : (s.continueAt op lbl).ticks = s.ticks := rfl
@[simp] theorem State.continueAt_seconds (op : Instr) (lbl : FgLabel) :
    (s.continueAt op lbl).seconds =
      s.seconds := rfl
@[simp] theorem State.continueAt_hwcnt (op : Instr) (lbl : FgLabel) : (s.continueAt op lbl).hwcnt = s.hwcnt := rfl
@[simp] theorem State.continueAt_ccr (op : Instr) (lbl : FgLabel) : (s.continueAt op lbl).ccr = s.ccr := rfl
@[simp] theorem State.continueAt_last (op : Instr) (lbl : FgLabel) : (s.continueAt op lbl).last = s.last := rfl
@[simp] theorem State.continueAt_gie (op : Instr) (lbl : FgLabel) : (s.continueAt op lbl).gie = s.gie := rfl
@[simp] theorem State.continueAt_cmpie (op : Instr) (lbl : FgLabel) : (s.continueAt op lbl).cmpie = s.cmpie := rfl
@[simp] theorem State.continueAt_cmpifg (op : Instr) (lbl : FgLabel) : (s.continueAt op lbl).cmpifg = s.cmpifg := rfl
@[simp] theorem State.continueAt_run (op : Instr) (lbl : FgLabel) : (s.continueAt op lbl).run = s.run := rfl
@[simp] theorem State.continueAt_inIsr (op : Instr) (lbl : FgLabel) : (s.continueAt op lbl).inIsr = s.inIsr := rfl
@[simp] theorem State.continueAt_iph (op : Instr) (lbl : FgLabel) : (s.continueAt op lbl).iph = s.iph := rfl
@[simp] theorem State.continueAt_ih (op : Instr) (lbl : FgLabel) : (s.continueAt op lbl).ih = s.ih := rfl
@[simp] theorem State.continueAt_ip (op : Instr) (lbl : FgLabel) : (s.continueAt op lbl).ip = s.ip := rfl
@[simp] theorem State.continueAt_it (op : Instr) (lbl : FgLabel) : (s.continueAt op lbl).it = s.it := rfl
@[simp] theorem State.continueAt_hist (op : Instr) (lbl : FgLabel) : (s.continueAt op lbl).hist = s.hist := rfl
@[simp] theorem State.continueAt_sched (op : Instr) (lbl : FgLabel) : (s.continueAt op lbl).sched = s.sched := rfl
@[simp] theorem State.continueAt_choices (op : Instr) (lbl : FgLabel) :
    (s.continueAt op lbl).choices =
      s.choices := rfl
@[simp] theorem State.continueAt_answers (op : Instr) (lbl : FgLabel) :
    (s.continueAt op lbl).answers =
      s.answers := rfl
@[simp] theorem State.continueAt_draws (op : Instr) (lbl : FgLabel) : (s.continueAt op lbl).draws = s.draws := rfl

/-! ### State.finish -/

@[simp] theorem State.finish_cfg (op : OpName) (v : Option Nat) : (s.finish op v).cfg = s.cfg := rfl
@[simp] theorem State.finish_prog (op : OpName) (v : Option Nat) : (s.finish op v).prog = s.prog := rfl
@[simp] theorem State.finish_cpc (op : OpName) (v : Option Nat) : (s.finish op v).cpc = s.cpc + op.length s.cfg := rfl
@[simp] theorem State.finish_fgs (op : OpName) (v : Option Nat) : (s.finish op v).fgs = .idle := rfl
@[simp] theorem State.finish_ticks (op : OpName) (v : Option Nat) : (s.finish op v).ticks = s.ticks := rfl
@[simp] theorem State.finish_seconds (op : OpName) (v : Option Nat) : (s.finish op v).seconds = s.seconds := rfl
@[simp] theorem State.finish_hwcnt (op : OpName) (v : Option Nat) : (s.finish op v).hwcnt = s.hwcnt := rfl
@[simp] theorem State.finish_ccr (op : OpName) (v : Option Nat) : (s.finish op v).ccr = s.ccr := rfl
@[simp] theorem State.finish_last (op : OpName) (v : Option Nat) : (s.finish op v).last = s.last := rfl
@[simp] theorem State.finish_gie (op : OpName) (v : Option Nat) : (s.finish op v).gie = s.gie := rfl
@[simp] theorem State.finish_cmpie (op : OpName) (v : Option Nat) : (s.finish op v).cmpie = s.cmpie := rfl
@[simp] theorem State.finish_cmpifg (op : OpName) (v : Option Nat) : (s.finish op v).cmpifg = s.cmpifg := rfl
@[simp] theorem State.finish_run (op : OpName) (v : Option Nat) : (s.finish op v).run = s.run := rfl
@[simp] theorem State.finish_inIsr (op : OpName) (v : Option Nat) : (s.finish op v).inIsr = s.inIsr := rfl
@[simp] theorem State.finish_iph (op : OpName) (v : Option Nat) : (s.finish op v).iph = s.iph := rfl
@[simp] theorem State.finish_ih (op : OpName) (v : Option Nat) : (s.finish op v).ih = s.ih := rfl
@[simp] theorem State.finish_ip (op : OpName) (v : Option Nat) : (s.finish op v).ip = s.ip := rfl
@[simp] theorem State.finish_it (op : OpName) (v : Option Nat) : (s.finish op v).it = s.it := rfl
@[simp] theorem State.finish_hist (op : OpName) (v : Option Nat) : (s.finish op v).hist = s.hist ++ [.ret op v] := rfl
@[simp] theorem State.finish_sched (op : OpName) (v : Option Nat) : (s.finish op v).sched = s.sched := rfl
@[simp] theorem State.finish_choices (op : OpName) (v : Option Nat) : (s.finish op v).choices = s.choices := rfl
@[simp] theorem State.finish_answers (op : OpName) (v : Option Nat) : (s.finish op v).answers = s.answers := rfl
@[simp] theorem State.finish_draws (op : OpName) (v : Option Nat) : (s.finish op v).draws = s.draws := rfl

/-! ### State.takeInterrupt -/

@[simp] theorem State.takeInterrupt_cfg : (s.takeInterrupt).cfg = s.cfg := rfl
@[simp] theorem State.takeInterrupt_prog : (s.takeInterrupt).prog = s.prog := rfl
@[simp] theorem State.takeInterrupt_cpc : (s.takeInterrupt).cpc = s.cpc := rfl
@[simp] theorem State.takeInterrupt_fgs : (s.takeInterrupt).fgs = s.fgs := rfl
@[simp] theorem State.takeInterrupt_ticks : (s.takeInterrupt).ticks = s.ticks := rfl
@[simp] theorem State.takeInterrupt_seconds : (s.takeInterrupt).seconds = s.seconds := rfl
@[simp] theorem State.takeInterrupt_hwcnt : (s.takeInterrupt).hwcnt = s.hwcnt := rfl
@[simp] theorem State.takeInterrupt_ccr : (s.takeInterrupt).ccr = s.ccr := rfl
@[simp] theorem State.takeInterrupt_last : (s.takeInterrupt).last = s.last := rfl
@[simp] theorem State.takeInterrupt_gie : (s.takeInterrupt).gie = s.gie := rfl
@[simp] theorem State.takeInterrupt_cmpie : (s.takeInterrupt).cmpie = s.cmpie := rfl
@[simp] theorem State.takeInterrupt_cmpifg : (s.takeInterrupt).cmpifg = false := rfl
@[simp] theorem State.takeInterrupt_run : (s.takeInterrupt).run = s.run := rfl
@[simp] theorem State.takeInterrupt_inIsr : (s.takeInterrupt).inIsr = true := rfl
@[simp] theorem State.takeInterrupt_iph : (s.takeInterrupt).iph = .rearm := rfl
@[simp] theorem State.takeInterrupt_ih : (s.takeInterrupt).ih = s.ih := rfl
@[simp] theorem State.takeInterrupt_ip : (s.takeInterrupt).ip = s.ip := rfl
@[simp] theorem State.takeInterrupt_it : (s.takeInterrupt).it = s.it := rfl
@[simp] theorem State.takeInterrupt_hist : (s.takeInterrupt).hist = s.hist ++ [.energestOn, .wdtStart] := rfl
@[simp] theorem State.takeInterrupt_sched : (s.takeInterrupt).sched = s.sched := rfl
@[simp] theorem State.takeInterrupt_choices : (s.takeInterrupt).choices = s.choices := rfl
@[simp] theorem State.takeInterrupt_answers : (s.takeInterrupt).answers = s.answers := rfl
@[simp] theorem State.takeInterrupt_draws : (s.takeInterrupt).draws = s.draws := rfl

/-! ### State.returnFromInterrupt -/

@[simp] theorem State.returnFromInterrupt_cfg : (s.returnFromInterrupt).cfg = s.cfg := rfl
@[simp] theorem State.returnFromInterrupt_prog : (s.returnFromInterrupt).prog = s.prog := rfl
@[simp] theorem State.returnFromInterrupt_cpc : (s.returnFromInterrupt).cpc = s.cpc := rfl
@[simp] theorem State.returnFromInterrupt_fgs : (s.returnFromInterrupt).fgs = s.fgs := rfl
@[simp] theorem State.returnFromInterrupt_ticks : (s.returnFromInterrupt).ticks = s.ticks := rfl
@[simp] theorem State.returnFromInterrupt_seconds : (s.returnFromInterrupt).seconds = s.seconds := rfl
@[simp] theorem State.returnFromInterrupt_hwcnt : (s.returnFromInterrupt).hwcnt = s.hwcnt := rfl
@[simp] theorem State.returnFromInterrupt_ccr : (s.returnFromInterrupt).ccr = s.ccr := rfl
@[simp] theorem State.returnFromInterrupt_last : (s.returnFromInterrupt).last = s.last := rfl
@[simp] theorem State.returnFromInterrupt_gie : (s.returnFromInterrupt).gie = s.gie := rfl
@[simp] theorem State.returnFromInterrupt_cmpie : (s.returnFromInterrupt).cmpie = s.cmpie := rfl
@[simp] theorem State.returnFromInterrupt_cmpifg : (s.returnFromInterrupt).cmpifg = s.cmpifg := rfl
@[simp] theorem State.returnFromInterrupt_run : (s.returnFromInterrupt).run = s.run := rfl
@[simp] theorem State.returnFromInterrupt_inIsr : (s.returnFromInterrupt).inIsr = false := rfl
@[simp] theorem State.returnFromInterrupt_iph : (s.returnFromInterrupt).iph = .none := rfl
@[simp] theorem State.returnFromInterrupt_ih : (s.returnFromInterrupt).ih = s.ih := rfl
@[simp] theorem State.returnFromInterrupt_ip : (s.returnFromInterrupt).ip = s.ip := rfl
@[simp] theorem State.returnFromInterrupt_it : (s.returnFromInterrupt).it = s.it := rfl
@[simp] theorem State.returnFromInterrupt_hist :
    (s.returnFromInterrupt).hist =
      s.hist ++ [.wdtStop, .energestOff] := rfl
@[simp] theorem State.returnFromInterrupt_sched : (s.returnFromInterrupt).sched = s.sched := rfl
@[simp] theorem State.returnFromInterrupt_choices : (s.returnFromInterrupt).choices = s.choices := rfl
@[simp] theorem State.returnFromInterrupt_answers : (s.returnFromInterrupt).answers = s.answers := rfl
@[simp] theorem State.returnFromInterrupt_draws : (s.returnFromInterrupt).draws = s.draws := rfl

/-! ### State.countUp -/

@[simp] theorem State.countUp_cfg : (s.countUp).cfg = s.cfg := rfl
@[simp] theorem State.countUp_prog : (s.countUp).prog = s.prog := rfl
@[simp] theorem State.countUp_cpc : (s.countUp).cpc = s.cpc := rfl
@[simp] theorem State.countUp_fgs : (s.countUp).fgs = s.fgs := rfl
@[simp] theorem State.countUp_ticks : (s.countUp).ticks = s.ticks := rfl
@[simp] theorem State.countUp_seconds : (s.countUp).seconds = s.seconds := rfl
@[simp] theorem State.countUp_hwcnt : (s.countUp).hwcnt = addW s.cfg.wHw s.hwcnt 1 := rfl
@[simp] theorem State.countUp_ccr : (s.countUp).ccr = s.ccr := rfl
@[simp] theorem State.countUp_last : (s.countUp).last = s.last := rfl
@[simp] theorem State.countUp_gie : (s.countUp).gie = s.gie := rfl
@[simp] theorem State.countUp_cmpie : (s.countUp).cmpie = s.cmpie := rfl
@[simp] theorem State.countUp_cmpifg : (s.countUp).cmpifg = matchFlag s.cmpifg (addW s.cfg.wHw s.hwcnt 1) s.ccr := rfl
@[simp] theorem State.countUp_run : (s.countUp).run = s.run := rfl
@[simp] theorem State.countUp_inIsr : (s.countUp).inIsr = s.inIsr := rfl
@[simp] theorem State.countUp_iph : (s.countUp).iph = s.iph := rfl
@[simp] theorem State.countUp_ih : (s.countUp).ih = s.ih := rfl
@[simp] theorem State.countUp_ip : (s.countUp).ip = s.ip := rfl
@[simp] theorem State.countUp_it : (s.countUp).it = s.it := rfl
@[simp] theorem State.countUp_hist : (s.countUp).hist = s.hist := rfl
@[simp] theorem State.countUp_sched : (s.countUp).sched = s.sched := rfl
@[simp] theorem State.countUp_choices : (s.countUp).choices = s.choices := rfl
@[simp] theorem State.countUp_answers : (s.countUp).answers = s.answers := rfl
@[simp] theorem State.countUp_draws : (s.countUp).draws = s.draws := rfl

/-! ### State.countDeadline -/

@[simp] theorem State.countDeadline_cfg : (s.countDeadline).cfg = s.cfg := rfl
@[simp] theorem State.countDeadline_prog : (s.countDeadline).prog = s.prog := rfl
@[simp] theorem State.countDeadline_cpc : (s.countDeadline).cpc = s.cpc := rfl
@[simp] theorem State.countDeadline_fgs : (s.countDeadline).fgs = s.fgs := rfl
@[simp] theorem State.countDeadline_ticks : (s.countDeadline).ticks = addW s.cfg.wTick s.ticks 1 := rfl
@[simp] theorem State.countDeadline_seconds :
    (s.countDeadline).seconds =
      if onSecond s.cfg (addW s.cfg.wTick s.ticks 1) then addW s.cfg.wSec s.seconds 1 else s.seconds := rfl
@[simp] theorem State.countDeadline_hwcnt : (s.countDeadline).hwcnt = s.hwcnt := rfl
@[simp] theorem State.countDeadline_ccr : (s.countDeadline).ccr = addW s.cfg.wHw s.ccr s.cfg.interval := rfl
@[simp] theorem State.countDeadline_last : (s.countDeadline).last = s.last := rfl
@[simp] theorem State.countDeadline_gie : (s.countDeadline).gie = s.gie := rfl
@[simp] theorem State.countDeadline_cmpie : (s.countDeadline).cmpie = s.cmpie := rfl
@[simp] theorem State.countDeadline_cmpifg : (s.countDeadline).cmpifg = s.cmpifg := rfl
@[simp] theorem State.countDeadline_run : (s.countDeadline).run = s.run := rfl
@[simp] theorem State.countDeadline_inIsr : (s.countDeadline).inIsr = s.inIsr := rfl
@[simp] theorem State.countDeadline_iph : (s.countDeadline).iph = s.iph := rfl
@[simp] theorem State.countDeadline_ih : (s.countDeadline).ih = s.ih := rfl
@[simp] theorem State.countDeadline_ip : (s.countDeadline).ip = s.ip := rfl
@[simp] theorem State.countDeadline_it : (s.countDeadline).it = s.it := rfl
@[simp] theorem State.countDeadline_hist :
    (s.countDeadline).hist =
      if onSecond s.cfg (addW s.cfg.wTick s.ticks 1) then s.hist ++ [.energestFlush] else s.hist := rfl
@[simp] theorem State.countDeadline_sched : (s.countDeadline).sched = s.sched := rfl
@[simp] theorem State.countDeadline_choices : (s.countDeadline).choices = s.choices := rfl
@[simp] theorem State.countDeadline_answers : (s.countDeadline).answers = s.answers := rfl
@[simp] theorem State.countDeadline_draws : (s.countDeadline).draws = s.draws := rfl

/-! ### State.checkWith -/

@[simp] theorem State.checkWith_cfg (ans : Option Nat) : (s.checkWith ans).cfg = s.cfg := rfl
@[simp] theorem State.checkWith_prog (ans : Option Nat) : (s.checkWith ans).prog = s.prog := rfl
@[simp] theorem State.checkWith_cpc (ans : Option Nat) : (s.checkWith ans).cpc = s.cpc := rfl
@[simp] theorem State.checkWith_fgs (ans : Option Nat) : (s.checkWith ans).fgs = s.fgs := rfl
@[simp] theorem State.checkWith_ticks (ans : Option Nat) : (s.checkWith ans).ticks = s.ticks := rfl
@[simp] theorem State.checkWith_seconds (ans : Option Nat) : (s.checkWith ans).seconds = s.seconds := rfl
@[simp] theorem State.checkWith_hwcnt (ans : Option Nat) : (s.checkWith ans).hwcnt = s.hwcnt := rfl
@[simp] theorem State.checkWith_ccr (ans : Option Nat) : (s.checkWith ans).ccr = s.ccr := rfl
@[simp] theorem State.checkWith_last (ans : Option Nat) : (s.checkWith ans).last = s.last := rfl
@[simp] theorem State.checkWith_gie (ans : Option Nat) : (s.checkWith ans).gie = s.gie := rfl
@[simp] theorem State.checkWith_cmpie (ans : Option Nat) : (s.checkWith ans).cmpie = s.cmpie := rfl
@[simp] theorem State.checkWith_cmpifg (ans : Option Nat) : (s.checkWith ans).cmpifg = s.cmpifg := rfl
@[simp] theorem State.checkWith_run (ans : Option Nat) : (s.checkWith ans).run = s.run := rfl
@[simp] theorem State.checkWith_inIsr (ans : Option Nat) : (s.checkWith ans).inIsr = s.inIsr := rfl
@[simp] theorem State.checkWith_iph (ans : Option Nat) : (s.checkWith ans).iph = .exit := rfl
@[simp] theorem State.checkWith_ih (ans : Option Nat) : (s.checkWith ans).ih = s.ih := rfl
@[simp] theorem State.checkWith_ip (ans : Option Nat) : (s.checkWith ans).ip = ans.isSome := rfl
@[simp] theorem State.checkWith_it (ans : Option Nat) :
    (s.checkWith ans).it =
      (ans.map (narrow s.cfg.wTick)).getD s.it := rfl
@[simp] theorem State.checkWith_hist (ans : Option Nat) :
    (s.checkWith ans).hist =
      s.hist ++ checkEvents s.cfg s.ticks ans.isSome ((ans.map (narrow s.cfg.wTick)).getD s.it) := rfl
@[simp] theorem State.checkWith_sched (ans : Option Nat) : (s.checkWith ans).sched = s.sched := rfl
@[simp] theorem State.checkWith_choices (ans : Option Nat) : (s.checkWith ans).choices = s.choices := rfl
@[simp] theorem State.checkWith_answers (ans : Option Nat) : (s.checkWith ans).answers = s.answers := rfl
@[simp] theorem State.checkWith_draws (ans : Option Nat) : (s.checkWith ans).draws = s.draws := rfl

/-! ### State.initClock -/

@[simp] theorem State.initClock_cfg : (s.initClock).cfg = s.cfg := rfl
@[simp] theorem State.initClock_prog : (s.initClock).prog = s.prog := rfl
@[simp] theorem State.initClock_cpc : (s.initClock).cpc = s.cpc := rfl
@[simp] theorem State.initClock_fgs : (s.initClock).fgs = s.fgs := rfl
@[simp] theorem State.initClock_ticks : (s.initClock).ticks = 0 := rfl
@[simp] theorem State.initClock_seconds : (s.initClock).seconds = 0 := rfl
@[simp] theorem State.initClock_hwcnt : (s.initClock).hwcnt = 0 := rfl
@[simp] theorem State.initClock_ccr : (s.initClock).ccr = s.cfg.interval := rfl
@[simp] theorem State.initClock_last : (s.initClock).last = 0 := rfl
@[simp] theorem State.initClock_gie : (s.initClock).gie = true := rfl
@[simp] theorem State.initClock_cmpie : (s.initClock).cmpie = true := rfl
@[simp] theorem State.initClock_cmpifg : (s.initClock).cmpifg = false := rfl
@[simp] theorem State.initClock_run : (s.initClock).run = true := rfl
@[simp] theorem State.initClock_inIsr : (s.initClock).inIsr = s.inIsr := rfl
@[simp] theorem State.initClock_iph : (s.initClock).iph = s.iph := rfl
@[simp] theorem State.initClock_ih : (s.initClock).ih = s.ih := rfl
@[simp] theorem State.initClock_ip : (s.initClock).ip = s.ip := rfl
@[simp] theorem State.initClock_it : (s.initClock).it = s.it := rfl
@[simp] theorem State.initClock_hist : (s.initClock).hist = s.hist ++ [.hwinit] := rfl
@[simp] theorem State.initClock_sched : (s.initClock).sched = s.sched := rfl
@[simp] theorem State.initClock_choices : (s.initClock).choices = s.choices := rfl
@[simp] theorem State.initClock_answers : (s.initClock).answers = s.answers := rfl
@[simp] theorem State.initClock_draws : (s.initClock).draws = s.draws := rfl

/-! ### State.drawAnswer -/

@[simp] theorem State.drawAnswer_cfg : s.drawAnswer.cfg = s.cfg := by
  unfold State.drawAnswer
  split <;> rfl

@[simp] theorem State.drawAnswer_prog : s.drawAnswer.prog = s.prog := by
  unfold State.drawAnswer
  split <;> rfl

@[simp] theorem State.drawAnswer_cpc : s.drawAnswer.cpc = s.cpc := by
  unfold State.drawAnswer
  split <;> rfl

@[simp] theorem State.drawAnswer_fgs : s.drawAnswer.fgs = s.fgs := by
  unfold State.drawAnswer
  split <;> rfl

@[simp] theorem State.drawAnswer_ticks : s.drawAnswer.ticks = s.ticks := by
  unfold State.drawAnswer
  split <;> rfl

@[simp] theorem State.drawAnswer_seconds : s.drawAnswer.seconds = s.seconds := by
  unfold State.drawAnswer
  split <;> rfl

@[simp] theorem State.drawAnswer_hwcnt : s.drawAnswer.hwcnt = s.hwcnt := by
  unfold State.drawAnswer
  split <;> rfl

@[simp] theorem State.drawAnswer_ccr : s.drawAnswer.ccr = s.ccr := by
  unfold State.drawAnswer
  split <;> rfl

@[simp] theorem State.drawAnswer_last : s.drawAnswer.last = s.last := by
  unfold State.drawAnswer
  split <;> rfl

@[simp] theorem State.drawAnswer_gie : s.drawAnswer.gie = s.gie := by
  unfold State.drawAnswer
  split <;> rfl

@[simp] theorem State.drawAnswer_cmpie : s.drawAnswer.cmpie = s.cmpie := by
  unfold State.drawAnswer
  split <;> rfl

@[simp] theorem State.drawAnswer_cmpifg : s.drawAnswer.cmpifg = s.cmpifg := by
  unfold State.drawAnswer
  split <;> rfl

@[simp] theorem State.drawAnswer_run : s.drawAnswer.run = s.run := by
  unfold State.drawAnswer
  split <;> rfl

@[simp] theorem State.drawAnswer_inIsr : s.drawAnswer.inIsr = s.inIsr := by
  unfold State.drawAnswer
  split <;> rfl

@[simp] theorem State.drawAnswer_iph : s.drawAnswer.iph = s.iph := by
  unfold State.drawAnswer
  split <;> rfl

@[simp] theorem State.drawAnswer_ih : s.drawAnswer.ih = s.ih := by
  unfold State.drawAnswer
  split <;> rfl

@[simp] theorem State.drawAnswer_ip : s.drawAnswer.ip = s.ip := by
  unfold State.drawAnswer
  split <;> rfl

@[simp] theorem State.drawAnswer_it : s.drawAnswer.it = s.it := by
  unfold State.drawAnswer
  split <;> rfl

@[simp] theorem State.drawAnswer_hist : s.drawAnswer.hist = s.hist := by
  unfold State.drawAnswer
  split <;> rfl

@[simp] theorem State.drawAnswer_sched : s.drawAnswer.sched = s.sched := by
  unfold State.drawAnswer
  split <;> rfl

@[simp] theorem State.drawAnswer_choices : s.drawAnswer.choices = s.choices := by
  unfold State.drawAnswer
  split <;> rfl

/-! ### State.chosen -/

@[simp] theorem State.chosen_cfg : s.chosen.cfg = s.cfg := by
  unfold State.chosen
  split <;> rfl

@[simp] theorem State.chosen_prog : s.chosen.prog = s.prog := by
  unfold State.chosen
  split <;> rfl

@[simp] theorem State.chosen_cpc : s.chosen.cpc = s.cpc := by
  unfold State.chosen
  split <;> rfl

@[simp] theorem State.chosen_fgs : s.chosen.fgs = s.fgs := by
  unfold State.chosen
  split <;> rfl

@[simp] theorem State.chosen_ticks : s.chosen.ticks = s.ticks := by
  unfold State.chosen
  split <;> rfl

@[simp] theorem State.chosen_seconds : s.chosen.seconds = s.seconds := by
  unfold State.chosen
  split <;> rfl

@[simp] theorem State.chosen_hwcnt : s.chosen.hwcnt = s.hwcnt := by
  unfold State.chosen
  split <;> rfl

@[simp] theorem State.chosen_ccr : s.chosen.ccr = s.ccr := by
  unfold State.chosen
  split <;> rfl

@[simp] theorem State.chosen_last : s.chosen.last = s.last := by
  unfold State.chosen
  split <;> rfl

@[simp] theorem State.chosen_gie : s.chosen.gie = s.gie := by
  unfold State.chosen
  split <;> rfl

@[simp] theorem State.chosen_cmpie : s.chosen.cmpie = s.cmpie := by
  unfold State.chosen
  split <;> rfl

@[simp] theorem State.chosen_cmpifg : s.chosen.cmpifg = s.cmpifg := by
  unfold State.chosen
  split <;> rfl

@[simp] theorem State.chosen_run : s.chosen.run = s.run := by
  unfold State.chosen
  split <;> rfl

@[simp] theorem State.chosen_inIsr : s.chosen.inIsr = s.inIsr := by
  unfold State.chosen
  split <;> rfl

@[simp] theorem State.chosen_iph : s.chosen.iph = s.iph := by
  unfold State.chosen
  split <;> rfl

@[simp] theorem State.chosen_ih : s.chosen.ih = s.ih := by
  unfold State.chosen
  split <;> rfl

@[simp] theorem State.chosen_ip : s.chosen.ip = s.ip := by
  unfold State.chosen
  split <;> rfl

@[simp] theorem State.chosen_it : s.chosen.it = s.it := by
  unfold State.chosen
  split <;> rfl

@[simp] theorem State.chosen_hist : s.chosen.hist = s.hist := by
  unfold State.chosen
  split <;> rfl

@[simp] theorem State.chosen_answers : s.chosen.answers = s.answers := by
  unfold State.chosen
  split <;> rfl

@[simp] theorem State.chosen_draws : s.chosen.draws = s.draws := by
  unfold State.chosen
  split <;> rfl

/-- Choosing an agent changes the schedule and the count of free choices, and nothing else. -/
theorem State.chosen_eq : s.chosen = { s with sched := s.chosen.sched, choices := s.chosen.choices } := by
  unfold State.chosen
  split <;> rfl

/-- A supplied schedule is used one entry a step. -/
@[simp] theorem State.chosen_supplied (c : Choice) (cs : List Choice) :
    { s with sched := c :: cs }.chosen = { s with sched := cs } := rfl

@[simp] theorem State.choice_supplied (c : Choice) (cs : List Choice) : { s with sched := c :: cs }.choice = c := rfl

end Sys2Proof.Machine
end

