-- ==== Sys2Proof/Laws/Ops.lean ====
section
/-! SUPPORT. For each shared operation, once, everything it can do. -/

namespace Sys2Proof.Machine

variable {s t : State}

/-! ### The register word view -/

/-- Word `j` of `TICKS` in the view. -/
theorem memRead_ticks (hc : s.cfg.Legal) {j : Nat} (hj : j < s.cfg.kT) :
    s.memRead (ticksBase + j) = some (wordAt s.cfg.wWord s.ticks j) := by
  have hk := hc.kT_le
  have below : ¬ ticksBase + j < 8 := by unfold ticksBase; omega
  have inside : ticksBase + j < 16 := by unfold ticksBase; omega
  have place : ticksBase + j - 8 = j := Nat.add_sub_cancel_left 8 j
  rw [State.memRead, if_neg below, if_pos inside, place, if_pos hj]

/-- Word `j` of `SECONDS` in the view. -/
theorem memRead_seconds (hc : s.cfg.Legal) {j : Nat} (hj : j < s.cfg.kS) :
    s.memRead (secondsBase + j) = some (wordAt s.cfg.wWord s.seconds j) := by
  have hk := hc.kS_le
  have below : ¬ secondsBase + j < 8 := by unfold secondsBase; omega
  have past : ¬ secondsBase + j < 16 := by unfold secondsBase; omega
  have inside : secondsBase + j < 24 := by unfold secondsBase; omega
  have place : secondsBase + j - 16 = j := Nat.add_sub_cancel_left 16 j
  rw [State.memRead, if_neg below, if_neg past, if_pos inside, place, if_pos hj]

@[simp] theorem memRead_hwcnt : s.memRead 0x02 = some s.hwcnt := rfl

@[simp] theorem memRead_last : s.memRead 0x04 = some s.last := rfl

/-- Everything a word write can do when it answers a next state. -/
theorem memWrite_next {off v : Nat} (h : s.memWrite off v = .next t) :
    (off = 0x02 ∧ t = { s with hwcnt := narrow s.cfg.wHw v })
    ∨ (off = 0x03 ∧ t = { s with ccr := narrow s.cfg.wHw v })
    ∨ (off = 0x04 ∧ t = { s with last := narrow s.cfg.wHw v })
    ∨ (∃ j, j < s.cfg.kT ∧ j < 8 ∧ off = ticksBase + j
        ∧ t = { s with ticks := setWordAt s.cfg.wWord s.cfg.wTick s.ticks j v })
    ∨ (∃ j, j < s.cfg.kS ∧ j < 8 ∧ off = secondsBase + j
        ∧ t = { s with seconds := setWordAt s.cfg.wWord s.cfg.wSec s.seconds j v }) := by
  unfold State.memWrite at h
  split at h
  · cases h; exact .inl ⟨‹_›, rfl⟩
  split at h
  · cases h; exact .inr (.inl ⟨‹_›, rfl⟩)
  split at h
  · cases h; exact .inr (.inr (.inl ⟨‹_›, rfl⟩))
  split at h
  · rename_i h1
    cases h
    exact .inr (.inr (.inr (.inl ⟨off - 8, h1.2.2, by omega, by unfold ticksBase; omega, rfl⟩)))
  split at h
  · rename_i h1
    cases h
    exact .inr (.inr (.inr (.inr ⟨off - 16, h1.2.2, by omega, by unfold secondsBase; omega, rfl⟩)))
  split at h <;> cases h

theorem memWrite_ticks (hc : s.cfg.Legal) {j : Nat} (hj : j < s.cfg.kT) (v : Nat) :
    s.memWrite (ticksBase + j) v = .next { s with ticks := setWordAt s.cfg.wWord s.cfg.wTick s.ticks j v } := by
  have h8 := hc.kT_le
  unfold State.memWrite ticksBase
  have place : 8 ≤ 8 + j ∧ 8 + j < 16 ∧ 8 + j - 8 < s.cfg.kT := by omega
  have other : 8 + j ≠ 2 ∧ 8 + j ≠ 3 ∧ 8 + j ≠ 4 := by omega
  rw [if_neg other.1, if_neg other.2.1, if_neg other.2.2, if_pos place, Nat.add_sub_cancel_left]

theorem writeThen_next {off v : Nat} {after : State → State} (h : s.writeThen off v after = .next t) :
    ∃ u, s.memWrite off v = .next u ∧ t = after u := by
  unfold State.writeThen at h
  split at h
  · cases h; exact ⟨_, ‹_›, rfl⟩
  · cases h
  · cases h

/-! ### The foreground sequencer -/

/-- When the foreground has a micro-step of an operation, and which. -/
theorem fgLabel_ok {op : Instr} {lbl : FgLabel} :
    s.fgLabel op = .ok lbl ↔
      s.inIsr = false ∧ ((s.fgs = .idle ∧ lbl = firstLabel op) ∨ s.fgs = .busy op lbl) := by
  unfold State.fgLabel
  by_cases hi : s.inIsr = true
  · simp [hi]
  · rw [if_neg hi]
    simp only [Bool.not_eq_true] at hi
    cases hf : s.fgs with
    | idle => simp [hi, eq_comm]
    | busy op' l =>
      by_cases ho : op' = op
      · simp [hi, ho]
      · simp [hi, ho]

theorem fgLabel_idle (op : Instr) (hi : s.inIsr = false) (hf : s.fgs = .idle) :
    s.fgLabel op = .ok (firstLabel op) := fgLabel_ok.2 ⟨hi, .inl ⟨hf, rfl⟩⟩

theorem fgLabel_busy {op : Instr} {lbl : FgLabel} (hi : s.inIsr = false) (hf : s.fgs = .busy op lbl) :
    s.fgLabel op = .ok lbl := fgLabel_ok.2 ⟨hi, .inr hf⟩

theorem oneStep_next {op : Instr} {after : State} :
    s.oneStep op after = .next t ↔ s.fgLabel op = .ok .only ∧ t = after := by
  unfold State.oneStep
  cases h : s.fgLabel op with
  | error f => simp
  | ok l => cases l <;> simp [eq_comm]

theorem inPhase_next {p : Phase} {after : State} :
    s.inPhase p after = .next t ↔ s.iph = p ∧ t = after := by
  unfold State.inPhase
  split <;> simp_all [eq_comm]

theorem readSync_next {base k width : Nat} {a : Option Nat} {w : List Nat} {after : SyncResult → State} :
    s.readSync base k width a w after = .next t ↔
      ∃ x, s.memRead (base + sampleIndex s.cfg k w.length) = some x
        ∧ t = after (syncStep s.cfg k width a w x) := by
  unfold State.readSync
  cases h : s.memRead (base + sampleIndex s.cfg k w.length) <;> simp [eq_comm]

theorem sampleIndex_lt {c : Config} {k n : Nat} (h : n < k) : sampleIndex c k n < k := by
  unfold sampleIndex
  rw [List.getD_eq_getElem _ _ (by simpa using h)]
  exact (mem_order c k _).1 (List.getElem_mem _)

/-- In a legal configuration a word read of `ReadSync(TICKS)` reads the live word of `TICKS`. -/
theorem readSyncTicks_eq (hc : s.cfg.Legal) {a : Option Nat} {w : List Nat} (hw : w.length < s.cfg.kT)
    (after : SyncResult → State) :
    s.readSyncTicks a w after = .next (after (syncStep s.cfg s.cfg.kT s.cfg.wTick a w
      (wordAt s.cfg.wWord s.ticks (sampleIndex s.cfg s.cfg.kT w.length)))) :=
  readSync_next.2 ⟨_, memRead_ticks hc (sampleIndex_lt hw), rfl⟩

/-- In a legal configuration a word read of `ReadSync(SECONDS)` reads the live word of `SECONDS`. -/
theorem readSyncSeconds_eq (hc : s.cfg.Legal) {a : Option Nat} {w : List Nat} (hw : w.length < s.cfg.kS)
    (after : SyncResult → State) :
    s.readSyncSeconds a w after = .next (after (syncStep s.cfg s.cfg.kS s.cfg.wSec a w
      (wordAt s.cfg.wWord s.seconds (sampleIndex s.cfg s.cfg.kS w.length)))) :=
  readSync_next.2 ⟨_, memRead_seconds hc (sampleIndex_lt hw), rfl⟩

/-- Everything a word read of the synchronizer can lead to. -/
theorem syncStep_cases (c : Config) (k width : Nat) (a : Option Nat) (w : List Nat) (x : Nat) :
    (w.length + 1 < k ∧ syncStep c k width a w x = .again a (w ++ [x]))
    ∨ (k ≤ w.length + 1 ∧ a = some (sampleValue c k width (w ++ [x]))
        ∧ syncStep c k width a w x = .agreed (sampleValue c k width (w ++ [x])))
    ∨ (k ≤ w.length + 1 ∧ a ≠ some (sampleValue c k width (w ++ [x]))
        ∧ syncStep c k width a w x = .again (some (sampleValue c k width (w ++ [x]))) []) := by
  unfold syncStep
  split
  · exact .inl ⟨by simp_all, rfl⟩
  · split
    · exact .inr (.inl ⟨by simp_all, ‹_›, rfl⟩)
    · exact .inr (.inr ⟨by simp_all, ‹_›, rfl⟩)

theorem sampleValue_lt (c : Config) (k width : Nat) (w : List Nat) : sampleValue c k width w < 2 ^ width :=
  narrow_lt _ _

/-- A sample all of whose words were read from one value is that value (R164). -/
theorem sampleValue_words {c : Config} {k width v : Nat} (hv : v < 2 ^ width) (hk : width ≤ k * c.wWord) :
    sampleValue c k width ((c.order k).map (wordAt c.wWord v)) = v := by
  unfold sampleValue
  have h1 : List.zipWith (fun j x => narrow c.wWord x * 2 ^ (j * c.wWord)) (c.order k)
      ((c.order k).map (wordAt c.wWord v)) = (c.order k).map (fun j => wordAt c.wWord v j * 2 ^ (j * c.wWord)) := by
    rw [List.zipWith_map_right, List.zipWith_self]
    apply List.map_congr_left
    intro j _
    rw [narrow_of_lt (wordAt_lt _ _ _)]
  rw [h1, ((order_perm c k).map _).sum_eq, sum_words, Nat.mod_eq_of_lt, narrow_of_lt hv]
  exact Nat.lt_of_lt_of_le hv (Nat.pow_le_pow_right (by omega) hk)

/-- The first `n` words that a sample reads from one value, and the next one. -/
theorem sampleWords_snoc {c : Config} {k n v : Nat} (hn : n < k) :
    ((c.order k).take n).map (wordAt c.wWord v) ++ [wordAt c.wWord v (sampleIndex c k n)]
      = ((c.order k).take (n + 1)).map (wordAt c.wWord v) := by
  have h : n < (c.order k).length := by simpa using hn
  unfold sampleIndex
  rw [List.getD_eq_getElem _ _ h, List.take_add_one, List.map_append, List.getElem?_eq_getElem h]
  rfl

/-! ### Flags -/

theorem onSecond_iff {c : Config} (hc : c.Legal) (x : Nat) : onSecond c x = true ↔ x % c.tps = 0 := by
  unfold onSecond
  rw [hc.and_secMask, beq_iff_eq]

theorem entryEnabled_iff :
    s.entryEnabled = true ↔ s.cmpifg = true ∧ s.cmpie = true ∧ s.gie = true ∧ s.inIsr = false := by
  unfold State.entryEnabled
  simp only [Bool.and_eq_true, Bool.not_eq_true', and_assoc]

theorem matchFlag_iff {f : Bool} {h ccr : Nat} : matchFlag f h ccr = true ↔ h = ccr ∨ f = true := by
  unfold matchFlag
  split <;> simp_all

/-- The half-range test is right for every target within half the range (R251). -/
theorem due_iff {c : Config} (hc : c.Legal) {tgt now : Int} (h1 : now - tgt < c.halfT) (h2 : tgt - now ≤ c.halfT) :
    due c (tgt % (2 ^ c.wTick : Nat)).toNat (now % (2 ^ c.wTick : Nat)).toNat = true ↔ tgt ≤ now := by
  have hp : (0 : Int) < (2 ^ c.wTick : Nat) := by exact_mod_cast Nat.two_pow_pos _
  have hw : ((2 ^ c.wTick : Nat) : Int) = 2 * (c.halfT : Int) := by
    unfold Config.halfT
    have := hc.wTick_pos
    have h3 : 2 ^ c.wTick = 2 * 2 ^ (c.wTick - 1) := by
      rw [← Nat.pow_succ']
      congr 1
      omega
    exact_mod_cast h3
  have e := subW_eq_int c.wTick (now % (2 ^ c.wTick : Nat)).toNat (tgt % (2 ^ c.wTick : Nat)).toNat
  rw [Int.toNat_of_nonneg (Int.emod_nonneg _ hp.ne'), Int.toNat_of_nonneg (Int.emod_nonneg _ hp.ne'),
    ← Int.sub_emod] at e
  unfold due
  rw [decide_eq_true_eq]
  generalize subW c.wTick (now % (2 ^ c.wTick : Nat)).toNat (tgt % (2 ^ c.wTick : Nat)).toNat = d at e ⊢
  generalize ((2 ^ c.wTick : Nat) : Int) = m at *
  by_cases hle : tgt ≤ now
  · rw [Int.emod_eq_of_lt (by omega) (by omega)] at e
    constructor
    · intro; exact hle
    · intro; omega
  · have e2 : (now - tgt) % m = now - tgt + m := by
      rw [← Int.add_emod_right, Int.emod_eq_of_lt (by omega) (by omega)]
    rw [e2] at e
    constructor
    · intro; omega
    · intro; exact absurd ‹_› hle

end Sys2Proof.Machine
end

