-- ==== Sys2Proof/Laws/Exec.lean ====
section
/-! SUPPORT. For each instruction, once, what a next state of it is. -/

namespace Sys2Proof.Machine

variable {s t : State}

theorem enterCritical_next :
    exec .enterCritical s = .next t ↔ s.fgLabel .enterCritical = .ok .only
      ∧ t = { s with gie := false }.finish .enterCritical (some s.statusWord) := oneStep_next

theorem exitCritical_next {m : Nat} :
    exec (.exitCritical m) s = .next t ↔ s.fgLabel (.exitCritical m) = .ok .only
      ∧ t = { s with gie := if maskEnable m then true else s.gie }.finish .exitCritical none := oneStep_next

theorem clockInit_next :
    exec .clockInit s = .next t ↔ s.fgLabel .clockInit = .ok .only ∧ t = s.initClock.finish .clockInit none :=
  oneStep_next

theorem fineMax_next :
    exec .fineMax s = .next t ↔ s.fgLabel .fineMax = .ok .only ∧ t = s.finish .fineMax (some s.cfg.interval) :=
  oneStep_next

theorem setSeconds_next {v : Nat} :
    exec (.setSeconds v) s = .next t ↔ s.fgLabel (.setSeconds v) = .ok .only ∧ t = s.finish .setSeconds none :=
  oneStep_next

theorem currentTicks_next :
    exec .currentTicks s = .next t ↔ ∃ a w x, s.fgLabel .currentTicks = .ok (.sample a w)
      ∧ s.memRead (ticksBase + sampleIndex s.cfg s.cfg.kT w.length) = some x
      ∧ t = s.afterTicksRead (syncStep s.cfg s.cfg.kT s.cfg.wTick a w x) := by
  change execCurrentTicks s = .next t ↔ _
  unfold execCurrentTicks
  cases h : s.fgLabel .currentTicks with
  | error f => simp
  | ok l => cases l <;> simp [State.readSyncTicks, readSync_next]

theorem currentSeconds_next :
    exec .currentSeconds s = .next t ↔ ∃ a w x, s.fgLabel .currentSeconds = .ok (.sample a w)
      ∧ s.memRead (secondsBase + sampleIndex s.cfg s.cfg.kS w.length) = some x
      ∧ t = s.afterSecondsRead (syncStep s.cfg s.cfg.kS s.cfg.wSec a w x) := by
  change execCurrentSeconds s = .next t ↔ _
  unfold execCurrentSeconds
  cases h : s.fgLabel .currentSeconds with
  | error f => simp
  | ok l => cases l <;> simp [State.readSyncSeconds, readSync_next]

theorem fineTicks_next :
    exec .fineTicks s = .next t ↔
      (s.fgLabel .fineTicks = .ok .fineLast ∧ t = s.continueAt .fineTicks (.fineHwcnt s.last))
      ∨ ∃ v, s.fgLabel .fineTicks = .ok (.fineHwcnt v)
        ∧ t = s.finish .fineTicks (some (subW s.cfg.wHw s.hwcnt v)) := by
  change execFineTicks s = .next t ↔ _
  unfold execFineTicks
  cases h : s.fgLabel .fineTicks with
  | error f => simp
  | ok l => cases l <;> simp [eq_comm]

theorem wait_next {n : Nat} :
    exec (.wait n) s = .next t ↔
      (∃ a w x, s.fgLabel (.wait n) = .ok (.waitStart a w)
        ∧ s.memRead (ticksBase + sampleIndex s.cfg s.cfg.kT w.length) = some x
        ∧ t = s.afterWaitStart n (syncStep s.cfg s.cfg.kT s.cfg.wTick a w x))
      ∨ ∃ start a w x, s.fgLabel (.wait n) = .ok (.waitNow start a w)
        ∧ s.memRead (ticksBase + sampleIndex s.cfg s.cfg.kT w.length) = some x
        ∧ t = s.afterWaitNow n start (syncStep s.cfg s.cfg.kT s.cfg.wTick a w x) := by
  change execWait n s = .next t ↔ _
  unfold execWait
  cases h : s.fgLabel (.wait n) with
  | error f => simp
  | ok l => cases l <;> simp [State.readSyncTicks, readSync_next]

/-- What a micro-step of `REBASE` can be. -/
theorem rebase_next {v h : Nat} (he : exec (.rebase v h) s = .next t) :
    (s.fgLabel (.rebase v h) = .ok .rebaseHwcnt
      ∧ t = { s with hwcnt := narrow s.cfg.wHw h }.continueAt (.rebase v h) .rebaseCcr)
    ∨ (s.fgLabel (.rebase v h) = .ok .rebaseCcr
      ∧ t = { s with ccr := addW s.cfg.wHw h s.cfg.interval }.continueAt (.rebase v h) (.rebaseTicks 0))
    ∨ ∃ k u, s.fgLabel (.rebase v h) = .ok (.rebaseTicks k)
      ∧ s.memWrite (ticksBase + sampleIndex s.cfg s.cfg.kT k)
          (wordAt s.cfg.wWord v (sampleIndex s.cfg s.cfg.kT k)) = .next u
      ∧ t = State.afterTicksWrite (.rebase v h) k u := by
  change execRebase v h s = .next t at he
  unfold execRebase at he
  cases hl : s.fgLabel (.rebase v h) with
  | error f => simp [hl] at he
  | ok l =>
    rw [hl] at he
    cases l with
    | rebaseHwcnt =>
      obtain ⟨u, h1, rfl⟩ := writeThen_next he
      exact .inl ⟨rfl, by cases h1; rfl⟩
    | rebaseCcr =>
      obtain ⟨u, h1, rfl⟩ := writeThen_next he
      cases h1
      exact .inr (.inl ⟨rfl, by rw [narrow_of_lt (addW_lt _ _ _)]⟩)
    | rebaseTicks k =>
      obtain ⟨u, h1, rfl⟩ := writeThen_next he
      exact .inr (.inr ⟨k, u, rfl, h1, rfl⟩)
    | _ => cases he

theorem tmrCount_next : exec .tmrCount s = .next t ↔ s.run = true ∧ t = s.countUp := by
  change execTmrCount s = .next t ↔ _
  unfold execTmrCount
  split
  · simp [*, eq_comm]
  · simp [*]

theorem hostStop_next : exec .hostStop s = .next t ↔ t = { s with run := false } := by
  change Host.Outcome.next _ = .next t ↔ _
  simp [eq_comm]

theorem hostStart_next : exec .hostStart s = .next t ↔ t = { s with run := true } := by
  change Host.Outcome.next _ = .next t ↔ _
  simp [eq_comm]

theorem isrEntry_next : exec .isrEntry s = .next t ↔ s.entryEnabled = true ∧ t = s.takeInterrupt := by
  change execIsrEntry s = .next t ↔ _
  unfold execIsrEntry
  split
  · simp [*, eq_comm]
  · simp [*]

theorem isrRearm_next :
    exec .isrRearm s = .next t ↔ s.iph = .rearm ∧ t = { s.countDeadline with iph := .test } := inPhase_next

theorem isrTest_next :
    exec .isrTest s = .next t ↔ s.iph = .test ∧ t =
      { s with
        ih := s.hwcnt
        iph := if deadlinePassed s.cfg (leadOf s.cfg s.ccr s.hwcnt) then .rearm else .snap } := inPhase_next

theorem isrSnapshot_next :
    exec .isrSnapshot s = .next t ↔ s.iph = .snap ∧ t = { s with last := s.hwcnt, iph := .check } := inPhase_next

theorem isrEventcheck_next :
    exec .isrEventcheck s = .next t ↔ s.iph = .check ∧ t = s.drawAnswer.checkWith s.nextAnswer := inPhase_next

theorem isrExit_next : exec .isrExit s = .next t ↔ s.iph = .exit ∧ t = s.returnFromInterrupt := inPhase_next

end Sys2Proof.Machine
end

