-- ==== Sys2Proof/Laws/PerInstr.lean ====
section
/-! SUPPORT. One fact about the encoding of every instruction: its op word or label word says, field by field, what R81,
R85 and R86 give it. -/

namespace Sys2Proof.Laws.OpWord

/-- Bits 11:8 are zero; a foreground operation has class 0 and its code looks up its name (R85); a step label has class
8 and its code looks up the label (R86). -/
def Statement (i : Instr) : Prop :=
  reservedOf i.opWord = 0
    ∧ (i.issuable = true → classOf i.opWord = 0 ∧ lookupOp (codeOf i.opWord) = i.opName)
    ∧ (i.issuable = false → classOf i.opWord = 8 ∧ lookupLabel (codeOf i.opWord) = some i)

/-- The statement for an operation with operands, from its op word, which does not depend on them. -/
theorem of_operation {i : Instr} (w : Word) {op : OpName} (hw : i.opWord = w) (ho : i.opName = some op)
    (hr : reservedOf w = 0) (hc : classOf w = 0) (hl : lookupOp (codeOf w) = some op) : Statement i := by
  refine ⟨hw ▸ hr, fun _ => ⟨hw ▸ hc, by rw [hw, hl, ho]⟩, fun h => ?_⟩
  simp [Instr.issuable, ho] at h

theorem enterCritical : Statement .enterCritical := by unfold Statement; decide
theorem exitCritical (m : Nat) : Statement (.exitCritical m) :=
  of_operation 0x0002 rfl rfl (by decide) (by decide) (by decide)
theorem clockInit : Statement .clockInit := by unfold Statement; decide
theorem currentTicks : Statement .currentTicks := by unfold Statement; decide
theorem currentSeconds : Statement .currentSeconds := by unfold Statement; decide
theorem fineTicks : Statement .fineTicks := by unfold Statement; decide
theorem fineMax : Statement .fineMax := by unfold Statement; decide
theorem wait (n : Nat) : Statement (.wait n) := of_operation 0x0024 rfl rfl (by decide) (by decide) (by decide)
theorem rebase (t h : Nat) : Statement (.rebase t h) :=
  of_operation 0x0030 rfl rfl (by decide) (by decide) (by decide)
theorem setSeconds (s : Nat) : Statement (.setSeconds s) :=
  of_operation 0x0031 rfl rfl (by decide) (by decide) (by decide)
theorem tmrCount : Statement .tmrCount := by unfold Statement; decide
theorem hostStop : Statement .hostStop := by unfold Statement; decide
theorem hostStart : Statement .hostStart := by unfold Statement; decide
theorem isrEntry : Statement .isrEntry := by unfold Statement; decide
theorem isrRearm : Statement .isrRearm := by unfold Statement; decide
theorem isrTest : Statement .isrTest := by unfold Statement; decide
theorem isrSnapshot : Statement .isrSnapshot := by unfold Statement; decide
theorem isrEventcheck : Statement .isrEventcheck := by unfold Statement; decide
theorem isrExit : Statement .isrExit := by unfold Statement; decide

end Sys2Proof.Laws.OpWord
end

