-- ==== Sys2Proof/Laws/Run.lean ====
section
/-! SUPPORT. What one step and a run under a given schedule are, once. -/

namespace Sys2Proof.Machine

variable {s t : State}

/-- Everything a step does when it answers a next state. -/
theorem step_next : step s = .next t ↔
    s.cfg.valid = true ∧ ∃ i, s.instrOf s.choice = .next i ∧ exec i s.chosen = .next t := by
  unfold step
  cases hv : s.cfg.valid with
  | false => simp
  | true =>
    cases hi : s.instrOf s.choice with
    | next i => simp
    | fault f => simp
    | refused r => simp

/-- Which instruction an agent's step is does not depend on the schedule. -/
theorem instrOf_sched (cs : List Choice) (c : Choice) : { s with sched := cs }.instrOf c = s.instrOf c := by
  cases c <;> rfl

/-- One step of a named agent: its instruction on the state itself. -/
theorem stepAs_eq (hv : s.cfg.valid = true) {c : Choice} {i : Instr} (hi : s.instrOf c = .next i) :
    stepAs c s = exec i s := by
  unfold stepAs step
  rw [if_pos hv]
  simp only [State.choice_supplied, instrOf_sched, hi, State.chosen_supplied]

theorem stepAs_next {c : Choice} : stepAs c s = .next t ↔
    s.cfg.valid = true ∧ ∃ i, s.instrOf c = .next i ∧ exec i s = .next t := by
  unfold stepAs
  rw [step_next]
  simp only [State.choice_supplied, instrOf_sched, State.chosen_supplied]

/-- The foreground's step at the start of an operation is the decoded one's first micro-step. -/
theorem instrOf_fg_idle {i : Instr} (hi : s.inIsr = false) (hf : s.fgs = .idle)
    (hd : decode s.cfg s.prog s.cpc = .op i) : s.instrOf .fg = .next i := by
  simp [State.instrOf, State.fgInstr, hf, hi, hd]

/-- The foreground's step inside an operation is that operation's next micro-step. -/
theorem instrOf_fg_busy {op : Instr} {lbl : FgLabel} (hf : s.fgs = .busy op lbl) : s.instrOf .fg = .next op := by
  simp [State.instrOf, State.fgInstr, hf]

/-- When the foreground has an instruction to run. -/
theorem instrOf_fg {i : Instr} : s.instrOf .fg = .next i ↔
    (∃ lbl, s.fgs = .busy i lbl)
      ∨ (s.fgs = .idle ∧ s.inIsr = false ∧ decode s.cfg s.prog s.cpc = .op i) := by
  simp only [State.instrOf, State.fgInstr]
  cases hf : s.fgs with
  | busy op lbl => simp
  | idle =>
    cases hi : s.inIsr with
    | true => simp
    | false => cases hd : decode s.cfg s.prog s.cpc <;> simp

/-- A step and what follows it answer a next state exactly when both do. -/
theorem andThen_next {o : Host.Outcome State Fault Refusal} {next : State → Host.Outcome State Fault Refusal} :
    andThen o next = .next t ↔ ∃ u, o = .next u ∧ next u = .next t := by
  cases o <;> simp [andThen]

@[simp] theorem runAs_nil : runAs [] s = .next s := rfl

theorem runAs_cons_next {c : Choice} {cs : List Choice} :
    runAs (c :: cs) s = .next t ↔ ∃ u, stepAs c s = .next u ∧ runAs cs u = .next t := by
  rw [runAs, andThen_next]

theorem runAs_append_next {cs ds : List Choice} :
    runAs (cs ++ ds) s = .next t ↔ ∃ u, runAs cs s = .next u ∧ runAs ds u = .next t := by
  induction cs generalizing s with
  | nil =>
    constructor
    · intro h
      exact ⟨s, rfl, h⟩
    · rintro ⟨u, h1, h2⟩
      cases h1
      exact h2
  | cons c cs ih =>
    constructor
    · intro h
      obtain ⟨u, h1, h2⟩ := runAs_cons_next.1 h
      obtain ⟨v, h3, h4⟩ := ih.1 h2
      exact ⟨v, runAs_cons_next.2 ⟨u, h1, h3⟩, h4⟩
    · rintro ⟨v, h1, h2⟩
      obtain ⟨u, h3, h4⟩ := runAs_cons_next.1 h1
      exact runAs_cons_next.2 ⟨u, h3, ih.2 ⟨v, h4, h2⟩⟩

/-- An invariant of every step that a schedule takes holds at its end. -/
theorem runAs_invariant {P : State → Prop} {cs : List Choice}
    (hstep : ∀ c ∈ cs, ∀ u v, P u → stepAs c u = .next v → P v) (hs : P s) (h : runAs cs s = .next t) : P t := by
  induction cs generalizing s with
  | nil => cases h; exact hs
  | cons c cs ih =>
    obtain ⟨u, h1, h2⟩ := runAs_cons_next.1 h
    exact ih (fun d hd => hstep d (List.mem_cons_of_mem _ hd)) (hstep c List.mem_cons_self s u hs h1) h2

/-! ### The result of a run -/

/-- A run at its end has its result: what comes later is no part of it (R260). -/
theorem runResult_of_runDone (hv : s.cfg.valid = true) (hd : s.runDone = true) (n : Nat) : runResult n s = .done s := by
  cases n <;> simp [runResult, hv, hd]

/-- One step of a run that is not at its end. -/
theorem runResult_succ (hd : s.runDone = false) {n : Nat} (h : step s = .next t) :
    runResult (n + 1) s = runResult n t := by
  simp [runResult, hd, h]

/-- The end state of a run is one at its end, and more steps do not change the result (R260). -/
theorem runResult_done {n : Nat} (h : runResult n s = .done t) :
    t.runDone = true ∧ ∀ m, n ≤ m → runResult m s = .done t := by
  induction n generalizing s with
  | zero =>
    unfold runResult at h
    split at h
    · rename_i hc
      cases h
      rw [Bool.and_eq_true] at hc
      exact ⟨hc.2, fun m _ => runResult_of_runDone hc.1 hc.2 m⟩
    · cases h
  | succ n ih =>
    unfold runResult at h
    split at h
    · rename_i hc
      cases h
      rw [Bool.and_eq_true] at hc
      exact ⟨hc.2, fun m _ => runResult_of_runDone hc.1 hc.2 m⟩
    · rename_i hc
      split at h
      · rename_i u hs
        refine ⟨(ih h).1, fun m hm => ?_⟩
        obtain ⟨m, rfl⟩ := Nat.exists_eq_succ_of_ne_zero (Nat.ne_of_gt (Nat.lt_of_lt_of_le n.succ_pos hm))
        rw [← (ih h).2 m (Nat.le_of_succ_le_succ hm)]
        unfold runResult
        rw [if_neg hc, hs]
        cases m <;> rfl
      · cases h
      · cases h

end Sys2Proof.Machine
end

