-- ==== Sys2Proof/Machine/Assembler.lean ====
section
/-! DEFINITION. The assembler syntax (R91) and the pseudo-operations (R92). A line is a list of characters. -/

namespace Sys2Proof

/-- The mnemonic of an operation, upper case (R85, R91). -/
def OpName.mnemonic : OpName → List Char
  | .enterCritical => ['E', 'N', 'T', 'E', 'R', '_', 'C', 'R', 'I', 'T', 'I', 'C', 'A', 'L']
  | .exitCritical => ['E', 'X', 'I', 'T', '_', 'C', 'R', 'I', 'T', 'I', 'C', 'A', 'L']
  | .clockInit => ['C', 'L', 'O', 'C', 'K', '_', 'I', 'N', 'I', 'T']
  | .currentTicks => ['C', 'U', 'R', 'R', 'E', 'N', 'T', '_', 'T', 'I', 'C', 'K', 'S']
  | .currentSeconds => ['C', 'U', 'R', 'R', 'E', 'N', 'T', '_', 'S', 'E', 'C', 'O', 'N', 'D', 'S']
  | .fineTicks => ['F', 'I', 'N', 'E', '_', 'T', 'I', 'C', 'K', 'S']
  | .fineMax => ['F', 'I', 'N', 'E', '_', 'M', 'A', 'X']
  | .wait => ['W', 'A', 'I', 'T']
  | .rebase => ['R', 'E', 'B', 'A', 'S', 'E']
  | .setSeconds => ['S', 'E', 'T', '_', 'S', 'E', 'C', 'O', 'N', 'D', 'S']

/-- Every foreground operation, in the order of R85. -/
def allOps : List OpName :=
  [.enterCritical, .exitCritical, .clockInit, .currentTicks, .currentSeconds, .fineTicks, .fineMax, .wait, .rebase,
    .setSeconds]

/-- The operation a name stands for: its mnemonic, or the document's lower-case alias (R91). -/
def opOfName (name : List Char) : Option OpName :=
  allOps.find? fun op => name = op.mnemonic || name = op.mnemonic.map Char.toLower

/-- A hexadecimal digit's value. -/
def hexDigit (ch : Char) : Option Nat :=
  let n := ch.toNat
  if 48 ≤ n ∧ n ≤ 57 then some (n - 48)
  else if 97 ≤ n ∧ n ≤ 102 then some (n - 87)
  else if 65 ≤ n ∧ n ≤ 70 then some (n - 55)
  else none

/-- Digits to a number in a base; none at a character that is no digit of it. -/
def readDigits (base acc : Nat) : List Char → Option Nat
  | [] => some acc
  | ch :: rest =>
    match hexDigit ch with
    | some d => if d < base then readDigits base (acc * base + d) rest else none
    | none => none

/-- An unsigned literal, decimal or `0x` hexadecimal (R91). -/
def readLiteral : List Char → Option Nat
  | [] => none
  | ['0', 'x'] => none
  | '0' :: 'x' :: ds => readDigits 16 0 ds
  | ds => readDigits 10 0 ds

/-- The text before a `;` comment (R91). -/
def dropComment (line : List Char) : List Char := line.takeWhile (· ≠ ';')

/-- The pieces of a text between separators, without the empty ones. -/
def splitOn (isSep : Char → Bool) : List Char → List Char → List (List Char)
  | acc, [] => if acc = [] then [] else [acc.reverse]
  | acc, ch :: rest =>
    if isSep ch then (if acc = [] then [] else [acc.reverse]) ++ splitOn isSep [] rest
    else splitOn isSep (ch :: acc) rest

/-- The fields of an operand list: the pieces between commas, an empty one too. -/
def splitCommas : List Char → List Char → List (List Char)
  | acc, [] => [acc.reverse]
  | acc, ch :: rest => if ch = ',' then acc.reverse :: splitCommas [] rest else splitCommas (ch :: acc) rest

/-- White space of a line. -/
def isBlank (ch : Char) : Bool := ch = ' ' || ch = '\t'

/-- One operand field: one literal with white space around it. -/
def readField (field : List Char) : Option Nat :=
  match splitOn isBlank [] field with
  | [lit] => readLiteral lit
  | _ => none

/-- Operand fields to numbers. -/
def readFields : List (List Char) → Option (List Nat)
  | [] => some []
  | f :: fs =>
    match readField f, readFields fs with
    | some x, some xs => some (x :: xs)
    | _, _ => none

/-- What a line of assembler text is (R91; log entry 23). -/
inductive AsmLine where
  | blank
  | op (i : Instr)
  | bad
deriving DecidableEq, Repr

/-- One line of assembler text: the mnemonic, then its operands separated by commas (R91). A literal of any size is
accepted: the line knows no configuration (DESIGN CHOICE, log entry 26). -/
def readLine (line : List Char) : AsmLine :=
  let body := (dropComment line).dropWhile isBlank
  let name := body.takeWhile (fun ch => !isBlank ch)
  let tail := (body.dropWhile (fun ch => !isBlank ch)).dropWhile isBlank
  if body = [] then .blank
  else
    match opOfName name with
    | none => .bad
    | some op =>
      match (if tail = [] then some [] else readFields (splitCommas [] tail)) with
      | none => .bad
      | some xs =>
        match op.withOperands xs with
        | some i => .op i
        | none => .bad

/-- The command stream of a list of operations (R80, R91). DESIGN CHOICE (log entry 26): R91 does not say what an assembler
does with a literal too wide for its operand. Here it is cut to the operand's words, so that in TC16 `EXIT_CRITICAL 0x10000`
gives `0x0002 0x0000`; a value that fits the words but not the operand's width stands in them whole, and the decoder refuses
it (`OPERAND_RANGE`). -/
def assembleStream (c : Config) (ops : List Instr) : List Word := (ops.map (encode c)).flatten

/-- The pseudo-operation CRITICAL around a body (R92); `m` is the value of the `RET` event of its
`ENTER_CRITICAL`, which the caller substitutes. -/
def criticalOps (m : Nat) (body : List Instr) : List Instr := [.enterCritical] ++ body ++ [.exitCritical m]

/-- The pseudo-operation `SAFE_REBASE t, h` (R92). -/
def safeRebaseOps (m t h : Nat) : List Instr := criticalOps m [.rebase t h]

end Sys2Proof
end

