-- ==== Sys2Proof/Tests/Slice0.lean ====
section
/-! SUPPORT. Tests on fixed values, with expected results from the spec's own vectors (95_test_vectors.md) and rules, and
a witness for the hypotheses of every statement that has some. -/

namespace Sys2Proof.Tests

open Sys2Proof Sys2Proof.Machine

/-! ### Helpers -/

/-- `B0`, the state that `CLOCK_INIT` leaves (R111), in TC16 with a command stream. -/
def b0 (prog : List Word) : State :=
  { State.por tc16 prog 0 0 [] [] with ccr := 256, gie := true, cmpie := true, run := true }

/-- `b0` with the compare match pending and the counter at the deadline. -/
def pending (prog : List Word) : State := { b0 prog with hwcnt := 256, cmpifg := true }

/-- `b0` inside the handler at a phase. -/
def inHandler (p : Phase) : State := { b0 [] with inIsr := true, iph := p }

/-- The outcome is a next state with a property. -/
def answers (o : Host.Outcome State Fault Refusal) (p : State → Bool) : Bool :=
  match o with
  | .next t => p t
  | .fault _ => false
  | .refused _ => false

/-- The outcome is a fault. -/
def faults (o : Host.Outcome State Fault Refusal) (f : Fault) : Bool :=
  match o with
  | .next _ => false
  | .fault g => decide (g = f)
  | .refused _ => false

theorem next_of {o : Host.Outcome State Fault Refusal} {p : State → Bool} (h : answers o p = true) :
    ∃ t, o = .next t ∧ p t = true := by
  cases o with
  | next t => exact ⟨t, rfl, h⟩
  | fault f => cases h
  | refused r => cases h

theorem wf_of {s : State}
    (h : s.cfg.valid = true ∧ (s.iph = .none ↔ s.inIsr = false) ∧ s.ticks < 2 ^ s.cfg.wTick
      ∧ s.seconds < 2 ^ s.cfg.wSec ∧ s.hwcnt < 2 ^ s.cfg.wHw ∧ s.ccr < 2 ^ s.cfg.wHw ∧ s.last < 2 ^ s.cfg.wHw
      ∧ s.ih < 2 ^ s.cfg.wHw ∧ s.it < 2 ^ s.cfg.wTick ∧ s.fgs.fits s.cfg = true) : s.Wf :=
  ⟨h.1, h.2.1, h.2.2.1, h.2.2.2.1, h.2.2.2.2.1, h.2.2.2.2.2.1, h.2.2.2.2.2.2.1, h.2.2.2.2.2.2.2.1,
    h.2.2.2.2.2.2.2.2.1, h.2.2.2.2.2.2.2.2.2⟩

/-- The configuration of V1 whose operand widths are not multiples of 16. -/
def narrowConfig : Config where
  wWord := 8
  wHw := 8
  wTick := 24
  wSec := 24
  tps := 128
  hwRate := 16384
  interval := 128
  wordOrder := .highFirst

/-! ### Well-formedness: each operand check refuses an ill-formed term (R83), each constraint a configuration (R7, V12) -/

theorem test_wf_mask : (Instr.exitCritical 0x10000).wf tc16 = false ∧ (Instr.exitCritical 0xFFFF).wf tc16 = true := by
  decide
theorem test_wf_wait : (Instr.wait (2 ^ 32)).wf tc16 = false ∧ (Instr.wait (2 ^ 32 - 1)).wf tc16 = true := by decide
theorem test_wf_rebase_tick : (Instr.rebase (2 ^ 32) 0).wf tc16 = false := by decide
theorem test_wf_rebase_counter : (Instr.rebase 0 0x10000).wf tc16 = false ∧ (Instr.rebase 5 0xFFFF).wf tc16 = true := by
  decide
theorem test_wf_seconds : (Instr.setSeconds (2 ^ 32)).wf tc16 = false := by decide
theorem test_config_legal : tc16.valid = true ∧ narrowConfig.valid = true := by decide
theorem test_config_tps : ({ tc16 with tps := 100, interval := 327 } : Config).valid = false := by decide
theorem test_config_interval_zero : ({ tc16 with tps := 65536, interval := 0 } : Config).valid = false := by decide
theorem test_config_interval_wide : ({ tc16 with wHw := 8 } : Config).valid = false := by decide
theorem test_config_word : ({ tc16 with wWord := 7, wHw := 7, wTick := 16, wSec := 16 } : Config).valid = false := by decide
theorem test_config_counter_wider_than_word : ({ tc16 with wHw := 17 } : Config).valid = false := by decide
theorem test_config_tick_too_wide : ({ tc16 with wTick := 129 } : Config).valid = false := by decide
theorem test_config_tick_zero : ({ tc16 with wTick := 0 } : Config).valid = false := by decide
theorem test_config_seconds_too_wide : ({ tc16 with wSec := 129 } : Config).valid = false := by decide
theorem test_config_seconds_zero : ({ tc16 with wSec := 0 } : Config).valid = false := by decide
theorem test_config_interval_other : ({ tc16 with interval := 255 } : Config).valid = false := by decide
theorem test_config_rate : ({ tc16 with hwRate := 0, interval := 0 } : Config).valid = false := by decide

/-! ### Decoding: words written out from R81, R85 and R86, bit by bit: class, reserved, code -/

theorem test_decode_enterCritical : decode tc16 [0b0000_0000_0000_0001] 0 = .op .enterCritical := by decide
theorem test_decode_exitCritical : decode tc16 [0b0000_0000_0000_0010, 0x0001] 0 = .op (.exitCritical 1) := by decide
theorem test_decode_clockInit : decode tc16 [0b0000_0000_0001_0000] 0 = .op .clockInit := by decide
theorem test_decode_currentTicks : decode tc16 [0b0000_0000_0010_0000] 0 = .op .currentTicks := by decide
theorem test_decode_currentSeconds : decode tc16 [0b0000_0000_0010_0001] 0 = .op .currentSeconds := by decide
theorem test_decode_fineTicks : decode tc16 [0b0000_0000_0010_0010] 0 = .op .fineTicks := by decide
theorem test_decode_fineMax : decode tc16 [0b0000_0000_0010_0011] 0 = .op .fineMax := by decide
theorem test_decode_wait : decode tc16 [0b0000_0000_0010_0100, 0x012C, 0x0000] 0 = .op (.wait 300) := by decide
theorem test_decode_rebase :
    decode tc16 [0b0000_0000_0011_0000, 0x2345, 0x0001, 0x1000] 0 = .op (.rebase 0x00012345 0x1000) := by decide
theorem test_decode_setSeconds : decode tc16 [0b0000_0000_0011_0001, 0x0005, 0x0000] 0 = .op (.setSeconds 5) := by decide
theorem test_decode_tmrCount : decodeLabel 0b1000_0000_0000_0001 = .ok .tmrCount := by decide
theorem test_decode_hostStop : decodeLabel 0b1000_0000_0000_0010 = .ok .hostStop := by decide
theorem test_decode_hostStart : decodeLabel 0b1000_0000_0000_0011 = .ok .hostStart := by decide
theorem test_decode_isrEntry : decodeLabel 0b1000_0000_0001_0000 = .ok .isrEntry := by decide
theorem test_decode_isrRearm : decodeLabel 0b1000_0000_0001_0001 = .ok .isrRearm := by decide
theorem test_decode_isrTest : decodeLabel 0b1000_0000_0001_0010 = .ok .isrTest := by decide
theorem test_decode_isrSnapshot : decodeLabel 0b1000_0000_0001_0011 = .ok .isrSnapshot := by decide
theorem test_decode_isrEventcheck : decodeLabel 0b1000_0000_0001_0100 = .ok .isrEventcheck := by decide
theorem test_decode_isrExit : decodeLabel 0b1000_0000_0001_0101 = .ok .isrExit := by decide

/-- The refusals of V1, in TC16. -/
theorem test_decode_refusals :
    decode tc16 [0x0120] 0 = .refused .reservedBits ∧ decode tc16 [0x8120] 0 = .refused .reservedBits
      ∧ decode tc16 [0x8001] 0 = .refused .notIssuable ∧ decode tc16 [0x1020] 0 = .refused .reservedClass
      ∧ decode tc16 [0x0000] 0 = .refused .unassignedOp ∧ decode tc16 [0x0025] 0 = .refused .unassignedOp
      ∧ decode tc16 [0x0024, 0x0001] 0 = .refused .truncated
      ∧ decode tc16 [0x0030, 0x0000, 0x0000] 0 = .refused .truncated := by decide

/-- The operand range tests of V1. -/
theorem test_decode_operand_range :
    decode narrowConfig [0x0002, 0x0100] 0 = .refused .operandRange
      ∧ decode narrowConfig [0x0002, 0x00FF] 0 = .op (.exitCritical 255)
      ∧ decode narrowConfig [0x0024, 0x0000, 0x0100] 0 = .refused .operandRange
      ∧ decode narrowConfig [0x0024, 0xFFFF, 0x00FF] 0 = .op (.wait 0xFFFFFF) := by decide

/-- The end of the stream (R31, R87), and an operation that does not start at its beginning (P2). -/
theorem test_decode_in_stream :
    decode tc16 [0x0010, 0x0001, 0x0030, 0x2345, 0x0001, 0x1000, 0x0002, 0x0001, 0x0020] 2 = .op (.rebase 0x12345 0x1000)
      ∧ decode tc16 [0x0010] 1 = .done ∧ decode tc16 [] 0 = .done := by decide

theorem test_decode_label_refusals :
    decodeLabel 0x8120 = .error .reservedBits ∧ decodeLabel 0x0001 = .error .reservedClass
      ∧ decodeLabel 0x8004 = .error .unassignedOp := by decide

/-- The stream of P2 from its operations (R91, R92). -/
theorem test_assemble_program :
    assembleStream tc16 ([.clockInit] ++ safeRebaseOps 1 0x12345 0x1000 ++ [.currentTicks])
      = [0x0010, 0x0001, 0x0030, 0x2345, 0x0001, 0x1000, 0x0002, 0x0001, 0x0020] := by decide

/-- A line of R91: mnemonic or alias, decimal or hexadecimal operands, a comment. -/
theorem test_assembler_line :
    readLine "REBASE 0x00012345, 4096 ; new base".toList = .op (.rebase 0x12345 0x1000)
      ∧ readLine "wait 300".toList = .op (.wait 300) ∧ readLine "; only a comment".toList = .blank
      ∧ readLine "WAIT".toList = .bad ∧ readLine "ISR_EXIT".toList = .bad := by decide

theorem test_table_words :
    decodeTableWord 16 0x0024 = some (.wait 0) ∧ decodeTableWord 16 0x8015 = some .isrExit
      ∧ decodeTableWord 32 0x00030002 = some (.exitCritical 3) ∧ decodeTableWord 16 0x0025 = none := by decide

/-- The first step after reset runs the placed instruction: an operation, and a step label. -/
theorem test_fetch :
    answers (step (State.reset.withFetchWord 32 0x00010002)) (fun t => t.gie && decide (t.cpc = 2)) = true
      ∧ answers (step (State.reset.withFetchWord 16 0x8001)) (fun t => decide (t.hwcnt = 1)) = true := by decide

/-! ### One step of each instruction, from the vectors named -/

/-- V2.1. -/
theorem test_enterCritical_enabled :
    answers (exec .enterCritical (b0 [])) (fun t => !t.gie && decide (t.hist = [.ret .enterCritical (some 1)])) = true := by
  decide
/-- V2.2. -/
theorem test_enterCritical_masked :
    answers (exec .enterCritical { b0 [] with gie := false })
      (fun t => !t.gie && decide (t.hist = [.ret .enterCritical (some 0)])) = true := by decide
/-- V2.5 and V2.6: bit 0 alone counts. -/
theorem test_exitCritical_bit0 :
    answers (exec (.exitCritical 0xFFFE) { b0 [] with gie := false }) (fun t => !t.gie) = true
      ∧ answers (exec (.exitCritical 3) { b0 [] with gie := false }) (fun t => t.gie) = true := by decide
/-- V2.7. -/
theorem test_exitCritical_keeps : answers (exec (.exitCritical 0) (b0 [])) (fun t => t.gie) = true := by decide
/-- V3.2. -/
theorem test_clockInit_again :
    answers
      (exec .clockInit
        { b0 [] with
          ticks := 500, seconds := 3, hwcnt := 9000, ccr := 9216, last := 8999, cmpifg := true, gie := false })
      (fun t => decide (t = { b0 [] with cpc := 1, hist := [.hwinit, .ret .clockInit none] })) = true := by decide
/-- V8.2: the torn first sample, and the last read of the third. -/
theorem test_currentTicks_torn :
    answers
      (exec .currentTicks { b0 [] with ticks := 0x10000, fgs := .busy .currentTicks (.sample none [0xFFFF]) })
      (fun t => decide (t.fgs = .busy .currentTicks (.sample (some 0x1FFFF) []))) = true
    ∧ answers
      (exec .currentTicks { b0 [] with ticks := 0x10000, fgs := .busy .currentTicks (.sample (some 0x10000) [0]) })
      (fun t => decide (t.fgs = .idle ∧ t.hist = [.ret .currentTicks (some 0x10000)])) = true := by decide
/-- V8.3: high word first. -/
theorem test_currentTicks_high_first :
    answers
      (exec .currentTicks
        { b0 [] with
          cfg := { tc16 with wordOrder := .highFirst }
          ticks := 0x10000, fgs := .busy .currentTicks (.sample none [0]) })
      (fun t => decide (t.fgs = .busy .currentTicks (.sample (some 0) []))) = true := by decide
/-- The last of the reads of V8.5. -/
theorem test_currentSeconds :
    answers
      (exec .currentSeconds
        { b0 [] with seconds := 0x30005, gie := false, fgs := .busy .currentSeconds (.sample (some 0x30005) [5]) })
      (fun t => decide (t.hist = [.ret .currentSeconds (some 0x30005)] ∧ t.cpc = 1)) = true := by decide
/-- V9.2: the snapshot read is held while the live counter is read. -/
theorem test_fineTicks_wrap :
    answers (exec .fineTicks { b0 [] with hwcnt := 20, last := 1, fgs := .busy .fineTicks (.fineHwcnt 65500) })
      (fun t => decide (t.hist = [.ret .fineTicks (some 56)])) = true := by decide
/-- V9.4, its first micro-step. -/
theorem test_fineTicks_snapshot :
    answers (exec .fineTicks { b0 [] with hwcnt := 260, last := 256 })
      (fun t => decide (t.fgs = .busy .fineTicks (.fineHwcnt 256))) = true := by decide
/-- V9.7. -/
theorem test_fineMax : answers (exec .fineMax (b0 [])) (fun t => decide (t.hist = [.ret .fineMax (some 256)])) = true := by
  decide
/-- V10.2: at `now = 0` the wait goes on. -/
theorem test_wait_goes_on :
    answers
      (exec (.wait 3) { b0 [] with fgs := .busy (.wait 3) (.waitNow 0xFFFFFFFE (some 0) [0]) })
      (fun t => decide (t.fgs = .busy (.wait 3) (.waitNow 0xFFFFFFFE none []) ∧ t.hist = [])) = true := by decide
/-- V10.2: at `now = 1` it returns. -/
theorem test_wait_returns :
    answers
      (exec (.wait 3) { b0 [] with ticks := 1, fgs := .busy (.wait 3) (.waitNow 0xFFFFFFFE (some 1) [1]) })
      (fun t => decide (t.fgs = .idle ∧ t.cpc = 3 ∧ t.hist = [.ret .wait none])) = true := by decide
/-- V11.2: the deadline wraps. -/
theorem test_rebase_deadline :
    answers (exec (.rebase 0 65400) { b0 [] with fgs := .busy (.rebase 0 65400) .rebaseCcr })
      (fun t => decide (t.ccr = 120)) = true := by decide
/-- V11.8, its last word write: neither the old nor the new tick value. -/
theorem test_rebase_last_word :
    answers
      (exec (.rebase 0x2FFFF 0x1000) { b0 [] with ticks := 0x20000, fgs := .busy (.rebase 0x2FFFF 0x1000) (.rebaseTicks 1) })
      (fun t => decide (t.ticks = 0x20000 ∧ t.fgs = .idle ∧ t.cpc = 4)) = true := by decide
/-- V11.4. -/
theorem test_setSeconds :
    answers (exec (.setSeconds 5) { b0 [] with seconds := 7 })
      (fun t => decide (t.seconds = 7 ∧ t.hist = [.ret .setSeconds none])) = true := by decide
/-- V4.3: a match on the wrap. -/
theorem test_tmrCount_wrap :
    answers (exec .tmrCount { b0 [] with hwcnt := 0xFFFF, ccr := 0 }) (fun t => decide (t.hwcnt = 0) && t.cmpifg) = true := by
  decide
/-- V4.4 and V4.2: the flag is kept, set or clear. -/
theorem test_tmrCount_keeps_flag :
    answers (exec .tmrCount (pending [])) (fun t => decide (t.hwcnt = 257) && t.cmpifg) = true
      ∧ answers (exec .tmrCount { b0 [] with hwcnt := 0xFFFF }) (fun t => decide (t.hwcnt = 0) && !t.cmpifg) = true := by
  decide
/-- V4.5. -/
theorem test_hostStop :
    answers (exec .hostStop (b0 [])) (fun t => !t.run && faults (exec .tmrCount t) .counterStopped) = true := by decide
/-- V4.6. -/
theorem test_hostStart : answers (exec .hostStart { b0 [] with run := false }) (fun t => t.run) = true := by decide
/-- V5.1. -/
theorem test_isrEntry :
    answers (exec .isrEntry (pending []))
      (fun t => t.inIsr && !t.cmpifg && t.gie && decide (t.hist = [.energestOn, .wdtStart])) = true := by decide
/-- V5.11. -/
theorem test_isrEntry_needs_all :
    faults (exec .isrEntry { pending [] with gie := false }) .entryNotEnabled = true
      ∧ faults (exec .isrEntry { pending [] with cmpie := false }) .entryNotEnabled = true
      ∧ faults (exec .isrEntry { pending [] with inIsr := true, iph := .exit }) .entryNotEnabled = true := by decide
/-- V5.6: the tick counter wraps to a multiple of `TPS`. -/
theorem test_isrRearm_wrap :
    answers (exec .isrRearm { inHandler .rearm with ticks := 0xFFFFFFFF })
      (fun t => decide (t.ticks = 0 ∧ t.seconds = 1 ∧ t.ccr = 512 ∧ t.hist = [.energestFlush])) = true := by decide
/-- V5.4: the deadline wraps. -/
theorem test_isrRearm_deadline :
    answers (exec .isrRearm { inHandler .rearm with ccr := 0xFF00, ticks := 126 })
      (fun t => decide (t.ticks = 127 ∧ t.seconds = 0 ∧ t.ccr = 0 ∧ t.hist = [])) = true := by decide
/-- V5.3: a lead of 0 goes on. -/
theorem test_isrTest_zero :
    answers (exec .isrTest { inHandler .test with ccr := 768, hwcnt := 768 })
      (fun t => decide (t.iph = .rearm ∧ t.ih = 768)) = true := by decide
/-- A lead of `INTERVAL` chooses the snapshot (V5.12), one more goes on (R128). -/
theorem test_isrTest_bound :
    answers (exec .isrTest { inHandler .test with ccr := 768, hwcnt := 512 }) (fun t => decide (t.iph = .snap)) = true
      ∧ answers (exec .isrTest { inHandler .test with ccr := 768, hwcnt := 511 }) (fun t => decide (t.iph = .rearm)) = true := by
  decide
/-- V5.1. -/
theorem test_isrSnapshot :
    answers (exec .isrSnapshot { inHandler .snap with hwcnt := 260, ih := 259 })
      (fun t => decide (t.last = 260 ∧ t.iph = .check)) = true := by decide
/-- V7: due at equality. -/
theorem test_isrEventcheck_due :
    answers (exec .isrEventcheck { inHandler .check with ticks := 1000, answers := [some 1000] })
      (fun t => decide (t.hist = [.schedPendingQ true, .schedNextQ 1000, .pollReq, .lpmExitReq])) = true := by decide
/-- V7: not due one tick early, and nothing pending. -/
theorem test_isrEventcheck_not_due :
    answers (exec .isrEventcheck { inHandler .check with ticks := 1000, answers := [some 1001] })
      (fun t => decide (t.hist = [.schedPendingQ true, .schedNextQ 1001])) = true
    ∧ answers (exec .isrEventcheck { inHandler .check with ticks := 1000, answers := [none] })
      (fun t => decide (t.hist = [.schedPendingQ false] ∧ t.iph = .exit)) = true := by decide
/-- V5.1. -/
theorem test_isrExit :
    answers (exec .isrExit (inHandler .exit))
      (fun t => !t.inIsr && decide (t.iph = .none ∧ t.hist = [.wdtStop, .energestOff])) = true := by decide
/-- V6, with `W_TICK = 16` (S5). -/
theorem test_due :
    due { tc16 with wTick := 16 } 4 65530 = false ∧ due { tc16 with wTick := 16 } 4 3 = false
      ∧ due { tc16 with wTick := 16 } 4 4 = true ∧ due { tc16 with wTick := 16 } 4 32771 = true
      ∧ due { tc16 with wTick := 16 } 4 32772 = false ∧ due tc16 0xFFFFFFF0 5 = true := by decide

/-! ### Runs -/

/-- R260: the result is the state at which the foreground becomes done, without the host's later step; a run whose
foreground is not done has only its history, and a refused one neither. -/
theorem test_runResult :
    (match runResult 3 (State.por tc16 [0x0023] 0 0 [.fg, .hostStart, .hostStart] []) with
      | .done t => !t.run && decide (t.sched = [.hostStart, .hostStart])
      | _ => false) = true
    ∧ runResult 1 (State.por tc16 [0x0020] 0 0 [.fg] []) = .unfinished []
    ∧ runResult 1 (State.por tc16 [0x8001] 0 0 [.fg] []) = .refused (.decoder .notIssuable) := by decide

/-- A read that no handler step disturbs, state by state: four word reads, then rest. -/
def quietRead : Nat → State
  | 0 => { b0 [0x0020] with sched := [.fg, .fg, .fg, .fg, .hostStop] }
  | 1 => { b0 [0x0020] with sched := [.fg, .fg, .fg, .hostStop], fgs := .busy .currentTicks (.sample none [0]) }
  | 2 => { b0 [0x0020] with sched := [.fg, .fg, .hostStop], fgs := .busy .currentTicks (.sample (some 0) []) }
  | 3 => { b0 [0x0020] with sched := [.fg, .hostStop], fgs := .busy .currentTicks (.sample (some 0) [0]) }
  | _ => { b0 [0x0020] with sched := [.hostStop], cpc := 1, hist := [.ret .currentTicks (some 0)] }

theorem quietRead_steps :
    ∀ n, n < 4 → answers (step (quietRead n)) (fun t => decide (t = quietRead (n + 1))) = true := by decide

/-- The one word read that each index takes. -/
def quietSample : Nat → Option Nat × List Nat
  | 0 => (none, [])
  | 1 => (none, [0])
  | 2 => (some 0, [])
  | _ => (some 0, [0])

theorem quietRead_samples {k : Nat} {secs : Bool} {a : Option Nat} {w : List Nat} :
    (quietRead k).Samples secs a w ↔ k < 4 ∧ secs = false ∧ quietSample k = (a, w) := by
  unfold State.Samples Runs
  match k with
  | 0 => simp [show (quietRead 0).choice = .fg from rfl, show (quietRead 0).instrOf .fg = .next .currentTicks from rfl,
      show (quietRead 0).currentLabel = .sample none [] from rfl, quietSample]
  | 1 => simp [show (quietRead 1).choice = .fg from rfl, show (quietRead 1).instrOf .fg = .next .currentTicks from rfl,
      show (quietRead 1).currentLabel = .sample none [0] from rfl, quietSample]
  | 2 => simp [show (quietRead 2).choice = .fg from rfl, show (quietRead 2).instrOf .fg = .next .currentTicks from rfl,
      show (quietRead 2).currentLabel = .sample (some 0) [] from rfl, quietSample]
  | 3 => simp [show (quietRead 3).choice = .fg from rfl, show (quietRead 3).instrOf .fg = .next .currentTicks from rfl,
      show (quietRead 3).currentLabel = .sample (some 0) [0] from rfl, quietSample]
  | k + 4 => simp [show (quietRead (k + 4)).choice = .hostStop from rfl]

/-- `P_QUIET` holds where a read ends (R165, R250). -/
theorem test_quiet_read : PQuiet quietRead ∧ ∃ n v, (quietRead n).EndsReadSync false v := by
  have ends : (quietRead 3).EndsReadSync false 0 := ⟨some 0, [0], quietRead_samples.2 (by decide), by decide⟩
  refine ⟨fun secs m₀ h => ?_, 3, 0, ends⟩
  obtain ⟨h1, rfl, h2⟩ := quietRead_samples.1 h
  have key : ∀ m, m < 4 → quietSample m = (none, []) → m = 0 := by decide
  obtain rfl := key m₀ h1 h2
  refine ⟨0, 2, 3, by decide, ⟨by decide, by decide, ⟨none, h⟩, ⟨some 0, quietRead_samples.2 (by decide)⟩,
    ⟨some 0, [0], quietRead_samples.2 (by decide), by decide⟩, ?_, ?_⟩, ?_, ?_⟩
  · rintro k h3 - h5 ⟨a, hs⟩
    obtain ⟨h6, -, h7⟩ := quietRead_samples.1 hs
    have : ∀ k, k < 4 → 0 < k → k ≠ 2 → (quietSample k).2 ≠ [] := by decide
    exact this k h6 h3 h5 (by rw [h7])
  · rintro k h3 h4 ⟨a, w, hs, hw⟩
    obtain ⟨-, -, h7⟩ := quietRead_samples.1 hs
    obtain rfl : k = 2 := by omega
    cases h7
    exact absurd hw (by decide)
  · rintro k v - h4 ⟨a, w, hs, hv⟩
    obtain ⟨-, -, h7⟩ := quietRead_samples.1 hs
    match k with
    | 0 => cases h7; cases hv
    | 1 => cases h7; cases hv
    | 2 => cases h7; cases hv
    | k + 3 => omega
  · intro k _ h4
    have : ∀ k, k < 4 → (quietRead k).sampled false = (quietRead 0).sampled false := by decide
    exact this k (by omega)

/-! ### Witnesses: for each statement with hypotheses, states and operands that meet them -/

theorem of_next {o : Host.Outcome State Fault Refusal} {p : State → Bool} {t : State} (h : o = .next t)
    (ha : answers o p = true) : p t = true := by
  subst h
  exact ha

theorem witness_PowerOnResetSetsEveryRegister :
    ∃ (c : Config) (h0 c0 : Nat), c.valid = true ∧ h0 < 2 ^ c.wHw ∧ c0 < 2 ^ c.wHw ∧ h0 = 0xFFFF ∧ c0 = 0 :=
  ⟨tc16, 0xFFFF, 0, by decide⟩

theorem witness_ResetMeetsTheInvariants : ∃ c : Config, c.valid = true := ⟨narrowConfig, by decide⟩

/-- Clause by clause: an operation begun, one in progress, each handler phase, the counter, the host, a supplied and an
ended schedule. -/
theorem witness_StepRunsTheChosenAgentsInstruction :
    tc16.valid = true
    ∧ (∃ (s : State) (i : Instr), s.cfg = tc16 ∧ s.choice = .fg ∧ s.inIsr = false ∧ s.fgs = .idle ∧ decode s.cfg s.prog s.cpc = .op i)
    ∧ (∃ (s : State) (op : Instr) (lbl : FgLabel), s.cfg = tc16 ∧ s.choice = .fg ∧ s.fgs = .busy op lbl)
    ∧ (∀ p : Phase, ∃ s : State, s.cfg = tc16 ∧ s.choice = .isr ∧ s.iph = p)
    ∧ (∃ s : State, s.cfg = tc16 ∧ s.choice = .tmr) ∧ (∃ s : State, s.cfg = tc16 ∧ s.choice = .hostStop)
    ∧ (∃ s : State, s.cfg = tc16 ∧ s.choice = .hostStart)
    ∧ (∃ (s : State) (c : Choice) (cs : List Choice), s.cfg = tc16 ∧ s.sched = c :: cs)
    ∧ ∃ s : State, s.cfg = tc16 ∧ s.sched = [] :=
  ⟨by decide, ⟨{ b0 [0x0020] with sched := [.fg] }, .currentTicks, by decide⟩,
    ⟨{ b0 [0x0020] with sched := [.fg], fgs := .busy .currentTicks (.sample none [0]) }, .currentTicks,
      .sample none [0], by decide⟩,
    fun p => ⟨{ inHandler p with sched := [.isr] }, rfl, rfl, rfl⟩,
    ⟨{ b0 [] with sched := [.tmr] }, by decide⟩, ⟨{ b0 [] with sched := [.hostStop] }, by decide⟩,
    ⟨{ b0 [] with sched := [.hostStart] }, by decide⟩, ⟨{ b0 [] with sched := [.tmr, .fg] }, .tmr, [.fg], by decide⟩,
    ⟨State.reset, by decide⟩⟩

theorem witness_StepRefusesByName :
    ∃ (s : State) (r : DecodeRefusal), s.cfg.valid = true ∧ s.choice = .fg ∧ s.inIsr = false ∧ s.fgs = .idle
      ∧ decode s.cfg s.prog s.cpc = .refused r :=
  ⟨{ b0 [0x8001] with sched := [.fg] }, .notIssuable, by decide⟩

theorem witness_AgentsStepExactlyWhenEnabled :
    (∃ s : State, s.Wf ∧ s.inIsr = false ∧ s.cmpifg = true ∧ s.run = true ∧ s.fgs = .idle
      ∧ decode s.cfg s.prog s.cpc = .op .currentTicks)
    ∧ ∃ s : State, s.Wf ∧ s.inIsr = true ∧ s.run = false :=
  ⟨⟨pending [0x0020], wf_of (by decide), by decide⟩,
    ⟨{ inHandler .exit with run := false }, wf_of (by decide), by decide⟩⟩

theorem witness_FreeChoiceIsEnabled : ∃ s : State, s.Wf ∧ s.sched = [] ∧ s.enabled.length = 5 :=
  ⟨pending [0x0020], wf_of (by decide), by decide⟩

/-- The premises of the statements about the start of a one-step operation; with the flag pending, for
`EXIT_CRITICAL`. -/
theorem witness_idle_foreground :
    ∃ s : State, s.inIsr = false ∧ s.fgs = .idle ∧ s.cmpifg = true ∧ s.cmpie = true := ⟨pending [], by decide⟩

theorem witness_ExitCriticalRestoresEnable :
    ∃ (m : Nat) (s : State), s.inIsr = false ∧ s.fgs = .idle ∧ m % 2 = 1 ∧ s.cmpifg = true ∧ s.cmpie = true :=
  ⟨0xFFFF, { pending [] with gie := false }, by decide⟩

theorem witness_EnableFlagHasThreeWriters :
    (∃ s t : State, exec .enterCritical s = .next t ∧ t.gie ≠ s.gie)
    ∧ (∃ s t : State, exec (.exitCritical 1) s = .next t ∧ t.gie ≠ s.gie)
    ∧ ∃ s t : State, exec .clockInit s = .next t ∧ t.gie ≠ s.gie := by
  refine ⟨⟨b0 [], ?_⟩, ⟨{ b0 [] with gie := false }, ?_⟩, ⟨{ b0 [] with gie := false }, ?_⟩⟩
  · obtain ⟨t, h, hp⟩ := next_of (by decide : answers (exec .enterCritical (b0 [])) (fun t => !t.gie) = true)
    exact ⟨t, h, by simp_all [b0]⟩
  · obtain ⟨t, h, hp⟩ :=
      next_of (by decide : answers (exec (.exitCritical 1) { b0 [] with gie := false }) (fun t => t.gie) = true)
    exact ⟨t, h, by simp_all⟩
  · obtain ⟨t, h, hp⟩ :=
      next_of (by decide : answers (exec .clockInit { b0 [] with gie := false }) (fun t => t.gie) = true)
    exact ⟨t, h, by simp_all⟩

theorem witness_MaskedForegroundKeepsHandlerOut :
    ∃ s t, step s = .next t ∧ s.inIsr = false ∧ s.gie = false ∧ s.cmpifg = true := by
  obtain ⟨t, h, -⟩ := next_of
    (by decide : answers (step { pending [] with gie := false, sched := [.tmr] }) (fun _ => true) = true)
  exact ⟨_, t, h, by decide⟩

theorem witness_FirstMatchAfterOneInterval :
    ∃ (n : Nat) (s t : State), s.cfg.valid = true ∧ s.inIsr = false ∧ s.fgs = .idle ∧ exec .clockInit s = .next t
      ∧ n ≤ s.cfg.interval ∧ n = 256 := by
  obtain ⟨t, h, -⟩ := next_of (by decide : answers (exec .clockInit (pending [])) (fun _ => true) = true)
  exact ⟨256, _, t, by decide, by decide, by decide, h, by decide, rfl⟩

/-- From reset: nothing is enabled, and the foreground reads. -/
theorem witness_NothingTicksBeforeClockInit :
    ∃ s t : State, s.Wf ∧ step s = .next t ∧ s.cmpie = false ∧ s.inIsr = false ∧ s.run = false
      ∧ s.instrOf s.choice = .next .currentTicks := by
  obtain ⟨t, h, -⟩ := next_of
    (by decide : answers (step (State.por tc16 [0x0020] 7 9 [.fg] [])) (fun _ => true) = true)
  exact ⟨_, t, wf_of (by decide), h, by decide, by decide, by decide, rfl⟩

theorem witness_CounterCountsAndMatches : (∃ s : State, s.run = true) ∧ ∃ s : State, s.run = false :=
  ⟨⟨b0 [], by decide⟩, ⟨State.reset, by decide⟩⟩

theorem witness_PendingFlagWriters :
    (∃ s t : State, exec .tmrCount s = .next t ∧ s.cmpifg = false ∧ t.cmpifg = true)
    ∧ (∃ s t : State, exec .isrEntry s = .next t ∧ s.cmpifg = true ∧ t.cmpifg = false)
    ∧ ∃ s t : State, exec .clockInit s = .next t ∧ s.cmpifg = true ∧ t.cmpifg = false := by
  refine ⟨⟨{ b0 [] with hwcnt := 255 }, ?_⟩, ⟨pending [], ?_⟩, ⟨pending [], ?_⟩⟩
  · obtain ⟨t, h, hp⟩ :=
      next_of (by decide : answers (exec .tmrCount { b0 [] with hwcnt := 255 }) (fun t => t.cmpifg) = true)
    exact ⟨t, h, by decide, hp⟩
  · obtain ⟨t, h, hp⟩ := next_of (by decide : answers (exec .isrEntry (pending [])) (fun t => !t.cmpifg) = true)
    exact ⟨t, h, by decide, by simpa using hp⟩
  · obtain ⟨t, h, hp⟩ := next_of (by decide : answers (exec .clockInit (pending [])) (fun t => !t.cmpifg) = true)
    exact ⟨t, h, by decide, by simpa using hp⟩

theorem witness_EntryNeedsAllFourEnables :
    (∃ s : State, s.cmpifg = true ∧ s.cmpie = true ∧ s.gie = true ∧ s.inIsr = false)
    ∧ ∃ s : State, s.cmpifg = false ∧ s.cmpie = true ∧ s.gie = true ∧ s.inIsr = false :=
  ⟨⟨pending [], by decide⟩, ⟨b0 [], by decide⟩⟩

theorem witness_RearmCountsOneDeadline :
    ∃ s : State, s.cfg.valid = true ∧ s.iph = .rearm ∧ s.ticks = 0xFFFFFFFF :=
  ⟨{ inHandler .rearm with ticks := 0xFFFFFFFF }, by decide⟩

theorem witness_TestStopsWhenDeadlineIsAhead :
    ∃ s : State, s.Wf ∧ s.iph = .test ∧ s.ccr = s.hwcnt :=
  ⟨{ inHandler .test with hwcnt := 256 }, wf_of (by decide), by decide⟩

theorem witness_SnapshotTakesTheLiveCounter : ∃ s : State, s.iph = .snap := ⟨inHandler .snap, by decide⟩

theorem witness_EventCheckSignalsADueEvent :
    (∃ (s : State) (rest : List (Option Nat)), s.iph = .check ∧ s.answers = none :: rest)
    ∧ (∃ (s : State) (x : Nat) (rest : List (Option Nat)), s.iph = .check ∧ s.answers = some x :: rest ∧ x = s.ticks)
    ∧ ∃ s : State, s.iph = .check ∧ s.answers = [] :=
  ⟨⟨{ inHandler .check with answers := [none] }, [], by decide⟩,
    ⟨{ inHandler .check with ticks := 9, answers := [some 9, none] }, 9, [none], by decide⟩,
    ⟨inHandler .check, by decide⟩⟩

/-- Each clause at its boundaries: `HALF_T - 1` behind, `HALF_T` ahead, `HALF_T` behind, `HALF_T + 1` ahead, a wrap
ahead. -/
theorem witness_DueTestIsRightWithinHalfTheRange :
    tc16.valid = true
    ∧ (∃ tgt now : Nat, now < tgt + 2 ^ (tc16.wTick - 1) ∧ tgt ≤ now + 2 ^ (tc16.wTick - 1) ∧ now = tgt + (2 ^ 31 - 1))
    ∧ (∃ tgt now : Nat, now < tgt + 2 ^ (tc16.wTick - 1) ∧ tgt ≤ now + 2 ^ (tc16.wTick - 1) ∧ tgt = now + 2 ^ 31)
    ∧ (∃ tgt now : Nat, now < tgt + 2 ^ tc16.wTick ∧ tgt + 2 ^ (tc16.wTick - 1) ≤ now ∧ now = tgt + 2 ^ 31)
    ∧ (∃ tgt now : Nat, now < tgt + 2 ^ tc16.wTick ∧ tgt + 2 ^ (tc16.wTick - 1) ≤ now ∧ now = tgt + (2 ^ 32 - 1))
    ∧ (∃ tgt now : Nat, now + 2 ^ (tc16.wTick - 1) < tgt ∧ tgt ≤ now + 2 ^ tc16.wTick ∧ tgt = now + (2 ^ 31 + 1))
    ∧ ∃ tgt now : Nat, now + 2 ^ (tc16.wTick - 1) < tgt ∧ tgt ≤ now + 2 ^ tc16.wTick ∧ tgt = now + 2 ^ 32 :=
  ⟨by decide, ⟨5, 5 + (2 ^ 31 - 1), by decide⟩, ⟨5 + 2 ^ 31, 5, by decide⟩, ⟨5, 5 + 2 ^ 31, by decide⟩,
    ⟨5, 5 + (2 ^ 32 - 1), by decide⟩, ⟨5 + (2 ^ 31 + 1), 5, by decide⟩, ⟨5 + 2 ^ 32, 5, by decide⟩⟩

theorem witness_ExitReturnsToTheForeground : ∃ s : State, s.iph = .exit := ⟨inHandler .exit, by decide⟩

theorem witness_HandlerStepsFollowThePhase :
    ∃ s : State, s.iph ≠ .rearm ∧ s.iph ≠ .test ∧ s.iph ≠ .snap ∧ s.iph ≠ .check ∧ s.iph ≠ .exit :=
  ⟨State.reset, by decide⟩

/-- At both ends of the range: the counter at the deadline, and a whole wrap less one past it (V5.9). -/
theorem witness_CatchUpCountsEveryPassedDeadline :
    (∃ (s : State) (D h : Nat), s.Wf ∧ s.iph = .rearm ∧ s.ccr = D % 2 ^ s.cfg.wHw ∧ s.hwcnt = h % 2 ^ s.cfg.wHw
      ∧ D ≤ h ∧ h < D + 2 ^ s.cfg.wHw ∧ h = D)
    ∧ ∃ (s : State) (D h : Nat), s.Wf ∧ s.iph = .rearm ∧ s.ccr = D % 2 ^ s.cfg.wHw ∧ s.hwcnt = h % 2 ^ s.cfg.wHw
      ∧ D ≤ h ∧ h < D + 2 ^ s.cfg.wHw ∧ h = D + 65535 :=
  ⟨⟨{ inHandler .rearm with ccr := 512, hwcnt := 512 }, 512, 512, wf_of (by decide), by decide⟩,
    ⟨{ inHandler .rearm with ccr := 512, hwcnt := 511 }, 512, 512 + 65535, wf_of (by decide), by decide⟩⟩

/-- The handler's state just before the deadline 768 (V5.3), and a schedule in which the counter reaches it between the
rearm and the test. -/
def lateHandler : State := { inHandler .rearm with ccr := 512, ticks := 1, hwcnt := 767 }

theorem witness_CatchUpCountsUnderInterleaving :
    ∃ (s t : State) (D h : Nat) (sch : List Choice), s.Wf ∧ s.iph = .rearm ∧ s.ccr = D % 2 ^ s.cfg.wHw
      ∧ s.hwcnt = h % 2 ^ s.cfg.wHw ∧ D ≤ h ∧ runAs sch s = .next t
      ∧ t.iph = .snap ∧ sch = [.isr, .tmr, .isr, .isr, .isr]
      ∧ (∀ pre u, pre <+: sch → pre ≠ sch → runAs pre s = .next u → u.iph ≠ .snap)
      ∧ ∀ pre u, pre ++ [.isr] <+: sch → runAs pre s = .next u → u.iph = .test →
        h + pre.count .tmr + s.cfg.interval < D + (pre.count .isr + 1) / 2 * s.cfg.interval + 2 ^ s.cfg.wHw := by
  obtain ⟨t, h, hp⟩ := next_of
    (by decide : answers (runAs [.isr, .tmr, .isr, .isr, .isr] lateHandler) (fun t => decide (t.iph = .snap)) = true)
  refine ⟨lateHandler, t, 512, 767, _, wf_of (by decide), by decide, by decide, by decide, by decide, h,
    of_decide_eq_true hp, rfl, ?_, ?_⟩
  rotate_left
  · intro pre u h1 _ _
    have h4 : pre.length < 5 := by
      have := h1.length_le
      simp at this
      omega
    have hall : ∀ n, n < 5 → 767 + ([Choice.isr, .tmr, .isr, .isr, .isr].take n).count .tmr + 256
        < 512 + (([Choice.isr, .tmr, .isr, .isr, .isr].take n).count .isr + 1) / 2 * 256 + 2 ^ 16 := by decide
    have h5 := hall _ h4
    rw [← List.prefix_iff_eq_take.1 ((List.prefix_append pre [.isr]).trans h1)] at h5
    exact h5
  intro pre u h1 h2 h3
  have hall : ∀ n, n < 5 → answers (runAs ([Choice.isr, .tmr, .isr, .isr, .isr].take n) lateHandler)
      (fun t => decide (t.iph ≠ .snap)) = true := by decide
  have hlen : pre.length < 5 := by
    have h4 := h1.length_le
    rcases Nat.lt_or_eq_of_le h4 with h5 | h5
    · exact h5
    · exact absurd (h1.eq_of_length h5) h2
  rw [List.prefix_iff_eq_take.1 h1] at h3
  exact of_decide_eq_true (of_next h3 (hall _ hlen))

/-- At both ends of the lead: 1 and `INTERVAL` (V5.7 is between them). -/
theorem witness_StaleEntryOvercountsOneWrap :
    (∃ s : State, s.Wf ∧ s.iph = .rearm ∧ s.cfg.interval ∣ 2 ^ s.cfg.wHw ∧ s.deadlineAhead ∧ s.ccr = s.hwcnt + 1)
    ∧ ∃ s : State, s.Wf ∧ s.iph = .rearm ∧ s.cfg.interval ∣ 2 ^ s.cfg.wHw ∧ s.deadlineAhead ∧ s.ccr = s.hwcnt + 256 :=
  ⟨⟨{ inHandler .rearm with ccr := 512, hwcnt := 511 }, wf_of (by decide), by decide, by decide,
      by unfold State.deadlineAhead; decide, by decide⟩,
    ⟨{ inHandler .rearm with ccr := 512, hwcnt := 256 }, wf_of (by decide), by decide, by decide,
      by unfold State.deadlineAhead; decide, by decide⟩⟩

theorem witness_TicksAndDeadlineMoveTogether :
    (∃ s t : State, exec .isrRearm s = .next t) ∧ ∃ s t : State, exec .tmrCount s = .next t := by
  obtain ⟨t, h, -⟩ := next_of (by decide : answers (exec .isrRearm (inHandler .rearm)) (fun _ => true) = true)
  obtain ⟨u, g, -⟩ := next_of (by decide : answers (exec .tmrCount (b0 [])) (fun _ => true) = true)
  exact ⟨⟨_, t, h⟩, ⟨_, u, g⟩⟩

theorem witness_SecondsCountMultiplesOfTicksPerSecond :
    ∃ (n : Nat) (s : State), s.Wf ∧ s.cfg.tps ∣ n ∧ n = 256 ∧ s.ticks = 100 :=
  ⟨256, { inHandler .rearm with ticks := 100 }, wf_of (by decide), by decide, rfl, by decide⟩

/-- Each register of the writer table is changed by one of its writers. -/
theorem witness_RegistersHaveOnlyTheirWriters :
    answers (exec .isrRearm { inHandler .rearm with ticks := 127 })
      (fun t => decide (t.cfg.valid = true ∧ t.ticks ≠ 127 ∧ t.seconds ≠ 0 ∧ t.ccr ≠ 256 ∧ t.iph ≠ .rearm)) = true
    ∧ answers (exec .tmrCount (b0 [])) (fun t => decide (t.hwcnt ≠ 0)) = true
    ∧ answers (exec .isrSnapshot { inHandler .snap with hwcnt := 9 }) (fun t => decide (t.last ≠ 0)) = true
    ∧ answers (exec .clockInit State.reset) (fun t => decide (t.cmpie ≠ false ∧ t.run ≠ false)) = true
    ∧ answers (exec .isrEntry (pending [])) (fun t => decide (t.inIsr ≠ false)) = true
    ∧ answers (exec .isrTest { inHandler .test with hwcnt := 9 }) (fun t => decide (t.ih ≠ 0)) = true
    ∧ answers (exec .isrEventcheck { inHandler .check with answers := [some 3] })
        (fun t => decide (t.ip ≠ false ∧ t.it ≠ 0)) = true := by decide

/-- A step of each agent, for the statements about every step. -/
theorem witness_a_step_of_each_agent :
    ∀ c : Choice, ∃ s t : State, s.Wf ∧ s.Sequenced ∧ step s = .next t ∧ s.choice = c := by
  intro c
  have hp : (pending [0x0020]).Wf := wf_of (by decide)
  have key : answers (step { pending [0x0020] with sched := [c] }) (fun _ => true) = true := by
    cases c <;> decide
  obtain ⟨t, h, -⟩ := next_of key
  exact ⟨{ pending [0x0020] with sched := [c] }, t, ⟨hp.1, hp.2, hp.3, hp.4, hp.5, hp.6, hp.7, hp.8, hp.9, hp.10⟩,
    ⟨(by decide : (pending [0x0020]).cpc ≤ (pending [0x0020]).prog.length), fun op lbl hb => by cases hb⟩, h, rfl⟩

/-- The same inside an operation. -/
theorem witness_EveryStepKeepsTheSequence : ∃ s t : State, s.Wf ∧ s.Sequenced ∧ step s = .next t ∧ s.fgs ≠ .idle := by
  obtain ⟨t, h, -⟩ := next_of (by decide : answers
    (step { b0 [0x0020] with sched := [.fg], fgs := .busy .currentTicks (.sample none [0]) }) (fun _ => true) = true)
  exact ⟨_, t, wf_of (by decide), ⟨by decide, fun op lbl hb => by cases hb; decide⟩, h, by decide⟩

theorem witness_HandlerContextHoldsTheForeground :
    (∃ s t : State, exec .isrEntry s = .next t ∧ s.inIsr = false ∧ t.inIsr = true)
    ∧ (∃ s t : State, exec .isrExit s = .next t ∧ s.inIsr = true ∧ t.inIsr = false)
    ∧ ∃ (i : Instr) (s : State), s.inIsr = true ∧ i.issuable = true := by
  obtain ⟨t, h, ht⟩ := next_of (by decide : answers (exec .isrEntry (pending [])) (fun t => t.inIsr) = true)
  obtain ⟨u, g, hu⟩ := next_of (by decide : answers (exec .isrExit (inHandler .exit)) (fun t => !t.inIsr) = true)
  exact ⟨⟨_, t, h, by decide, ht⟩, ⟨_, u, g, by decide, by simpa using hu⟩, ⟨.wait 3, inHandler .rearm, by decide⟩⟩

/-- The first read, a middle read, and a last read that agrees or does not. -/
theorem witness_CurrentTicksReadsOneWordAStep :
    (∃ s : State, s.cfg.valid = true ∧ s.inIsr = false ∧ s.fgs = .idle ∧ 0 + 1 < s.cfg.kT)
    ∧ (∃ (s : State) (v : Nat), s.cfg.valid = true ∧ s.inIsr = false
        ∧ s.fgs = .busy .currentTicks (.sample (some v) [7]) ∧ [7].length + 1 = s.cfg.kT
        ∧ v = sampleValue s.cfg s.cfg.kT s.cfg.wTick ([7] ++ [0]))
    ∧ ∃ (s : State) (v : Nat), s.cfg.valid = true ∧ s.inIsr = false
        ∧ s.fgs = .busy .currentTicks (.sample none [7]) ∧ [7].length + 1 = s.cfg.kT
        ∧ v = sampleValue s.cfg s.cfg.kT s.cfg.wTick ([7] ++ [0]) :=
  ⟨⟨b0 [], by decide⟩, ⟨{ b0 [] with ticks := 7, fgs := .busy .currentTicks (.sample (some 7) [7]) }, 7, by decide⟩,
    ⟨{ b0 [] with ticks := 7, fgs := .busy .currentTicks (.sample none [7]) }, 7, by decide⟩⟩

theorem witness_CurrentSecondsReadsOneWordAStep :
    (∃ s : State, s.cfg.valid = true ∧ s.inIsr = false ∧ s.fgs = .idle ∧ 0 + 1 < s.cfg.kS)
    ∧ ∃ (s : State) (v : Nat), s.cfg.valid = true ∧ s.inIsr = false
        ∧ s.fgs = .busy .currentSeconds (.sample (some v) [7]) ∧ [7].length + 1 = s.cfg.kS
        ∧ v = sampleValue s.cfg s.cfg.kS s.cfg.wSec ([7] ++ [0]) :=
  ⟨⟨b0 [], by decide⟩,
    ⟨{ b0 [] with seconds := 7, fgs := .busy .currentSeconds (.sample (some 7) [7]) }, 7, by decide⟩⟩

theorem witness_QuietReadsReturnTheCounter :
    (∃ s : State, s.Wf ∧ s.inIsr = false ∧ s.fgs = .idle ∧ decode s.cfg s.prog s.cpc = .op .currentTicks)
    ∧ ∃ s : State, s.Wf ∧ s.inIsr = false ∧ s.fgs = .idle ∧ decode s.cfg s.prog s.cpc = .op .currentSeconds :=
  ⟨⟨{ pending [0x0020] with ticks := 0x12345 }, wf_of (by decide), by decide⟩,
    ⟨{ b0 [0x0021] with seconds := 5 }, wf_of (by decide), by decide⟩⟩

/-- Counter and host steps between the reads, with a match pending (V8.5). -/
theorem witness_MaskedReadsAreExact :
    (∃ (s t : State) (sch : List Choice), s.Wf ∧ s.inIsr = false ∧ s.gie = false ∧ s.fgs = .idle
      ∧ runAs sch s = .next t ∧ decode s.cfg s.prog s.cpc = .op .currentTicks ∧ sch.count .fg = 2 * s.cfg.kT
      ∧ sch.count .tmr = 2)
    ∧ ∃ (s t : State) (sch : List Choice), s.Wf ∧ s.inIsr = false ∧ s.gie = false ∧ s.fgs = .idle
      ∧ runAs sch s = .next t ∧ decode s.cfg s.prog s.cpc = .op .currentSeconds ∧ sch.count .fg = 2 * s.cfg.kS
      ∧ sch.count .tmr = 2 := by
  obtain ⟨t, h, -⟩ := next_of (by decide : answers
    (runAs [.fg, .tmr, .fg, .fg, .tmr, .hostStop, .fg, .hostStart] { pending [0x0020] with gie := false })
    (fun _ => true) = true)
  obtain ⟨u, g, -⟩ := next_of (by decide : answers
    (runAs [.fg, .tmr, .fg, .fg, .tmr, .hostStop, .fg, .hostStart] { pending [0x0021] with gie := false })
    (fun _ => true) = true)
  exact ⟨⟨_, t, _, wf_of (by decide), by decide, by decide, by decide, h, by decide, by decide, by decide⟩,
    ⟨_, u, _, wf_of (by decide), by decide, by decide, by decide, g, by decide, by decide, by decide⟩⟩

/-- The register goes from 5 to 6 inside the second sample. -/
def fiveThenSix (i : Nat) : Nat := if i < 3 then 5 else 6

theorem fiveThenSix_lt (w i : Nat) : fiveThenSix i < 2 ^ (w + 3) := by
  have h1 := Nat.two_pow_pos w
  have h2 : fiveThenSix i < 8 := by unfold fiveThenSix; split <;> decide
  rw [Nat.pow_add]
  omega

/-- Four micro-steps reach what the first three do not. -/
theorem firstReaches_four {seq : Nat → Host.Outcome State Fault Refusal} {p : State → Prop} (q : State → Bool)
    (hq : ∀ u, q u = true ↔ p u) (h : ∀ m, m < 4 → 0 < m → answers (seq m) (fun u => !q u) = true)
    (h4 : answers (seq 4) q = true) : ∃ t, FirstReaches seq p 4 t := by
  obtain ⟨t, h1, h2⟩ := next_of h4
  refine ⟨t, by decide, h1, (hq t).1 h2, fun m u h3 h5 h6 h7 => ?_⟩
  simpa [(hq u).2 h7] using of_next h6 (h m h5 h3)

/-- `WAIT 1` has its `start`. -/
def hasStart (u : State) : Bool :=
  match u.fgs with
  | .busy (.wait 1) (.waitNow _ none []) => true
  | _ => false

theorem hasStart_iff (u : State) : hasStart u = true ↔ ∃ start, u.fgs = .busy (.wait 1) (.waitNow start none []) := by
  unfold hasStart
  split
  · simp_all
  · rename_i h
    simp only [Bool.false_eq_true, false_iff, not_exists]
    exact fun start hs => h start hs

/-- The handler leaves `TICKS` as `fiveThenSix` says. -/
def ticksGo (i : Nat) (u : State) : State := { u with ticks := fiveThenSix i }

/-- The handler leaves `SECONDS` as `fiveThenSix` says. -/
def secondsGo (i : Nat) (u : State) : State := { u with seconds := fiveThenSix i }

/-- `WAIT k` in its loop, with `start` 4. -/
def waiting (k : Nat) : State := { b0 [0x0024, BitVec.ofNat 16 k, 0] with fgs := .busy (.wait k) (.waitNow 4 none []) }

/-- For each clause, a read of four words (`K = 2`) in which the register changes once, inside the second sample; a wait
that ends and one that goes on. -/
theorem witness_SynchronizerReturnsAHeldValue :
    ChangesOnce fiveThenSix (2 * tc16.kT) 4 ∧ ChangesOnce fiveThenSix (2 * tc16.kS) 4
    ∧ (∀ i, fiveThenSix i < 2 ^ tc16.wTick) ∧ (∀ i, fiveThenSix i < 2 ^ tc16.wSec)
    ∧ (∃ s t : State, s.cfg = tc16 ∧ s.Wf ∧ s.inIsr = false ∧ s.fgs = .idle
      ∧ FirstReaches (fun m => readDuring .currentTicks ticksGo m s) (fun u => u.fgs = .idle) 4 t)
    ∧ (∃ s t : State, s.cfg = tc16 ∧ s.Wf ∧ s.inIsr = false ∧ s.fgs = .idle
      ∧ FirstReaches (fun m => readDuring .currentSeconds secondsGo m s) (fun u => u.fgs = .idle) 4 t)
    ∧ (∃ s t : State, s.cfg = tc16 ∧ s.Wf ∧ s.inIsr = false ∧ s.fgs = .idle
      ∧ FirstReaches (fun m => readDuring (.wait 1) ticksGo m s)
          (fun u => ∃ start, u.fgs = .busy (.wait 1) (.waitNow start none [])) 4 t)
    ∧ ∀ k, k = 1 ∨ k = 9 → ∃ s t : State, s.cfg = tc16 ∧ s.Wf ∧ s.inIsr = false
      ∧ s.fgs = .busy (.wait k) (.waitNow 4 none [])
      ∧ FirstReaches (fun m => readDuring (.wait k) ticksGo m s)
          (fun u => u.fgs = .idle ∨ u.fgs = .busy (.wait k) (.waitNow 4 none [])) 4 t := by
  refine ⟨⟨5, 6, 3, fun i _ _ => rfl⟩, ⟨5, 6, 3, fun i _ _ => rfl⟩, fiveThenSix_lt 29, fiveThenSix_lt 29, ?_, ?_, ?_, ?_⟩
  · obtain ⟨t, h⟩ := firstReaches_four (seq := fun m => readDuring .currentTicks ticksGo m (b0 [0x0020]))
      (fun u => decide (u.fgs = .idle)) (fun u => decide_eq_true_iff) (by decide) (by decide)
    exact ⟨b0 [0x0020], t, rfl, wf_of (by decide), rfl, rfl, h⟩
  · obtain ⟨t, h⟩ := firstReaches_four (seq := fun m => readDuring .currentSeconds secondsGo m (b0 [0x0021]))
      (fun u => decide (u.fgs = .idle)) (fun u => decide_eq_true_iff) (by decide) (by decide)
    exact ⟨b0 [0x0021], t, rfl, wf_of (by decide), rfl, rfl, h⟩
  · obtain ⟨t, h⟩ := firstReaches_four (seq := fun m => readDuring (.wait 1) ticksGo m (b0 [0x0024, 1, 0]))
      hasStart hasStart_iff (by decide) (by decide)
    exact ⟨b0 [0x0024, 1, 0], t, rfl, wf_of (by decide), rfl, rfl, h⟩
  · rintro k hk
    obtain ⟨t, h⟩ := firstReaches_four (seq := fun m => readDuring (.wait k) ticksGo m (waiting k))
      (fun u => decide (u.fgs = .idle ∨ u.fgs = .busy (.wait k) (.waitNow 4 none [])))
      (fun u => decide_eq_true_iff) (by rcases hk with rfl | rfl <;> decide) (by rcases hk with rfl | rfl <;> decide)
    exact ⟨waiting k, t, rfl, by rcases hk with rfl | rfl <;> exact wf_of (by decide), rfl, rfl, h⟩

theorem witness_FineTicksSubtractsTheSnapshot :
    (∃ s : State, s.inIsr = false ∧ s.fgs = .idle)
    ∧ ∃ (s : State) (v : Nat), s.inIsr = false ∧ s.fgs = .busy .fineTicks (.fineHwcnt v) ∧ s.hwcnt < v :=
  ⟨⟨b0 [], by decide⟩, ⟨{ b0 [] with hwcnt := 20, fgs := .busy .fineTicks (.fineHwcnt 65500) }, 65500, by decide⟩⟩

/-- The largest count that fits the counter. -/
theorem witness_FineTicksCountsSinceTheSnapshot :
    ∃ (s : State) (j m : Nat), s.Wf ∧ s.inIsr = false ∧ s.fgs = .idle ∧ s.run = true
      ∧ decode s.cfg s.prog s.cpc = .op .fineTicks ∧ s.last = s.hwcnt ∧ j + m < 2 ^ s.cfg.wHw ∧ j + m = 65535 :=
  ⟨{ b0 [0x0022] with hwcnt := 0xFFFF, last := 0xFFFF }, 65530, 5, wf_of (by decide), by decide⟩

/-- A read for `start`; then for `now`, agreeing after enough ticks and after too few. -/
theorem witness_WaitReadsOneWordAStep :
    (∃ (s : State) (a : Option Nat) (w : List Nat), s.cfg.valid = true ∧ s.inIsr = false ∧ w.length < s.cfg.kT
      ∧ s.fgs = .busy (.wait 2) (.waitStart a w) ∧ w.length + 1 = s.cfg.kT)
    ∧ (∃ (s : State) (v start : Nat) (w : List Nat), s.cfg.valid = true ∧ s.inIsr = false ∧ w.length + 1 = s.cfg.kT
      ∧ s.fgs = .busy (.wait 2) (.waitNow start (some v) w) ∧ v = sampleValue s.cfg s.cfg.kT s.cfg.wTick (w ++ [0])
      ∧ ((2 : Nat) : Int) ≤ ((v : Int) - start) % (2 ^ s.cfg.wTick : Nat))
    ∧ ∃ (s : State) (v start : Nat) (w : List Nat), s.cfg.valid = true ∧ s.inIsr = false ∧ w.length + 1 = s.cfg.kT
      ∧ s.fgs = .busy (.wait 2) (.waitNow start (some v) w) ∧ v = sampleValue s.cfg s.cfg.kT s.cfg.wTick (w ++ [0])
      ∧ ((v : Int) - start) % (2 ^ s.cfg.wTick : Nat) < (2 : Nat) :=
  ⟨⟨{ b0 [] with ticks := 7, fgs := .busy (.wait 2) (.waitStart (some 7) [7]) }, some 7, [7], by decide⟩,
    ⟨{ b0 [] with ticks := 1, fgs := .busy (.wait 2) (.waitNow 0xFFFFFFFF (some 1) [1]) }, 1, 0xFFFFFFFF, [1],
      by decide⟩,
    ⟨{ b0 [] with ticks := 1, fgs := .busy (.wait 2) (.waitNow 0 (some 1) [1]) }, 1, 0, [1], by decide⟩⟩

theorem witness_WaitZeroReturnsAtOnce :
    ∃ s : State, s.Wf ∧ s.inIsr = false ∧ s.fgs = .idle ∧ decode s.cfg s.prog s.cpc = .op (.wait 0) :=
  ⟨b0 [0x0024, 0, 0], wf_of (by decide), by decide⟩

theorem witness_WaitReturnsOnlyWhenElapsed : ∃ (n : Nat) (s t : State), exec (.wait n) s = .next t ∧ t.fgs = .idle := by
  obtain ⟨t, h, hp⟩ := next_of (by decide : answers
    (exec (.wait 3) { b0 [] with ticks := 1, fgs := .busy (.wait 3) (.waitNow 0xFFFFFFFE (some 1) [1]) })
    (fun t => decide (t.fgs = .idle)) = true)
  exact ⟨3, _, t, h, of_decide_eq_true hp⟩

/-- Masked with a match pending, with the compare interrupt never enabled, and with the counter stopped: long enough for
`start` and a `now`. -/
theorem witness_MaskedWaitNeverReturns :
    (∃ (n : Nat) (s t : State) (sch : List Choice), s.Wf ∧ s.inIsr = false ∧ s.gie = false ∧ s.fgs = .idle
      ∧ decode s.cfg s.prog s.cpc = .op (.wait n) ∧ 1 ≤ n ∧ runAs sch s = .next t ∧ sch.count .fg = 8)
    ∧ (∃ (n : Nat) (s t : State) (sch : List Choice), s.Wf ∧ s.inIsr = false ∧ s.gie = true ∧ s.cmpie = false
      ∧ s.fgs = .idle ∧ decode s.cfg s.prog s.cpc = .op (.wait n) ∧ 1 ≤ n ∧ runAs sch s = .next t ∧ sch.count .fg = 8)
    ∧ ∃ (n : Nat) (s t : State) (sch : List Choice), s.Wf ∧ s.inIsr = false ∧ s.gie = true ∧ s.cmpie = true
      ∧ (s.run = false ∧ s.cmpifg = false ∧ .hostStart ∉ sch) ∧ s.fgs = .idle
      ∧ decode s.cfg s.prog s.cpc = .op (.wait n) ∧ 1 ≤ n ∧ runAs sch s = .next t ∧ sch.count .fg = 8 := by
  obtain ⟨t, h, -⟩ := next_of (by decide : answers
    (runAs [.fg, .tmr, .fg, .fg, .fg, .fg, .hostStop, .fg, .fg, .fg] { pending [0x0024, 1, 0] with gie := false })
    (fun _ => true) = true)
  obtain ⟨u, g, -⟩ := next_of (by decide : answers
    (runAs [.fg, .tmr, .fg, .fg, .fg, .fg, .hostStop, .fg, .fg, .fg] { pending [0x0024, 1, 0] with cmpie := false })
    (fun _ => true) = true)
  obtain ⟨w, k, -⟩ := next_of (by decide : answers
    (runAs [.fg, .fg, .fg, .hostStop, .fg, .fg, .fg, .fg, .fg] { b0 [0x0024, 1, 0] with run := false })
    (fun _ => true) = true)
  exact ⟨⟨1, _, t, _, wf_of (by decide), by decide, by decide, by decide, by decide, by decide, h, by decide⟩,
    ⟨1, _, u, _, wf_of (by decide), by decide, by decide, by decide, by decide, by decide, by decide, g, by decide⟩,
    ⟨1, _, w, _, wf_of (by decide), rfl, rfl, rfl, by decide, rfl, by decide, Nat.le_refl 1, k, by decide⟩⟩

/-- Each micro-step: the counter, the deadline, the first and the last word of `TICKS`. -/
theorem witness_RebaseWritesOneWordAStep :
    (∃ s : State, s.cfg.valid = true ∧ s.inIsr = false ∧ s.fgs = .idle)
    ∧ (∃ s : State, s.cfg.valid = true ∧ s.inIsr = false ∧ s.fgs = .busy (.rebase 9 65400) .rebaseCcr)
    ∧ (∃ (s : State) (k : Nat), s.cfg.valid = true ∧ s.inIsr = false ∧ k < s.cfg.kT
        ∧ s.fgs = .busy (.rebase 9 65400) (.rebaseTicks k) ∧ k + 1 < s.cfg.kT)
    ∧ ∃ (s : State) (k : Nat), s.cfg.valid = true ∧ s.inIsr = false ∧ k < s.cfg.kT
        ∧ s.fgs = .busy (.rebase 9 65400) (.rebaseTicks k) ∧ k + 1 = s.cfg.kT :=
  ⟨⟨b0 [], by decide⟩, ⟨{ b0 [] with fgs := .busy (.rebase 9 65400) .rebaseCcr }, by decide⟩,
    ⟨{ b0 [] with fgs := .busy (.rebase 9 65400) (.rebaseTicks 0) }, 0, by decide⟩,
    ⟨{ b0 [] with fgs := .busy (.rebase 9 65400) (.rebaseTicks 1) }, 1, by decide⟩⟩

theorem witness_UninterruptedRebaseSetsTheTimeBase :
    ∃ (v h : Nat) (s : State), s.Wf ∧ s.inIsr = false ∧ s.fgs = .idle
      ∧ decode s.cfg s.prog s.cpc = .op (.rebase v h) ∧ v = 0xFFFFFFFF ∧ h = 0xFFFF :=
  ⟨0xFFFFFFFF, 0xFFFF, b0 [0x0030, 0xFFFF, 0xFFFF, 0xFFFF], wf_of (by decide), by decide⟩

/-- V11.3, masked, and once more with the compare interrupt never enabled. -/
theorem witness_SerializedRebaseIsNotDisturbed :
    (∃ (v h : Nat) (s t : State) (sch : List Choice), s.Wf ∧ s.inIsr = false ∧ s.gie = false ∧ s.fgs = .idle
      ∧ decode s.cfg s.prog s.cpc = .op (.rebase v h) ∧ runAs sch s = .next t ∧ sch.count .fg = 2 + s.cfg.kT)
    ∧ ∃ (v h : Nat) (s t : State) (sch : List Choice), s.Wf ∧ s.inIsr = false ∧ s.cmpie = false ∧ s.fgs = .idle
      ∧ decode s.cfg s.prog s.cpc = .op (.rebase v h) ∧ runAs sch s = .next t ∧ sch.count .fg = 2 + s.cfg.kT := by
  obtain ⟨t, h, -⟩ := next_of (by decide : answers
    (runAs [.fg, .tmr, .tmr, .fg, .fg, .fg] { pending [0x0030, 0x2345, 1, 0x1000] with gie := false })
    (fun _ => true) = true)
  obtain ⟨u, g, -⟩ := next_of (by decide : answers
    (runAs [.fg, .tmr, .tmr, .fg, .fg, .fg] { pending [0x0030, 0x2345, 1, 0x1000] with cmpie := false })
    (fun _ => true) = true)
  exact ⟨⟨0x12345, 0x1000, _, t, _, wf_of (by decide), by decide, by decide, by decide, by decide, h, by decide⟩,
    ⟨0x12345, 0x1000, _, u, _, wf_of (by decide), by decide, by decide, by decide, by decide, g, by decide⟩⟩

theorem witness_WordViewHoldsTheRegisters : ∃ s : State, s.cfg.valid = true ∧ s.cfg.kT < 8 ∧ s.run = true :=
  ⟨pending [], by decide⟩

/-- A word of each register, the first and the last, with every bit of the word set; a word that is refused and one that
is not present. -/
theorem witness_WordWriteIsReadBackAndLocal :
    ∃ (s : State) (x : Nat), s.Wf ∧ x < 2 ^ s.cfg.wWord ∧ x = 0xFFFF
      ∧ (∃ t, s.memWrite 2 x = .next t) ∧ (∃ t, s.memWrite 4 x = .next t) ∧ (∃ t, s.memWrite 8 x = .next t)
      ∧ (∃ t, s.memWrite 9 x = .next t) ∧ (∃ t, s.memWrite 0x11 x = .next t)
      ∧ faults (s.memWrite 0x18 x) .wordNotPresent = true :=
  ⟨b0 [], 0xFFFF, wf_of (by decide), by decide, rfl, ⟨_, rfl⟩, ⟨_, rfl⟩, ⟨_, rfl⟩, ⟨_, rfl⟩, ⟨_, rfl⟩, by decide⟩

theorem witness_DecodeOfEncodeIsTheOperation :
    (∃ op, (Instr.rebase 0xFFFFFFFF 0xFFFF).opName = some op) ∧ (Instr.rebase 0xFFFFFFFF 0xFFFF).wf tc16 = true
    ∧ (∃ op, (Instr.exitCritical 0xFF).opName = some op) ∧ (Instr.exitCritical 0xFF).wf narrowConfig = true :=
  ⟨⟨.rebase, rfl⟩, by decide, ⟨.exitCritical, rfl⟩, by decide⟩

theorem witness_DecodedOperationIsWhatTheStreamHolds :
    ∃ (c : Config) (prog : List Word) (cpc : Nat) (i : Instr), decode c prog cpc = .op i ∧ cpc = 1 ∧ i = .wait 0xFFFFFF :=
  ⟨narrowConfig, [0x0010, 0x0024, 0xFFFF, 0x00FF], 1, .wait 0xFFFFFF, by decide⟩

theorem witness_StepLabelsAreNamedButNotIssuable :
    Instr.tmrCount.issuable = false ∧ Instr.isrExit.issuable = false := by decide

/-- A word for each clause, at the edges of the ranges. -/
theorem witness_DecoderRefusesInOrder :
    (∃ w : Word, w.toNat / 256 % 16 ≠ 0 ∧ w = 0x8120)
    ∧ (∃ w : Word, w.toNat / 256 % 16 = 0 ∧ w.toNat / 4096 = 8 ∧ w = 0x80FF)
    ∧ (∃ w : Word, w.toNat / 256 % 16 = 0 ∧ w.toNat / 4096 ≠ 8 ∧ w.toNat / 4096 ≠ 0 ∧ w = 0xF000)
    ∧ ∃ w : Word, w.toNat < 256 ∧ w.toNat ∉ [0x01, 0x02, 0x10, 0x20, 0x21, 0x22, 0x23, 0x24, 0x30, 0x31] ∧ w = 0xFF :=
  ⟨⟨_, by decide, rfl⟩, ⟨_, by decide, by decide, rfl⟩, ⟨_, by decide, by decide, by decide, rfl⟩,
    ⟨_, by decide, by decide, rfl⟩⟩

/-- One word too few; a value one too large, in the only, the first and the second operand. -/
theorem witness_TruncatedOrOutOfRangeOperandsAreRefused :
    (∃ rest : List Word, 1 + rest.length < OpName.length tc16 .rebase ∧ rest.length = 2)
    ∧ (∃ rest : List Word, OpName.length narrowConfig .exitCritical ≤ 1 + rest.length
        ∧ OpName.operandWidths narrowConfig .exitCritical = [8] ∧ 2 ^ 8 ≤ assembleOperand (rest.take ((8 + 15) / 16)))
    ∧ (∃ rest : List Word, OpName.length narrowConfig .rebase ≤ 1 + rest.length
        ∧ 2 ^ narrowConfig.wTick ≤ assembleOperand (rest.take ((narrowConfig.wTick + 15) / 16)))
    ∧ ∃ rest : List Word, OpName.length narrowConfig .rebase ≤ 1 + rest.length
        ∧ 2 ^ narrowConfig.wHw
          ≤ assembleOperand ((rest.drop ((narrowConfig.wTick + 15) / 16)).take ((narrowConfig.wHw + 15) / 16)) :=
  ⟨⟨[0, 0], by decide⟩, ⟨[0x0100], by decide⟩, ⟨[0, 0x0100, 0], by decide⟩, ⟨[0, 0, 0x0100], by decide⟩⟩

end Sys2Proof.Tests
end

section
/-! SUPPORT. The foreground operations that a stream or the sequencer can hold: which instructions the decoder gives, and
which labels a well-formed operation in progress can be at (R32, R45, R87). -/

namespace Sys2Proof

/-- Operands make an operation of their own name. -/
theorem OpName.opName_of_withOperands {op : OpName} {xs : List Nat} {i : Instr} (h : op.withOperands xs = some i) :
    i.opName = some op := by
  unfold OpName.withOperands at h
  split at h <;> cases h <;> rfl

theorem decodeOperands_op {c : Config} {op : OpName} {rest : List Word} {i : Instr}
    (h : decodeOperands c op rest = .op i) : i.opName = some op := by
  unfold decodeOperands at h
  split at h
  · cases h
  split at h
  · cases h
  split at h
  · cases h
    exact OpName.opName_of_withOperands ‹_›
  · cases h

/-- What the decoder gives is a foreground operation, never a step label (R87, R94). -/
theorem decode_op_issuable {c : Config} {prog : List Word} {cpc : Nat} {i : Instr} (h : decode c prog cpc = .op i) :
    i.issuable = true := by
  unfold decode at h
  split at h
  · cases h
  split at h
  · cases h
  split at h
  · cases h
  split at h
  · cases h
  split at h
  · cases h
  · rw [Instr.issuable, decodeOperands_op h, Option.isSome_some]

namespace Machine

theorem sampleFits_length {c : Config} {k width : Nat} {a : Option Nat} {w : List Nat}
    (h : sampleFits c k width a w = true) : w.length < k := by
  simp only [sampleFits, Bool.and_eq_true, decide_eq_true_eq] at h
  exact h.1.2

theorem labelFits_issuable {c : Config} {op : Instr} {lbl : FgLabel} (h : labelFits c op lbl = true) :
    op.issuable = true := by
  cases op with
  | tmrCount | hostStop | hostStart | isrEntry | isrRearm | isrTest | isrSnapshot | isrEventcheck | isrExit =>
    simp [labelFits] at h
  | _ => rfl

/-- The micro-step at which an operation starts is one of its own, with no working values out of range. -/
theorem labelFits_firstLabel {c : Config} (hc : c.Legal) {op : Instr} (ho : op.issuable = true) :
    labelFits c op (firstLabel op) = true := by
  have ticks : sampleFits c c.kT c.wTick none [] = true := by simp [sampleFits, hc.kT_pos]
  have seconds : sampleFits c c.kS c.wSec none [] = true := by simp [sampleFits, hc.kS_pos]
  cases op with
  | currentTicks => exact ticks
  | currentSeconds => exact seconds
  | wait n => exact ticks
  | enterCritical | exitCritical | clockInit | fineTicks | fineMax | rebase | setSeconds => rfl
  | tmrCount | hostStop | hostStart | isrEntry | isrRearm | isrTest | isrSnapshot | isrEventcheck | isrExit => cases ho

variable {s : State}

theorem State.Wf.legal (h : s.Wf) : s.cfg.Legal := (Config.valid_iff s.cfg).1 h.cfg_valid

/-- An operation in progress is at a label of its own (R32, R45). -/
theorem State.Wf.labelFits_busy (h : s.Wf) {op : Instr} {lbl : FgLabel} (hf : s.fgs = .busy op lbl) :
    labelFits s.cfg op lbl = true := by
  have fits := h.fgs_fits
  rw [hf, Fgs.fits, Bool.and_eq_true] at fits
  exact fits.2

/-- The micro-step that the foreground takes for an operation is one of that operation's. -/
theorem State.Wf.labelFits_fgLabel (h : s.Wf) {op : Instr} {lbl : FgLabel} (ho : op.issuable = true)
    (hl : s.fgLabel op = .ok lbl) : labelFits s.cfg op lbl = true := by
  obtain ⟨-, ⟨-, rfl⟩ | hf⟩ := fgLabel_ok.1 hl
  · exact labelFits_firstLabel h.legal ho
  · exact h.labelFits_busy hf

end Machine
end Sys2Proof
end

section
/-! SUPPORT. Word writes: what each offset of the view answers, and what a word read gives after a register has changed
(R11, R40). -/

namespace Sys2Proof.Machine

variable {s : State}

theorem memWrite_seconds (hc : s.cfg.Legal) {j : Nat} (hj : j < s.cfg.kS) (v : Nat) :
    s.memWrite (secondsBase + j) v = .next { s with seconds := setWordAt s.cfg.wWord s.cfg.wSec s.seconds j v } := by
  have h8 := hc.kS_le
  have place : 16 ≤ 16 + j ∧ 16 + j < 24 ∧ 16 + j - 16 < s.cfg.kS := by omega
  have single : 16 + j ≠ 2 ∧ 16 + j ≠ 3 ∧ 16 + j ≠ 4 := by omega
  have past : ¬ (8 ≤ 16 + j ∧ 16 + j < 16 ∧ 16 + j - 8 < s.cfg.kT) := by omega
  unfold State.memWrite secondsBase
  rw [if_neg single.1, if_neg single.2.1, if_neg single.2.2, if_neg past, if_pos place, Nat.add_sub_cancel_left]

/-- A word write faults exactly where the view has no word (R40; log entry 15). -/
theorem memWrite_fault {off v : Nat} {f : Fault} :
    s.memWrite off v = .fault f ↔ 0x18 ≤ off ∧ f = .wordNotPresent := by
  constructor
  · intro h
    unfold State.memWrite at h
    split_ifs at h with _ _ _ _ _ present
    cases h
    exact ⟨Nat.le_of_not_lt present, rfl⟩
  · rintro ⟨h, rfl⟩
    have absent : off ≠ 2 ∧ off ≠ 3 ∧ off ≠ 4 ∧ ¬ off < 16 ∧ ¬ off < 24 := by omega
    simp [State.memWrite, absent]

/-- Which words a word write reaches (R40, R41; log entry 14). -/
theorem memWrite_next_iff (hc : s.cfg.Legal) {off v : Nat} :
    (∃ t, s.memWrite off v = .next t) ↔
      off = 0x02 ∨ off = 0x03 ∨ off = 0x04 ∨ (∃ j, j < s.cfg.kT ∧ off = ticksBase + j)
        ∨ (∃ j, j < s.cfg.kS ∧ off = secondsBase + j) := by
  constructor
  · rintro ⟨t, h⟩
    obtain ⟨h2, -⟩ | ⟨h3, -⟩ | ⟨h4, -⟩ | ⟨j, hj, -, ht, -⟩ | ⟨j, hj, -, hs, -⟩ := memWrite_next h
    · exact .inl h2
    · exact .inr (.inl h3)
    · exact .inr (.inr (.inl h4))
    · exact .inr (.inr (.inr (.inl ⟨j, hj, ht⟩)))
    · exact .inr (.inr (.inr (.inr ⟨j, hj, hs⟩)))
  · rintro (rfl | rfl | rfl | ⟨j, hj, rfl⟩ | ⟨j, hj, rfl⟩)
    · exact ⟨_, rfl⟩
    · exact ⟨_, rfl⟩
    · exact ⟨_, rfl⟩
    · exact ⟨_, memWrite_ticks hc hj v⟩
    · exact ⟨_, memWrite_seconds hc hj v⟩

/-! ### Word reads after one register has changed -/

/-- New values of `HWCNT`, `CCR` and `LAST` show only at the offset of a register whose value differs. -/
theorem memRead_counters_other {h c l off : Nat} (hh : off = 0x02 → h = s.hwcnt) (hc : off = 0x03 → c = s.ccr)
    (hl : off = 0x04 → l = s.last) : { s with hwcnt := h, ccr := c, last := l }.memRead off = s.memRead off := by
  have single : { s with hwcnt := h, ccr := c, last := l }.singleWord off = s.singleWord off := by
    unfold State.singleWord
    split
    case h_3 => exact hh rfl
    case h_4 => exact hc rfl
    case h_5 => exact hl rfl
    all_goals rfl
  rw [State.memRead, single, State.memRead]

theorem memRead_ticks_same (hc : s.cfg.Legal) (x : Nat) {j : Nat} (hj : j < s.cfg.kT) :
    { s with ticks := x }.memRead (ticksBase + j) = some (wordAt s.cfg.wWord x j) :=
  memRead_ticks (s := { s with ticks := x }) hc hj

/-- A change of `TICKS` that keeps every word but word `j` shows at no other offset. -/
theorem memRead_ticks_other {x j off : Nat} (hx : ∀ j', j' ≠ j → wordAt s.cfg.wWord x j' = wordAt s.cfg.wWord s.ticks j')
    (h : off ≠ ticksBase + j) : { s with ticks := x }.memRead off = s.memRead off := by
  unfold State.memRead
  split
  · rfl
  split
  · have other : off - 8 ≠ j := by unfold ticksBase at h; omega
    simp only [hx _ other]
  · rfl

theorem memRead_seconds_same (hc : s.cfg.Legal) (x : Nat) {j : Nat} (hj : j < s.cfg.kS) :
    { s with seconds := x }.memRead (secondsBase + j) = some (wordAt s.cfg.wWord x j) :=
  memRead_seconds (s := { s with seconds := x }) hc hj

/-- A change of `SECONDS` that keeps every word but word `j` shows at no other offset. -/
theorem memRead_seconds_other {x j off : Nat}
    (hx : ∀ j', j' ≠ j → wordAt s.cfg.wWord x j' = wordAt s.cfg.wWord s.seconds j')
    (h : off ≠ secondsBase + j) : { s with seconds := x }.memRead off = s.memRead off := by
  unfold State.memRead
  split
  · rfl
  split
  · rfl
  split
  · have other : off - 16 ≠ j := by unfold secondsBase at h; omega
    simp only [hx _ other]
  · rfl

/-- A value of one word, written as word `j` and read back, is cut to the bits of the register from that word on. -/
theorem wordAt_setWordAt_of_lt {w width v j x : Nat} (hx : x < 2 ^ w) :
    wordAt w (setWordAt w width v j x) j = x % 2 ^ (width - j * w) := by
  rw [wordAt_setWordAt_same]
  exact narrow_of_lt (Nat.lt_of_le_of_lt (Nat.mod_le _ _) hx)

/-! ### A word write, read back -/

/-- A word write is local: no other word of the view changes (R11, R61). -/
theorem memRead_memWrite_other (hw : s.Wf) {t : State} {off off' v : Nat} (h : s.memWrite off v = .next t)
    (ho : off' ≠ off) : t.memRead off' = s.memRead off' := by
  obtain ⟨rfl, rfl⟩ | ⟨rfl, rfl⟩ | ⟨rfl, rfl⟩ | ⟨j, -, -, rfl, rfl⟩ | ⟨j, -, -, rfl, rfl⟩ := memWrite_next h
  · exact memRead_counters_other (absurd · ho) (fun _ => rfl) (fun _ => rfl)
  · exact memRead_counters_other (fun _ => rfl) (absurd · ho) (fun _ => rfl)
  · exact memRead_counters_other (fun _ => rfl) (fun _ => rfl) (absurd · ho)
  · exact memRead_ticks_other (fun _ hj => wordAt_setWordAt_other hw.ticks_lt hj) ho
  · exact memRead_seconds_other (fun _ hj => wordAt_setWordAt_other hw.seconds_lt hj) ho

/-- How many bits the register has from the word at a writable offset on (R11, R40). -/
def wordBits (c : Config) (off : Nat) : Nat :=
  if off < ticksBase then c.wHw
  else if off < secondsBase then c.wTick - (off - ticksBase) * c.wWord
  else c.wSec - (off - secondsBase) * c.wWord

theorem wordBits_ticks (c : Config) {j : Nat} (hj : j < 8) : wordBits c (ticksBase + j) = c.wTick - j * c.wWord := by
  have past : ¬ ticksBase + j < ticksBase := by omega
  have inside : ticksBase + j < secondsBase := by unfold ticksBase secondsBase; omega
  rw [wordBits, if_neg past, if_pos inside, Nat.add_sub_cancel_left]

theorem wordBits_seconds (c : Config) (j : Nat) : wordBits c (secondsBase + j) = c.wSec - j * c.wWord := by
  have past : ¬ secondsBase + j < ticksBase := by unfold ticksBase secondsBase; omega
  have beyond : ¬ secondsBase + j < secondsBase := by omega
  rw [wordBits, if_neg past, if_neg beyond, Nat.add_sub_cancel_left]

/-- A word write is read back, cut to the bits that the register has there (R11, R61). -/
theorem memRead_memWrite_same (hc : s.cfg.Legal) {t : State} {off v : Nat} (hv : v < 2 ^ s.cfg.wWord)
    (h : s.memWrite off v = .next t) : t.memRead off = some (v % 2 ^ wordBits s.cfg off) := by
  obtain ⟨rfl, rfl⟩ | ⟨rfl, rfl⟩ | ⟨rfl, rfl⟩ | ⟨j, hj, h8, rfl, rfl⟩ | ⟨j, hj, -, rfl, rfl⟩ := memWrite_next h
  · rfl
  · rfl
  · rfl
  · rw [memRead_ticks_same hc _ hj, wordAt_setWordAt_of_lt hv, wordBits_ticks _ h8]
  · rw [memRead_seconds_same hc _ hj, wordAt_setWordAt_of_lt hv, wordBits_seconds]

/-- A word write changes registers of the view alone: no flag, and nothing of the sequencing state. -/
theorem memWrite_frame {t : State} {off v : Nat} (h : s.memWrite off v = .next t) :
    t.fgs = s.fgs ∧ t.cpc = s.cpc ∧ t.hist = s.hist ∧ t.gie = s.gie ∧ t.cmpie = s.cmpie ∧ t.cmpifg = s.cmpifg
      ∧ t.run = s.run ∧ t.inIsr = s.inIsr ∧ t.iph = s.iph := by
  obtain ⟨-, rfl⟩ | ⟨-, rfl⟩ | ⟨-, rfl⟩ | ⟨j, -, -, -, rfl⟩ | ⟨j, -, -, -, rfl⟩ := memWrite_next h <;> simp

/-- Settles O52: the five kinds of word that a write reaches, each read back and each local. -/
theorem wordWriteIsReadBackAndLocal : Obligations.WordWriteIsReadBackAndLocal := by
  intro s off x hw hx
  refine ⟨fun t h => ⟨fun off' ho => memRead_memWrite_other hw h ho, ?_, memWrite_frame h⟩,
    memWrite_next_iff hw.legal, ?_⟩
  · refine ⟨wordBits s.cfg off, memRead_memWrite_same hw.legal hx h, ?_, ?_, ?_⟩
    · rintro (rfl | rfl | rfl) <;> rfl
    · rintro j hj rfl
      exact wordBits_ticks s.cfg hj
    · rintro j - rfl
      exact wordBits_seconds s.cfg j
  · simp [memWrite_fault]

end Sys2Proof.Machine
end

section
/-! SUPPORT. When an agent's step exists: a foreground micro-step whenever the foreground is not held, a handler micro-step
whenever `IPH` names one or the entry is enabled (R31, R124, R125). -/

namespace Sys2Proof.Machine

variable {s t : State}

/-! ### `REBASE`, label by label -/

theorem rebase_atHwcnt {v h : Nat} (hl : s.fgLabel (.rebase v h) = .ok .rebaseHwcnt) :
    exec (.rebase v h) s = .next ({ s with hwcnt := narrow s.cfg.wHw h }.continueAt (.rebase v h) .rebaseCcr) := by
  change execRebase v h s = _
  unfold execRebase
  rw [hl]
  rfl

theorem rebase_atCcr {v h : Nat} (hl : s.fgLabel (.rebase v h) = .ok .rebaseCcr) :
    exec (.rebase v h) s =
      .next ({ s with ccr := addW s.cfg.wHw h s.cfg.interval }.continueAt (.rebase v h) (.rebaseTicks 0)) := by
  change execRebase v h s = _
  unfold execRebase
  rw [hl, ← narrow_of_lt (addW_lt s.cfg.wHw h s.cfg.interval)]
  simp [State.writeThen, State.memWrite]

theorem rebase_atTicks (hc : s.cfg.Legal) {v h k : Nat} (hl : s.fgLabel (.rebase v h) = .ok (.rebaseTicks k))
    (hk : k < s.cfg.kT) :
    exec (.rebase v h) s = .next (State.afterTicksWrite (.rebase v h) k
      { s with
        ticks := setWordAt s.cfg.wWord s.cfg.wTick s.ticks (sampleIndex s.cfg s.cfg.kT k)
          (wordAt s.cfg.wWord v (sampleIndex s.cfg s.cfg.kT k)) }) := by
  change execRebase v h s = _
  unfold execRebase
  rw [hl]
  simp only [State.writeThen, memWrite_ticks hc (sampleIndex_lt hk)]

/-! ### The foreground -/

/-- A micro-step at a label that fits its operation completes: every word it reads or writes is present (R13, R40). -/
theorem exec_next_of_labelFits (hc : s.cfg.Legal) {op : Instr} {lbl : FgLabel} (hl : s.fgLabel op = .ok lbl)
    (hfit : labelFits s.cfg op lbl = true) : ∃ t, exec op s = .next t := by
  unfold labelFits at hfit
  split at hfit
  · exact ⟨_, currentTicks_next.2 ⟨_, _, _, hl, memRead_ticks hc (sampleIndex_lt (sampleFits_length hfit)), rfl⟩⟩
  · exact ⟨_, currentSeconds_next.2 ⟨_, _, _, hl, memRead_seconds hc (sampleIndex_lt (sampleFits_length hfit)), rfl⟩⟩
  · exact ⟨_, wait_next.2 (.inl ⟨_, _, _, hl, memRead_ticks hc (sampleIndex_lt (sampleFits_length hfit)), rfl⟩)⟩
  · have sample := (Bool.and_eq_true_iff.1 hfit).2
    exact ⟨_, wait_next.2 (.inr ⟨_, _, _, _, hl, memRead_ticks hc (sampleIndex_lt (sampleFits_length sample)), rfl⟩)⟩
  · exact ⟨_, fineTicks_next.2 (.inl ⟨hl, rfl⟩)⟩
  · exact ⟨_, fineTicks_next.2 (.inr ⟨_, hl, rfl⟩)⟩
  · exact ⟨_, rebase_atHwcnt hl⟩
  · exact ⟨_, rebase_atCcr hl⟩
  · exact ⟨_, rebase_atTicks hc hl (of_decide_eq_true hfit)⟩
  · exact ⟨_, enterCritical_next.2 ⟨hl, rfl⟩⟩
  · exact ⟨_, exitCritical_next.2 ⟨hl, rfl⟩⟩
  · exact ⟨_, clockInit_next.2 ⟨hl, rfl⟩⟩
  · exact ⟨_, fineMax_next.2 ⟨hl, rfl⟩⟩
  · exact ⟨_, setSeconds_next.2 ⟨hl, rfl⟩⟩
  · cases hfit

/-- A foreground operation completes a micro-step only where the foreground has one of it (R32, R125). -/
theorem fgLabel_ok_of_exec_next {op : Instr} (ho : op.issuable = true) (h : exec op s = .next t) :
    ∃ lbl, s.fgLabel op = .ok lbl := by
  cases op with
  | enterCritical => exact ⟨_, (enterCritical_next.1 h).1⟩
  | exitCritical m => exact ⟨_, (exitCritical_next.1 h).1⟩
  | clockInit => exact ⟨_, (clockInit_next.1 h).1⟩
  | fineMax => exact ⟨_, (fineMax_next.1 h).1⟩
  | setSeconds v => exact ⟨_, (setSeconds_next.1 h).1⟩
  | currentTicks =>
    obtain ⟨a, w, x, hl, -⟩ := currentTicks_next.1 h
    exact ⟨_, hl⟩
  | currentSeconds =>
    obtain ⟨a, w, x, hl, -⟩ := currentSeconds_next.1 h
    exact ⟨_, hl⟩
  | fineTicks =>
    obtain ⟨hl, -⟩ | ⟨v, hl, -⟩ := fineTicks_next.1 h
    · exact ⟨_, hl⟩
    · exact ⟨_, hl⟩
  | wait n =>
    obtain ⟨a, w, x, hl, -⟩ | ⟨start, a, w, x, hl, -⟩ := wait_next.1 h
    · exact ⟨_, hl⟩
    · exact ⟨_, hl⟩
  | rebase v c =>
    obtain ⟨hl, -⟩ | ⟨hl, -⟩ | ⟨k, u, hl, -⟩ := rebase_next h
    · exact ⟨_, hl⟩
    · exact ⟨_, hl⟩
    · exact ⟨_, hl⟩
  | tmrCount | hostStop | hostStart | isrEntry | isrRearm | isrTest | isrSnapshot | isrEventcheck | isrExit => cases ho

/-- In a state that meets the invariant, an operation has a micro-step exactly where the foreground has one of it. -/
theorem exec_fg_next_iff (hw : s.Wf) {op : Instr} (ho : op.issuable = true) :
    (∃ t, exec op s = .next t) ↔ ∃ lbl, s.fgLabel op = .ok lbl := by
  constructor
  · rintro ⟨t, h⟩
    exact fgLabel_ok_of_exec_next ho h
  · rintro ⟨lbl, hl⟩
    exact exec_next_of_labelFits hw.legal hl (hw.labelFits_fgLabel ho hl)

/-- When the foreground can step (R31, R125). -/
theorem stepAs_fg_next_iff (hw : s.Wf) :
    (∃ t, stepAs .fg s = .next t) ↔ s.inIsr = false ∧
      ((∃ op lbl, s.fgs = .busy op lbl) ∨ (s.fgs = .idle ∧ ∃ i, decode s.cfg s.prog s.cpc = .op i)) := by
  constructor
  · rintro ⟨t, h⟩
    obtain ⟨-, i, hi, he⟩ := stepAs_next.1 h
    obtain ⟨lbl, hf⟩ | ⟨hf, hisr, hd⟩ := instrOf_fg.1 hi
    · obtain ⟨l, hl⟩ := fgLabel_ok_of_exec_next (labelFits_issuable (hw.labelFits_busy hf)) he
      exact ⟨(fgLabel_ok.1 hl).1, .inl ⟨i, lbl, hf⟩⟩
    · exact ⟨hisr, .inr ⟨hf, i, hd⟩⟩
  · rintro ⟨hisr, ⟨op, lbl, hf⟩ | ⟨hf, i, hd⟩⟩
    · rw [stepAs_eq hw.cfg_valid (instrOf_fg_busy hf)]
      exact exec_next_of_labelFits hw.legal (fgLabel_busy hisr hf) (hw.labelFits_busy hf)
    · rw [stepAs_eq hw.cfg_valid (instrOf_fg_idle hisr hf hd)]
      exact (exec_fg_next_iff hw (decode_op_issuable hd)).2 ⟨_, fgLabel_idle i hisr hf⟩

/-! ### The handler -/

/-- The handler's step exists exactly when `IPH` names one or the entry is enabled (R124, R125). -/
theorem exec_isrInstr_next_iff :
    (∃ t, exec s.isrInstr s = .next t) ↔ s.iph ≠ .none ∨ s.entryEnabled = true := by
  unfold State.isrInstr
  cases hp : s.iph with
  | none => simp [isrEntry_next, entryEnabled_iff]
  | rearm => simp [isrRearm_next, hp]
  | test => simp [isrTest_next, hp]
  | snap => simp [isrSnapshot_next, hp]
  | check => simp [isrEventcheck_next, hp]
  | exit => simp [isrExit_next, hp]

/-- When the handler can step (R124, R125). -/
theorem stepAs_isr_next_iff (hw : s.Wf) :
    (∃ t, stepAs .isr s = .next t) ↔ s.inIsr = true ∨ (s.cmpifg = true ∧ s.cmpie = true ∧ s.gie = true) := by
  rw [stepAs_eq hw.cfg_valid rfl, exec_isrInstr_next_iff, entryEnabled_iff, Ne, hw.phase]
  cases s.inIsr <;> simp

/-! ### The agents together -/

/-- Settles O5: for each agent, its instruction completes exactly under the agent's enabling condition. -/
theorem agentsStepExactlyWhenEnabled : Obligations.AgentsStepExactlyWhenEnabled := by
  intro s hw
  refine ⟨stepAs_fg_next_iff hw, stepAs_isr_next_iff hw, ?_, ?_, ?_⟩
  · rw [stepAs_eq hw.cfg_valid rfl]
    simp [tmrCount_next]
  · rw [stepAs_eq hw.cfg_valid rfl]
    exact ⟨_, hostStop_next.2 rfl⟩
  · rw [stepAs_eq hw.cfg_valid rfl]
    exact ⟨_, hostStart_next.2 rfl⟩

end Sys2Proof.Machine
end

section
/-! SUPPORT. One step under the state's own choice of the agent (R13, R204). -/

namespace Sys2Proof.Machine

variable {s : State}

/-- A step runs the chosen agent's instruction, on the state with the choice used up. -/
theorem step_eq (hv : s.cfg.valid = true) {i : Instr} (hi : s.instrOf s.choice = .next i) : step s = exec i s.chosen := by
  simp only [step, hv, hi, if_true]

/-- When the handler is chosen, a step runs the instruction that `IPH` names (R125). -/
theorem step_isr (hv : s.cfg.valid = true) (hc : s.choice = .isr) : step s = exec s.isrInstr s.chosen :=
  step_eq hv (by rw [hc]; rfl)

theorem State.choice_of_sched {c : Choice} {cs : List Choice} (h : s.sched = c :: cs) : s.choice = c := by
  rw [State.choice, h]

theorem State.chosen_of_sched {c : Choice} {cs : List Choice} (h : s.sched = c :: cs) :
    s.chosen = { s with sched := cs } := by
  rw [State.chosen, h]

theorem State.chosen_of_sched_nil (h : s.sched = []) : s.chosen = { s with choices := s.choices + 1 } := by
  rw [State.chosen, h]

/-- Settles O3: each clause is `step_eq` at one agent and, for the handler, one phase. -/
theorem stepRunsTheChosenAgentsInstruction : Obligations.StepRunsTheChosenAgentsInstruction := by
  intro s hv
  have handler {p : Phase} (hc : s.choice = .isr) (hp : s.iph = p) :
      step s = exec ({ s with iph := p }.isrInstr) s.chosen := by rw [step_isr hv hc, ← hp]
  refine ⟨fun i hc hisr hf hd => step_eq hv ?_, fun op lbl hc hf => step_eq hv ?_, handler, handler, handler, handler,
    handler, handler, fun hc => step_eq hv ?_, fun hc => step_eq hv ?_, fun hc => step_eq hv ?_,
    fun c cs h => ⟨State.choice_of_sched h, State.chosen_of_sched h⟩, State.chosen_of_sched_nil⟩
  · rw [hc, instrOf_fg_idle hisr hf hd]
  · rw [hc, instrOf_fg_busy hf]
  all_goals rw [hc]; rfl

end Sys2Proof.Machine
end

section
/-! SUPPORT. What the decoder has established when it gives an operation (R83, R87). -/

namespace Sys2Proof

/-- Every assembled operand is below two to the power of its width (R83). -/
theorem takeOperands_lt {ws xs : List Nat} {stream : List Word} (h : takeOperands ws stream = .ok xs) :
    List.Forall₂ (fun w x => x < 2 ^ w) ws xs := by
  induction ws generalizing stream xs with
  | nil =>
    cases h
    exact .nil
  | cons w ws ih =>
    obtain ⟨ys, hx, hys, rfl⟩ := takeOperands_cons.1 h
    exact .cons hx (ih hys)

/-- Operands of their widths make a well-formed operation. -/
theorem OpName.wf_of_withOperands {c : Config} {op : OpName} {xs : List Nat} {i : Instr}
    (hx : List.Forall₂ (fun w x => x < 2 ^ w) (op.operandWidths c) xs) (h : op.withOperands xs = some i) :
    i.wf c = true := by
  unfold OpName.withOperands at h
  split at h <;> cases h <;> simp_all [Instr.wf, OpName.operandWidths]

/-- Everything that holds where operands make an operation: there are words enough, and the operands are in range. -/
theorem decodeOperands_inv {c : Config} {op : OpName} {rest : List Word} {i : Instr}
    (h : decodeOperands c op rest = .op i) :
    i.opName = some op ∧ operandsLength (op.operandWidths c) ≤ rest.length ∧ i.wf c = true := by
  have name := decodeOperands_op h
  unfold decodeOperands at h
  split at h
  · cases h
  next enough =>
    split at h
    · cases h
    next xs taken =>
      split at h
      · cases h
        exact ⟨name, Nat.le_of_not_lt enough, OpName.wf_of_withOperands (takeOperands_lt taken) ‹_›⟩
      · cases h

/-- Where the decoder gives an operation, the operation is well formed and all its words are inside the stream. -/
theorem decode_op_inv {c : Config} {prog : List Word} {cpc : Nat} {i : Instr} (h : decode c prog cpc = .op i) :
    ∃ op, i.opName = some op ∧ cpc + op.length c ≤ prog.length ∧ i.wf c = true := by
  unfold decode at h
  split at h
  · cases h
  next w rest hdrop =>
    split at h
    · cases h
    split at h
    · cases h
    split at h
    · cases h
    split at h
    · cases h
    next op _ =>
      obtain ⟨name, enough, wf⟩ := decodeOperands_inv h
      have words : prog.length - cpc = rest.length + 1 := by rw [← List.length_drop, hdrop, List.length_cons]
      have inside : cpc + op.length c ≤ prog.length := by
        unfold OpName.length
        omega
      exact ⟨op, name, inside, wf⟩

theorem decode_op_wf {c : Config} {prog : List Word} {cpc : Nat} {i : Instr} (h : decode c prog cpc = .op i) :
    i.wf c = true := by
  obtain ⟨-, -, -, wf⟩ := decode_op_inv h
  exact wf

/-- A step label has no operand, so it is well formed in every configuration. -/
theorem Instr.wf_of_not_issuable (c : Config) {i : Instr} (h : i.issuable = false) : i.wf c = true := by
  cases i with
  | tmrCount | hostStop | hostStart | isrEntry | isrRearm | isrTest | isrSnapshot | isrEventcheck | isrExit => rfl
  | _ => cases h

end Sys2Proof
end

section
/-! SUPPORT. What one micro-step writes, by agent: the foreground's writes registers and then moves the sequencer; a step
label's leaves the foreground alone. Every frame and invariant of a step is read off these. -/

namespace Sys2Proof.Machine

variable {s t u : State} {op i : Instr}

/-! ### The foreground -/

/-- What a micro-step of a foreground operation can write before it moves the sequencer: `u` is the state `s` with the
registers and flags written (R100, R101, R110, R190). Operations that only read, and `SET_SECONDS`, write nothing. -/
inductive FgWrites (s : State) : Instr → State → Prop where
  | nothing (op : Instr) : FgWrites s op s
  | clearEnable : FgWrites s .enterCritical { s with gie := false }
  | maskedEnable (m : Nat) : FgWrites s (.exitCritical m) { s with gie := if maskEnable m then true else s.gie }
  | clock : FgWrites s .clockInit s.initClock
  | counter (v h : Nat) : FgWrites s (.rebase v h) { s with hwcnt := narrow s.cfg.wHw h }
  | deadline (v h : Nat) : FgWrites s (.rebase v h) { s with ccr := addW s.cfg.wHw h s.cfg.interval }
  | ticksWord (v h : Nat) {k x : Nat} {u : State}
      (write : s.memWrite (ticksBase + sampleIndex s.cfg s.cfg.kT k) x = .next u) : FgWrites s (.rebase v h) u

/-- How a micro-step moves the sequencer once its writes are done: the operation goes on, or it ends (R31, R32). -/
def State.Sequences (u : State) (op : Instr) (t : State) : Prop :=
  (∃ lbl, t = u.continueAt op lbl) ∨ ∃ name v, op.opName = some name ∧ t = u.finish name v

/-- A move of the sequencer touches `FGS`, `cpc` and the history alone. -/
theorem State.Sequences.eq (h : u.Sequences op t) : ∃ f c es, t = { u with fgs := f, cpc := c, hist := u.hist ++ es } := by
  obtain ⟨lbl, rfl⟩ | ⟨name, v, -, rfl⟩ := h
  · exact ⟨.busy op lbl, u.cpc, [], by simp [State.continueAt]⟩
  · exact ⟨.idle, u.cpc + name.length u.cfg, [.ret name v], rfl⟩

theorem afterTicksRead_sequences (r : SyncResult) : s.Sequences .currentTicks (s.afterTicksRead r) := by
  cases r with
  | again a w => exact .inl ⟨_, rfl⟩
  | agreed v => exact .inr ⟨_, _, rfl, rfl⟩

theorem afterSecondsRead_sequences (r : SyncResult) : s.Sequences .currentSeconds (s.afterSecondsRead r) := by
  cases r with
  | again a w => exact .inl ⟨_, rfl⟩
  | agreed v => exact .inr ⟨_, _, rfl, rfl⟩

theorem afterWaitStart_sequences (n : Nat) (r : SyncResult) : s.Sequences (.wait n) (s.afterWaitStart n r) := by
  cases r with
  | again a w => exact .inl ⟨_, rfl⟩
  | agreed v => exact .inl ⟨_, rfl⟩

theorem afterWaitNow_sequences (n start : Nat) (r : SyncResult) :
    s.Sequences (.wait n) (s.afterWaitNow n start r) := by
  cases r with
  | again a w => exact .inl ⟨_, rfl⟩
  | agreed now =>
    simp only [State.afterWaitNow]
    split
    · exact .inr ⟨_, _, rfl, rfl⟩
    · exact .inl ⟨_, rfl⟩

theorem afterTicksWrite_sequences (v h k : Nat) :
    u.Sequences (.rebase v h) (State.afterTicksWrite (.rebase v h) k u) := by
  unfold State.afterTicksWrite
  split
  · exact .inl ⟨_, rfl⟩
  · exact .inr ⟨_, _, rfl, rfl⟩

/-- Everything that a micro-step of a foreground operation does, in any state: its writes, then the sequencer's move. -/
theorem exec_fg_cases (ho : op.issuable = true) (h : exec op s = .next t) :
    ∃ u, FgWrites s op u ∧ u.Sequences op t := by
  cases op with
  | enterCritical =>
    obtain ⟨-, rfl⟩ := enterCritical_next.1 h
    exact ⟨_, .clearEnable, .inr ⟨_, _, rfl, rfl⟩⟩
  | exitCritical m =>
    obtain ⟨-, rfl⟩ := exitCritical_next.1 h
    exact ⟨_, .maskedEnable m, .inr ⟨_, _, rfl, rfl⟩⟩
  | clockInit =>
    obtain ⟨-, rfl⟩ := clockInit_next.1 h
    exact ⟨_, .clock, .inr ⟨_, _, rfl, rfl⟩⟩
  | fineMax =>
    obtain ⟨-, rfl⟩ := fineMax_next.1 h
    exact ⟨s, .nothing _, .inr ⟨_, _, rfl, rfl⟩⟩
  | setSeconds x =>
    obtain ⟨-, rfl⟩ := setSeconds_next.1 h
    exact ⟨s, .nothing _, .inr ⟨_, _, rfl, rfl⟩⟩
  | currentTicks =>
    obtain ⟨a, w, x, -, -, rfl⟩ := currentTicks_next.1 h
    exact ⟨s, .nothing _, afterTicksRead_sequences _⟩
  | currentSeconds =>
    obtain ⟨a, w, x, -, -, rfl⟩ := currentSeconds_next.1 h
    exact ⟨s, .nothing _, afterSecondsRead_sequences _⟩
  | fineTicks =>
    obtain ⟨-, rfl⟩ | ⟨v, -, rfl⟩ := fineTicks_next.1 h
    · exact ⟨s, .nothing _, .inl ⟨_, rfl⟩⟩
    · exact ⟨s, .nothing _, .inr ⟨_, _, rfl, rfl⟩⟩
  | wait n =>
    obtain ⟨a, w, x, -, -, rfl⟩ | ⟨start, a, w, x, -, -, rfl⟩ := wait_next.1 h
    · exact ⟨s, .nothing _, afterWaitStart_sequences n _⟩
    · exact ⟨s, .nothing _, afterWaitNow_sequences n start _⟩
  | rebase v c =>
    obtain ⟨-, rfl⟩ | ⟨-, rfl⟩ | ⟨k, u, -, write, rfl⟩ := rebase_next h
    · exact ⟨_, .counter v c, .inl ⟨_, rfl⟩⟩
    · exact ⟨_, .deadline v c, .inl ⟨_, rfl⟩⟩
    · exact ⟨u, .ticksWord v c write, afterTicksWrite_sequences v c k⟩
  | tmrCount | hostStop | hostStart | isrEntry | isrRearm | isrTest | isrSnapshot | isrEventcheck | isrExit => cases ho

/-- A foreground operation completes no micro-step inside the handler (R125). -/
theorem inIsr_of_exec_fg (ho : op.issuable = true) (h : exec op s = .next t) : s.inIsr = false := by
  obtain ⟨lbl, hl⟩ := fgLabel_ok_of_exec_next ho h
  exact (fgLabel_ok.1 hl).1

/-- The words of `TICKS` that `REBASE` writes are inside `TICKS`, so nothing else of the view changes. -/
theorem memWrite_orderedTicks (hc : s.cfg.Legal) {k x : Nat}
    (h : s.memWrite (ticksBase + sampleIndex s.cfg s.cfg.kT k) x = .next u) :
    u = { s with ticks := setWordAt s.cfg.wWord s.cfg.wTick s.ticks (sampleIndex s.cfg s.cfg.kT k) x } := by
  have inside : sampleIndex s.cfg s.cfg.kT k < s.cfg.kT := by
    by_cases hk : k < s.cfg.kT
    · exact sampleIndex_lt hk
    · have past : (s.cfg.order s.cfg.kT).length ≤ k := by simpa using hk
      rw [sampleIndex, List.getD_eq_default _ _ past]
      exact hc.kT_pos
  rw [memWrite_ticks hc inside] at h
  cases h
  rfl

/-! ### What every micro-step keeps -/

/-- What no micro-step of any agent writes, and the history, which it only extends (R31, R33, R35). -/
structure State.Extends (s t : State) : Prop where
  cfg : t.cfg = s.cfg
  prog : t.prog = s.prog
  hist : s.hist <+: t.hist

/-- What a foreground micro-step's writes keep: the sequencer and the handler's phase. -/
theorem FgWrites.keeps (h : FgWrites s op u) :
    s.Extends u ∧ u.fgs = s.fgs ∧ u.cpc = s.cpc ∧ u.inIsr = s.inIsr ∧ u.iph = s.iph := by
  cases h with
  | ticksWord v h write =>
    obtain ⟨-, rfl⟩ | ⟨-, rfl⟩ | ⟨-, rfl⟩ | ⟨j, -, -, -, rfl⟩ | ⟨j, -, -, -, rfl⟩ := memWrite_next write <;>
      exact ⟨⟨rfl, rfl, List.prefix_rfl⟩, rfl, rfl, rfl, rfl⟩
  | clock => exact ⟨⟨rfl, rfl, List.prefix_append _ _⟩, rfl, rfl, rfl, rfl⟩
  | _ => exact ⟨⟨rfl, rfl, List.prefix_rfl⟩, rfl, rfl, rfl, rfl⟩

/-- What a micro-step of a step label keeps, in any state: the sequencer, as the agents behind the labels do not run the
foreground (R86, R205). -/
theorem exec_label_keeps (hi : i.issuable = false) (h : exec i s = .next t) :
    s.Extends t ∧ t.fgs = s.fgs ∧ t.cpc = s.cpc := by
  cases i with
  | tmrCount =>
    obtain ⟨-, rfl⟩ := tmrCount_next.1 h
    exact ⟨⟨rfl, rfl, List.prefix_rfl⟩, rfl, rfl⟩
  | hostStop =>
    obtain rfl := hostStop_next.1 h
    exact ⟨⟨rfl, rfl, List.prefix_rfl⟩, rfl, rfl⟩
  | hostStart =>
    obtain rfl := hostStart_next.1 h
    exact ⟨⟨rfl, rfl, List.prefix_rfl⟩, rfl, rfl⟩
  | isrEntry =>
    obtain ⟨-, rfl⟩ := isrEntry_next.1 h
    exact ⟨⟨rfl, rfl, List.prefix_append _ _⟩, rfl, rfl⟩
  | isrRearm =>
    obtain ⟨-, rfl⟩ := isrRearm_next.1 h
    refine ⟨⟨rfl, rfl, ?_⟩, rfl, rfl⟩
    rw [State.countDeadline_hist]
    split
    · exact List.prefix_append _ _
    · exact List.prefix_rfl
  | isrTest =>
    obtain ⟨-, rfl⟩ := isrTest_next.1 h
    exact ⟨⟨rfl, rfl, List.prefix_rfl⟩, rfl, rfl⟩
  | isrSnapshot =>
    obtain ⟨-, rfl⟩ := isrSnapshot_next.1 h
    exact ⟨⟨rfl, rfl, List.prefix_rfl⟩, rfl, rfl⟩
  | isrEventcheck =>
    obtain ⟨-, rfl⟩ := isrEventcheck_next.1 h
    exact ⟨⟨by simp, by simp, by simp⟩, by simp, by simp⟩
  | isrExit =>
    obtain ⟨-, rfl⟩ := isrExit_next.1 h
    exact ⟨⟨rfl, rfl, List.prefix_append _ _⟩, rfl, rfl⟩
  | _ => cases hi

/-- No instruction writes the configuration or the stream, and none takes an event back. -/
theorem exec_extends (h : exec i s = .next t) : s.Extends t := by
  cases hi : i.issuable with
  | false => exact (exec_label_keeps hi h).1
  | true =>
    obtain ⟨u, writes, moves⟩ := exec_fg_cases hi h
    obtain ⟨f, c, es, rfl⟩ := moves.eq
    obtain ⟨⟨hcfg, hprog, hhist⟩, -⟩ := writes.keeps
    exact ⟨hcfg, hprog, hhist.trans (List.prefix_append _ _)⟩

/-! ### The instruction of a step -/

/-- Only the foreground's step is a foreground operation: the other agents take step labels (R86). -/
theorem eq_fg_of_instrOf_issuable {c : Choice} (hi : s.instrOf c = .next i) (ho : i.issuable = true) : c = .fg := by
  cases c with
  | fg => rfl
  | isr =>
    cases hi
    cases hp : s.iph <;> simp [State.isrInstr, hp, Instr.issuable, Instr.opName] at ho
  | tmr => cases hi; cases ho
  | hostStop => cases hi; cases ho
  | hostStart => cases hi; cases ho

/-- So it is with a step of any agent: choosing the agent touches neither. -/
theorem step_extends (h : step s = .next t) : s.Extends t := by
  obtain ⟨-, i, -, he⟩ := step_next.1 h
  obtain ⟨hcfg, hprog, hhist⟩ := exec_extends he
  exact ⟨by simpa using hcfg, by simpa using hprog, by simpa using hhist⟩

end Sys2Proof.Machine
end

section
/-! SUPPORT. The state invariant of R45, kept by every step: the working values of the operation in progress, the registers
that the foreground writes, and the micro-steps of the other agents. -/

namespace Sys2Proof.Machine

variable {s t u : State} {op i : Instr}

/-! ### The working values of the operation in progress -/

/-- What a word read leads to has its widths: the sample that goes on, or the agreed value (R32, R45). -/
def SyncResult.fits (c : Config) (k width : Nat) : SyncResult → Prop
  | .again a w => sampleFits c k width a w = true
  | .agreed v => v < 2 ^ width

theorem sampleFits_iff {c : Config} {k width : Nat} {a : Option Nat} {w : List Nat} :
    sampleFits c k width a w = true ↔
      (∀ v, a = some v → v < 2 ^ width) ∧ w.length < k ∧ ∀ x ∈ w, x < 2 ^ c.wWord := by
  simp [sampleFits, Option.all_eq_true, and_assoc]

theorem sampleFits_start {c : Config} {k width : Nat} (hk : 0 < k) : sampleFits c k width none [] = true := by
  simp [sampleFits, hk]

/-- The word read joins a sample that is not yet whole; a whole sample is narrowed to the register's width. -/
theorem syncStep_fits {c : Config} {k width x : Nat} {a : Option Nat} {w : List Nat}
    (h : sampleFits c k width a w = true) (hx : x < 2 ^ c.wWord) : (syncStep c k width a w x).fits c k width := by
  obtain ⟨ha, hlen, hw⟩ := sampleFits_iff.1 h
  obtain ⟨goesOn, he⟩ | ⟨-, -, he⟩ | ⟨-, -, he⟩ := syncStep_cases c k width a w x
  · rw [he]
    have words : ∀ y ∈ w ++ [x], y < 2 ^ c.wWord := by
      simp only [List.mem_append, List.mem_singleton]
      rintro y (hy | rfl)
      · exact hw y hy
      · exact hx
    exact sampleFits_iff.2 ⟨ha, by simpa using goesOn, words⟩
  · rw [he]
    exact sampleValue_lt _ _ _ _
  · rw [he]
    refine sampleFits_iff.2 ⟨?_, Nat.zero_lt_of_lt hlen, by simp⟩
    rintro v ⟨⟩
    exact sampleValue_lt _ _ _ _

theorem afterTicksRead_fits {r : SyncResult} (h : r.fits s.cfg s.cfg.kT s.cfg.wTick) :
    (s.afterTicksRead r).fgs.fits s.cfg = true := by
  cases r with
  | again a w => exact h
  | agreed v => rfl

theorem afterSecondsRead_fits {r : SyncResult} (h : r.fits s.cfg s.cfg.kS s.cfg.wSec) :
    (s.afterSecondsRead r).fgs.fits s.cfg = true := by
  cases r with
  | again a w => exact h
  | agreed v => rfl

theorem waitNow_fits {c : Config} {n start : Nat} {a : Option Nat} {w : List Nat} (hn : (Instr.wait n).wf c = true)
    (hs : start < 2 ^ c.wTick) (h : sampleFits c c.kT c.wTick a w = true) :
    (Fgs.busy (.wait n) (.waitNow start a w)).fits c = true := by
  simp [Fgs.fits, labelFits, hn, hs, h]

theorem afterWaitStart_fits (hc : s.cfg.Legal) {n : Nat} (hn : (Instr.wait n).wf s.cfg = true) {r : SyncResult}
    (h : r.fits s.cfg s.cfg.kT s.cfg.wTick) : (s.afterWaitStart n r).fgs.fits s.cfg = true := by
  cases r with
  | again a w => exact Bool.and_eq_true_iff.2 ⟨hn, h⟩
  | agreed v => exact waitNow_fits hn h (sampleFits_start hc.kT_pos)

theorem afterWaitNow_fits (hc : s.cfg.Legal) {n start : Nat} (hn : (Instr.wait n).wf s.cfg = true)
    (hs : start < 2 ^ s.cfg.wTick) {r : SyncResult} (h : r.fits s.cfg s.cfg.kT s.cfg.wTick) :
    (s.afterWaitNow n start r).fgs.fits s.cfg = true := by
  cases r with
  | again a w => exact waitNow_fits hn hs h
  | agreed now =>
    simp only [State.afterWaitNow]
    split
    · rfl
    · exact waitNow_fits hn hs (sampleFits_start hc.kT_pos)

theorem afterTicksWrite_fits {v h : Nat} (k : Nat) (hr : (Instr.rebase v h).wf u.cfg = true) :
    (State.afterTicksWrite (.rebase v h) k u).fgs.fits u.cfg = true := by
  unfold State.afterTicksWrite
  split
  · exact Bool.and_eq_true_iff.2 ⟨hr, decide_eq_true ‹_›⟩
  · rfl

/-- A word of the view has `W_WORD` bits where a sample reads it. -/
theorem ticksWord_lt (hc : s.cfg.Legal) {n x : Nat} (hn : n < s.cfg.kT)
    (h : s.memRead (ticksBase + sampleIndex s.cfg s.cfg.kT n) = some x) : x < 2 ^ s.cfg.wWord := by
  rw [memRead_ticks hc (sampleIndex_lt hn)] at h
  cases h
  exact wordAt_lt _ _ _

theorem secondsWord_lt (hc : s.cfg.Legal) {n x : Nat} (hn : n < s.cfg.kS)
    (h : s.memRead (secondsBase + sampleIndex s.cfg s.cfg.kS n) = some x) : x < 2 ^ s.cfg.wWord := by
  rw [memRead_seconds hc (sampleIndex_lt hn)] at h
  cases h
  exact wordAt_lt _ _ _

/-- After a foreground micro-step, what `FGS` holds has its widths again (R32, R45). -/
theorem exec_fg_fits (hw : s.Wf) (ho : op.issuable = true) (hop : op.wf s.cfg = true) (h : exec op s = .next t) :
    t.fgs.fits s.cfg = true := by
  have hc := hw.legal
  cases op with
  | enterCritical => obtain ⟨-, rfl⟩ := enterCritical_next.1 h; rfl
  | exitCritical m => obtain ⟨-, rfl⟩ := exitCritical_next.1 h; rfl
  | clockInit => obtain ⟨-, rfl⟩ := clockInit_next.1 h; rfl
  | fineMax => obtain ⟨-, rfl⟩ := fineMax_next.1 h; rfl
  | setSeconds x => obtain ⟨-, rfl⟩ := setSeconds_next.1 h; rfl
  | currentTicks =>
    obtain ⟨a, w, x, hl, hx, rfl⟩ := currentTicks_next.1 h
    have sample : sampleFits s.cfg s.cfg.kT s.cfg.wTick a w = true := hw.labelFits_fgLabel rfl hl
    exact afterTicksRead_fits (syncStep_fits sample (ticksWord_lt hc (sampleFits_length sample) hx))
  | currentSeconds =>
    obtain ⟨a, w, x, hl, hx, rfl⟩ := currentSeconds_next.1 h
    have sample : sampleFits s.cfg s.cfg.kS s.cfg.wSec a w = true := hw.labelFits_fgLabel rfl hl
    exact afterSecondsRead_fits (syncStep_fits sample (secondsWord_lt hc (sampleFits_length sample) hx))
  | fineTicks =>
    obtain ⟨-, rfl⟩ | ⟨v, -, rfl⟩ := fineTicks_next.1 h
    · exact decide_eq_true hw.last_lt
    · rfl
  | wait n =>
    obtain ⟨a, w, x, hl, hx, rfl⟩ | ⟨start, a, w, x, hl, hx, rfl⟩ := wait_next.1 h
    · have sample : sampleFits s.cfg s.cfg.kT s.cfg.wTick a w = true := hw.labelFits_fgLabel rfl hl
      exact afterWaitStart_fits hc hop (syncStep_fits sample (ticksWord_lt hc (sampleFits_length sample) hx))
    · obtain ⟨hs, sample⟩ := Bool.and_eq_true_iff.1 (hw.labelFits_fgLabel rfl hl)
      exact afterWaitNow_fits hc hop (of_decide_eq_true hs)
        (syncStep_fits sample (ticksWord_lt hc (sampleFits_length sample) hx))
  | rebase v c =>
    obtain ⟨-, rfl⟩ | ⟨-, rfl⟩ | ⟨k, u, -, write, rfl⟩ := rebase_next h
    · exact Bool.and_eq_true_iff.2 ⟨hop, rfl⟩
    · exact Bool.and_eq_true_iff.2 ⟨hop, decide_eq_true hc.kT_pos⟩
    · obtain rfl := memWrite_orderedTicks hc write
      exact afterTicksWrite_fits k hop
  | tmrCount | hostStop | hostStart | isrEntry | isrRearm | isrTest | isrSnapshot | isrEventcheck | isrExit => cases ho

/-! ### One instruction -/

/-- Every register that the foreground writes is narrowed to its width (R45). -/
theorem State.Wf.fgWrites (hw : s.Wf) (h : FgWrites s op u) : u.Wf := by
  cases h with
  | nothing => exact hw
  | clearEnable => exact { hw with }
  | maskedEnable m => exact { hw with }
  | clock =>
    exact { hw with
      ticks_lt := Nat.two_pow_pos _
      seconds_lt := Nat.two_pow_pos _
      hwcnt_lt := Nat.two_pow_pos _
      ccr_lt := hw.legal.interval_lt
      last_lt := Nat.two_pow_pos _ }
  | counter v h => exact { hw with hwcnt_lt := narrow_lt _ _ }
  | deadline v h => exact { hw with ccr_lt := addW_lt _ _ _ }
  | ticksWord v h write =>
    obtain rfl := memWrite_orderedTicks hw.legal write
    exact { hw with ticks_lt := setWordAt_lt _ _ _ _ _ }

theorem State.Wf.exec_fg (hw : s.Wf) (ho : op.issuable = true) (hop : op.wf s.cfg = true) (h : exec op s = .next t) :
    t.Wf := by
  have fits := exec_fg_fits hw ho hop h
  rw [← (exec_extends h).cfg] at fits
  obtain ⟨u, writes, moves⟩ := exec_fg_cases ho h
  obtain ⟨f, c, es, rfl⟩ := moves.eq
  exact { hw.fgWrites writes with fgs_fits := fits }

/-- `IPH` names a phase, so the handler is active. -/
theorem State.Wf.inIsr_of_iph (hw : s.Wf) {p : Phase} (hp : s.iph = p) (hn : p ≠ .none) : s.inIsr = true := by
  cases hi : s.inIsr with
  | true => rfl
  | false => exact absurd (hp.symm.trans (hw.phase.2 hi)) hn

/-- A phase inside an active handler is in order (R45). -/
theorem phase_iff_of_active {p : Phase} {b : Bool} (hp : p ≠ .none) (hb : b = true) : p = .none ↔ b = false := by
  simp [hp, hb]

theorem State.Wf.drawAnswer (hw : s.Wf) : s.drawAnswer.Wf := by
  unfold State.drawAnswer
  split <;> exact { hw with }

/-- The expiration is cut to `W_TICK` bits, and kept when none is drawn (R131; log entries 8 and 24). -/
theorem State.Wf.checkWith (hw : s.Wf) (hi : s.inIsr = true) (ans : Option Nat) : (s.checkWith ans).Wf := by
  have target : (s.checkWith ans).it < 2 ^ s.cfg.wTick := by
    cases ans with
    | none => exact hw.it_lt
    | some x => exact narrow_lt _ _
  exact { hw with phase := phase_iff_of_active nofun hi, it_lt := target }

/-- The counter, the host and each phase of the handler. -/
theorem State.Wf.exec_label (hw : s.Wf) (hi : i.issuable = false) (h : exec i s = .next t) : t.Wf := by
  cases i with
  | tmrCount =>
    obtain ⟨-, rfl⟩ := tmrCount_next.1 h
    exact { hw with hwcnt_lt := addW_lt _ _ _ }
  | hostStop =>
    obtain rfl := hostStop_next.1 h
    exact { hw with }
  | hostStart =>
    obtain rfl := hostStart_next.1 h
    exact { hw with }
  | isrEntry =>
    obtain ⟨-, rfl⟩ := isrEntry_next.1 h
    exact { hw with phase := phase_iff_of_active nofun rfl }
  | isrRearm =>
    obtain ⟨hp, rfl⟩ := isrRearm_next.1 h
    have seconds : s.countDeadline.seconds < 2 ^ s.cfg.wSec := by
      rw [State.countDeadline_seconds]
      split
      · exact addW_lt _ _ _
      · exact hw.seconds_lt
    exact { hw with
      phase := phase_iff_of_active nofun (hw.inIsr_of_iph hp nofun)
      ticks_lt := addW_lt _ _ _
      seconds_lt := seconds
      ccr_lt := addW_lt _ _ _ }
  | isrTest =>
    obtain ⟨hp, rfl⟩ := isrTest_next.1 h
    exact { hw with
      phase := phase_iff_of_active (by split <;> nofun) (hw.inIsr_of_iph hp nofun)
      ih_lt := hw.hwcnt_lt }
  | isrSnapshot =>
    obtain ⟨hp, rfl⟩ := isrSnapshot_next.1 h
    exact { hw with
      phase := phase_iff_of_active nofun (hw.inIsr_of_iph hp nofun)
      last_lt := hw.hwcnt_lt }
  | isrEventcheck =>
    obtain ⟨hp, rfl⟩ := isrEventcheck_next.1 h
    exact hw.drawAnswer.checkWith (by simpa using hw.inIsr_of_iph hp nofun) _
  | isrExit =>
    obtain ⟨-, rfl⟩ := isrExit_next.1 h
    exact { hw with phase := iff_of_true rfl rfl }
  | _ => cases hi

theorem State.Wf.exec (hw : s.Wf) (hi : i.wf s.cfg = true) (h : exec i s = .next t) : t.Wf := by
  cases ho : i.issuable with
  | true => exact hw.exec_fg ho hi h
  | false => exact hw.exec_label ho h

/-! ### One step -/

theorem State.Wf.chosen (hw : s.Wf) : s.chosen.Wf := by
  rw [s.chosen_eq]
  exact { hw with }

/-- The instruction of a step is well formed: it is a label, the operation in progress, or the one decoded at `cpc`. -/
theorem State.Wf.wf_of_instrOf (hw : s.Wf) {c : Choice} (hi : s.instrOf c = .next i) : i.wf s.cfg = true := by
  cases ho : i.issuable with
  | false => exact i.wf_of_not_issuable s.cfg ho
  | true =>
    obtain rfl := eq_fg_of_instrOf_issuable hi ho
    obtain ⟨lbl, hf⟩ | ⟨-, -, hd⟩ := instrOf_fg.1 hi
    · have fits := hw.fgs_fits
      rw [hf, Fgs.fits, Bool.and_eq_true] at fits
      exact fits.1
    · exact decode_op_wf hd

theorem exec_keeps_fgs_inIsr (h : exec i s = .next t) (hisr : s.inIsr = true) : t.fgs = s.fgs := by
  cases ho : i.issuable with
  | true => exact absurd (inIsr_of_exec_fg ho h) (by simp [hisr])
  | false =>
    obtain ⟨-, hfgs, -⟩ := exec_label_keeps ho h
    exact hfgs

/-- Settles O59: the chosen agent's instruction is well formed, and every well-formed instruction keeps the invariant. -/
theorem everyStepKeepsTheStateInvariant : Obligations.EveryStepKeepsTheStateInvariant := by
  intro s t hw h
  obtain ⟨-, i, hi, he⟩ := step_next.1 h
  have hwf : i.wf s.chosen.cfg = true := by simpa using hw.wf_of_instrOf hi
  exact ⟨hw.chosen.exec hwf he, fun hisr => by simpa using exec_keeps_fgs_inIsr he (by simpa using hisr)⟩

end Sys2Proof.Machine
end

section
/-! SUPPORT. The sequencing invariant of R31 and R32, kept by every step: `cpc` advances by whole operations of the
stream. -/

namespace Sys2Proof.Machine

variable {s t u : State} {op i : Instr}

/-- A state with the same stream, `cpc` and `FGS` is as sequenced. -/
theorem State.Sequenced.congr (hs : s.Sequenced) (hcfg : t.cfg = s.cfg) (hprog : t.prog = s.prog)
    (hcpc : t.cpc = s.cpc) (hfgs : t.fgs = s.fgs) : t.Sequenced := by
  obtain ⟨hle, hbusy⟩ := hs
  constructor
  · rw [hcpc, hprog]
    exact hle
  · rw [hcfg, hprog, hcpc, hfgs]
    exact hbusy

theorem State.Sequenced.chosen (hs : s.Sequenced) : s.chosen.Sequenced :=
  hs.congr s.chosen_cfg s.chosen_prog s.chosen_cpc s.chosen_fgs

/-- A foreground operation that a step runs is the one decoded at `cpc`. -/
theorem State.Sequenced.decode_of_instrOf (hs : s.Sequenced) {c : Choice} (hi : s.instrOf c = .next i)
    (ho : i.issuable = true) : decode s.cfg s.prog s.cpc = .op i := by
  obtain rfl := eq_fg_of_instrOf_issuable hi ho
  obtain ⟨lbl, hf⟩ | ⟨-, -, hd⟩ := instrOf_fg.1 hi
  · exact hs.busy_op i lbl hf
  · exact hd

/-- An operation decoded at `cpc` goes on there, or ends and leaves `cpc` past its last word, still inside the stream. -/
theorem State.Sequenced.sequences (hs : s.Sequenced) (hd : decode s.cfg s.prog s.cpc = .op op)
    (h : s.Sequences op t) : t.Sequenced ∧ s.cpc ≤ t.cpc := by
  obtain ⟨lbl, rfl⟩ | ⟨name, v, hname, rfl⟩ := h
  · refine ⟨⟨hs.cpc_le, ?_⟩, le_rfl⟩
    rintro op' lbl' ⟨⟩
    exact hd
  · obtain ⟨name', hname', inside, -⟩ := decode_op_inv hd
    obtain rfl : name = name' := Option.some.inj (hname.symm.trans hname')
    exact ⟨⟨inside, nofun⟩, Nat.le_add_right _ _⟩

theorem State.Sequenced.exec (hs : s.Sequenced) (hd : i.issuable = true → decode s.cfg s.prog s.cpc = .op i)
    (h : exec i s = .next t) : t.Sequenced ∧ s.cpc ≤ t.cpc := by
  cases ho : i.issuable with
  | false =>
    obtain ⟨⟨hcfg, hprog, -⟩, hfgs, hcpc⟩ := exec_label_keeps ho h
    exact ⟨hs.congr hcfg hprog hcpc hfgs, hcpc.ge⟩
  | true =>
    obtain ⟨u, writes, moves⟩ := exec_fg_cases ho h
    obtain ⟨⟨hcfg, hprog, -⟩, hfgs, hcpc, -⟩ := writes.keeps
    have decoded : decode u.cfg u.prog u.cpc = .op i := by
      rw [hcfg, hprog, hcpc]
      exact hd ho
    have kept := (hs.congr hcfg hprog hcpc hfgs).sequences decoded moves
    rwa [hcpc] at kept

/-- Settles O60: a foreground step runs the operation at `cpc`; the other agents leave the sequencer alone. -/
theorem everyStepKeepsTheSequence : Obligations.EveryStepKeepsTheSequence := by
  intro s t hs h
  obtain ⟨-, i, hi, he⟩ := step_next.1 h
  have decoded (ho : i.issuable = true) : decode s.chosen.cfg s.chosen.prog s.chosen.cpc = .op i := by
    simpa using hs.decode_of_instrOf hi ho
  simpa using hs.chosen.exec decoded he

end Sys2Proof.Machine
end

section
/-! SUPPORT. Who writes what (R33, R35, R38). -/

namespace Sys2Proof.Machine

/-- Settles O31: the sequencer's move touches no register, so each kind of foreground write and each label is looked up in the
writer table. -/
theorem registersHaveOnlyTheirWriters : Obligations.RegistersHaveOnlyTheirWriters := by
  intro i s t hv h
  cases ho : i.issuable with
  | true =>
    obtain ⟨u, writes, moves⟩ := exec_fg_cases ho h
    obtain ⟨f, c, es, rfl⟩ := moves.eq
    cases writes with
    | ticksWord v h write =>
      obtain rfl := memWrite_orderedTicks ((Config.valid_iff s.cfg).1 hv) write
      simp
    | _ => simp
  | false =>
    cases i with
    | tmrCount => obtain ⟨-, rfl⟩ := tmrCount_next.1 h; simp
    | hostStop => obtain rfl := hostStop_next.1 h; simp
    | hostStart => obtain rfl := hostStart_next.1 h; simp
    | isrEntry => obtain ⟨-, rfl⟩ := isrEntry_next.1 h; simp
    | isrRearm => obtain ⟨-, rfl⟩ := isrRearm_next.1 h; simp
    | isrTest => obtain ⟨-, rfl⟩ := isrTest_next.1 h; simp
    | isrSnapshot => obtain ⟨-, rfl⟩ := isrSnapshot_next.1 h; simp
    | isrEventcheck => obtain ⟨-, rfl⟩ := isrEventcheck_next.1 h; simp
    | isrExit => obtain ⟨-, rfl⟩ := isrExit_next.1 h; simp
    | _ => cases ho

/-- Settles O32: no instruction writes either. -/
theorem configurationAndStreamNeverChange : Obligations.ConfigurationAndStreamNeverChange := by
  intro s t h
  exact ⟨(step_extends h).cfg, (step_extends h).prog⟩

/-- Settles O33: every instruction only appends events. -/
theorem historyOnlyGrows : Obligations.HistoryOnlyGrows := by
  intro s t h
  exact (step_extends h).hist

end Sys2Proof.Machine
end

section
/-! SUPPORT. The register word view, word by word (R40, R42, R43). -/

namespace Sys2Proof.Machine

variable {s : State}

/-- Four flags, each at its own bit with nothing above, can be read back one by one (R42). -/
theorem testBit_flags : ∀ a b c d : Bool,
    bit a + 2 * bit b + 4 * bit c + 8 * bit d < 16
      ∧ (bit a + 2 * bit b + 4 * bit c + 8 * bit d).testBit 0 = a
      ∧ (bit a + 2 * bit b + 4 * bit c + 8 * bit d).testBit 1 = b
      ∧ (bit a + 2 * bit b + 4 * bit c + 8 * bit d).testBit 2 = c
      ∧ (bit a + 2 * bit b + 4 * bit c + 8 * bit d).testBit 3 = d := by
  decide

/-- The eight places for `TICKS`: its words, then zeros (R40, R41). -/
theorem memRead_ticksPlace {j : Nat} (hj : j < 8) :
    s.memRead (0x08 + j) = some (if j < s.cfg.kT then wordAt s.cfg.wWord s.ticks j else 0) := by
  have below : ¬ 8 + j < 8 := by omega
  have inside : 8 + j < 16 := by omega
  rw [State.memRead, if_neg below, if_pos inside, Nat.add_sub_cancel_left]

/-- The eight places for `SECONDS`: its words, then zeros (R40, R41). -/
theorem memRead_secondsPlace {j : Nat} (hj : j < 8) :
    s.memRead (0x10 + j) = some (if j < s.cfg.kS then wordAt s.cfg.wWord s.seconds j else 0) := by
  have below : ¬ 16 + j < 8 := by omega
  have past : ¬ 16 + j < 16 := by omega
  have inside : 16 + j < 24 := by omega
  rw [State.memRead, if_neg below, if_neg past, if_pos inside, Nat.add_sub_cancel_left]

theorem memRead_absent {off : Nat} (h : 0x18 ≤ off) : s.memRead off = none := by
  have above : ¬ off < 8 ∧ ¬ off < 16 ∧ ¬ off < 24 := by omega
  simp [State.memRead, above]

/-- Settles O51: the single words are the registers by definition; the flags, `TPS_LOG2` and the words of the two counters
are the lemmas above. -/
theorem wordViewHoldsTheRegisters : Obligations.WordViewHoldsTheRegisters := by
  intro s hv
  have hc := (Config.valid_iff s.cfg).1 hv
  exact ⟨rfl, ⟨s.ctrlWord, rfl, testBit_flags s.run s.cmpie s.cmpifg s.inIsr⟩, rfl, rfl, rfl, rfl,
    ⟨s.cfg.tpsLog2, rfl, hc.tps_pow⟩, rfl, fun _ => memRead_ticksPlace, fun _ => memRead_secondsPlace,
    fun _ => memRead_absent⟩

end Sys2Proof.Machine
end

section
/-! SUPPORT. Power-on reset (R44, R240, R241). -/

namespace Sys2Proof.Machine

/-- Settles O1: a draw of `W_HW` bits is kept whole, and the rest is what `State.por` lists. -/
theorem powerOnResetSetsEveryRegister : Obligations.PowerOnResetSetsEveryRegister := by
  intro c prog h0 c0 sched answers hh hc
  exact ⟨_, rfl, rfl, rfl, narrow_of_lt hh, narrow_of_lt hc, rfl, rfl, rfl, rfl, rfl, rfl, rfl, rfl, rfl, rfl, rfl, rfl⟩

/-- Power-on reset of a legal configuration is in order: zeros fit every width, and the draws are cut to theirs (R45). -/
theorem por_wf {c : Config} (hv : c.valid = true) (prog : List Word) (h0 c0 : Nat) (sched : List Choice)
    (answers : List (Option Nat)) : (State.por c prog h0 c0 sched answers).Wf where
  cfg_valid := hv
  phase := iff_of_true rfl rfl
  ticks_lt := Nat.two_pow_pos _
  seconds_lt := Nat.two_pow_pos _
  hwcnt_lt := narrow_lt _ _
  ccr_lt := narrow_lt _ _
  last_lt := Nat.two_pow_pos _
  ih_lt := Nat.two_pow_pos _
  it_lt := Nat.two_pow_pos _
  fgs_fits := rfl

/-- After power-on reset `cpc` is at the start of the stream and no operation is in progress (R31, R32). -/
theorem por_sequenced (c : Config) (prog : List Word) (h0 c0 : Nat) (sched : List Choice)
    (answers : List (Option Nat)) : (State.por c prog h0 c0 sched answers).Sequenced where
  cpc_le := Nat.zero_le _
  busy_op := nofun

/-- Settles O2: `State.reset` is power-on reset of TC16, which is legal. -/
theorem resetMeetsTheInvariants : Obligations.ResetMeetsTheInvariants := by
  have tc16_valid : tc16.valid = true := by decide
  exact ⟨fun c prog h0 c0 sched answers hv => ⟨por_wf hv .., por_sequenced ..⟩, por_wf tc16_valid .., por_sequenced ..⟩

end Sys2Proof.Machine
end

section
/-! SUPPORT. A command word by its fields: the op words and label words of R85 and R86, read and written. -/

namespace Sys2Proof

theorem toNat_reservedOf (w : Word) : (reservedOf w).toNat = w.toNat / 256 % 16 := by
  simp [reservedOf, Nat.shiftRight_eq_div_pow]

theorem toNat_classOf (w : Word) : (classOf w).toNat = w.toNat / 4096 := by
  have := w.isLt
  simp only [classOf, BitVec.extractLsb'_toNat, Nat.shiftRight_eq_div_pow]
  omega

theorem toNat_codeOf (w : Word) : (codeOf w).toNat = w.toNat % 256 := by
  simp [codeOf]

/-- The three fields of R81 are the whole word. -/
theorem word_eq_of_fields {v w : Word} (reserved : reservedOf v = reservedOf w) (cls : classOf v = classOf w)
    (code : codeOf v = codeOf w) : v = w := by
  have hr := congrArg BitVec.toNat reserved
  have hc := congrArg BitVec.toNat cls
  have ho := congrArg BitVec.toNat code
  simp only [toNat_reservedOf, toNat_classOf, toNat_codeOf] at hr hc ho
  apply BitVec.eq_of_toNat_eq
  omega

/-- What the word of every instruction says, field by field (R81, R85, R86). -/
theorem opWord_fields (i : Instr) : Laws.OpWord.Statement i := by
  cases i with
  | enterCritical => exact Laws.OpWord.enterCritical
  | exitCritical m => exact Laws.OpWord.exitCritical m
  | clockInit => exact Laws.OpWord.clockInit
  | currentTicks => exact Laws.OpWord.currentTicks
  | currentSeconds => exact Laws.OpWord.currentSeconds
  | fineTicks => exact Laws.OpWord.fineTicks
  | fineMax => exact Laws.OpWord.fineMax
  | wait n => exact Laws.OpWord.wait n
  | rebase t h => exact Laws.OpWord.rebase t h
  | setSeconds s => exact Laws.OpWord.setSeconds s
  | tmrCount => exact Laws.OpWord.tmrCount
  | hostStop => exact Laws.OpWord.hostStop
  | hostStart => exact Laws.OpWord.hostStart
  | isrEntry => exact Laws.OpWord.isrEntry
  | isrRearm => exact Laws.OpWord.isrRearm
  | isrTest => exact Laws.OpWord.isrTest
  | isrSnapshot => exact Laws.OpWord.isrSnapshot
  | isrEventcheck => exact Laws.OpWord.isrEventcheck
  | isrExit => exact Laws.OpWord.isrExit

theorem Instr.issuable_of_opName {i : Instr} {op : OpName} (h : i.opName = some op) : i.issuable = true := by
  rw [Instr.issuable, h, Option.isSome_some]

/-- Each code of R85 names one operation. -/
theorem eq_codeOf_opWord_of_lookupOp {code : BitVec 8} {i : Instr} (ho : i.issuable = true)
    (h : lookupOp code = i.opName) : code = codeOf i.opWord := by
  cases i with
  | tmrCount | hostStop | hostStart | isrEntry | isrRearm | isrTest | isrSnapshot | isrEventcheck | isrExit => cases ho
  | _ =>
    simp only [lookupOp, Instr.opName, ite_eq_iff, Option.some.injEq, reduceCtorEq, and_false, and_true, or_false,
      false_or] at h
    simp only [h]
    rfl

/-- Each code of R86 names one step label. -/
theorem eq_codeOf_opWord_of_lookupLabel {code : BitVec 8} {i : Instr} (h : lookupLabel code = some i) :
    i.issuable = false ∧ code = codeOf i.opWord := by
  simp only [lookupLabel, ite_eq_iff, Option.some.injEq, reduceCtorEq, and_false, or_false] at h
  cases i with
  | tmrCount | hostStop | hostStart | isrEntry | isrRearm | isrTest | isrSnapshot | isrEventcheck | isrExit =>
    simp only [reduceCtorEq, and_false, and_true, or_false, false_or] at h
    simp only [h]
    exact ⟨rfl, rfl⟩
  | _ => simp at h

/-- The op word of an operation is the one word with its fields (R81, R85). -/
theorem eq_opWord_iff {i : Instr} (ho : i.issuable = true) {w : Word} :
    w = i.opWord ↔ reservedOf w = 0 ∧ classOf w = 0 ∧ lookupOp (codeOf w) = i.opName := by
  obtain ⟨reserved, operation, -⟩ := opWord_fields i
  obtain ⟨cls, code⟩ := operation ho
  constructor
  · rintro rfl
    exact ⟨reserved, cls, code⟩
  · rintro ⟨hr, hc, hl⟩
    exact word_eq_of_fields (hr.trans reserved.symm) (hc.trans cls.symm) (eq_codeOf_opWord_of_lookupOp ho hl)

/-- The reader of step-label words names a step exactly at that step's word (R86, R94). -/
theorem decodeLabel_eq_ok {w : Word} {i : Instr} : decodeLabel w = .ok i ↔ i.issuable = false ∧ w = i.opWord := by
  obtain ⟨reserved, -, label⟩ := opWord_fields i
  constructor
  · intro h
    unfold decodeLabel at h
    split_ifs at h with hr hc
    split at h
    · cases h
    next hl =>
      cases h
      obtain ⟨ho, code⟩ := eq_codeOf_opWord_of_lookupLabel hl
      obtain ⟨cls, -⟩ := label ho
      exact ⟨ho, word_eq_of_fields ((not_not.1 hr).trans reserved.symm) ((not_not.1 hc).trans cls.symm) code⟩
  · rintro ⟨ho, rfl⟩
    obtain ⟨cls, code⟩ := label ho
    simp [decodeLabel, reserved, cls, code]

end Sys2Proof
end

section
/-! SUPPORT. The decoder's tests of the op word, one by one in their order (R87). -/

namespace Sys2Proof

variable {c : Config} {w : Word} {rest : List Word} {op : OpName}

/-- The decoder looks at the stream from `cpc` on and at nothing before it. -/
theorem decode_eq_decode_drop (c : Config) (prog : List Word) (cpc : Nat) :
    decode c prog cpc = decode c (prog.drop cpc) 0 := rfl

theorem decode_append (c : Config) (before stream : List Word) :
    decode c (before ++ stream) before.length = decode c stream 0 := by
  rw [decode_eq_decode_drop, List.drop_left]

theorem decode_of_reserved (hr : reservedOf w ≠ 0) : decode c (w :: rest) 0 = .refused .reservedBits :=
  if_pos hr

theorem decode_of_label (hr : reservedOf w = 0) (hc : classOf w = 8) :
    decode c (w :: rest) 0 = .refused .notIssuable := by
  simp [decode, hr, hc]

theorem decode_of_class (hr : reservedOf w = 0) (h8 : classOf w ≠ 8) (h0 : classOf w ≠ 0) :
    decode c (w :: rest) 0 = .refused .reservedClass := by
  rw [decode, List.drop_zero]
  dsimp only
  rw [if_neg (not_not.2 hr), if_neg h8, if_pos h0]

theorem decode_of_unassigned (hr : reservedOf w = 0) (hc : classOf w = 0) (hl : lookupOp (codeOf w) = none) :
    decode c (w :: rest) 0 = .refused .unassignedOp := by
  simp [decode, hr, hc, hl]

theorem decode_of_assigned (hr : reservedOf w = 0) (hc : classOf w = 0) (hl : lookupOp (codeOf w) = some op) :
    decode c (w :: rest) 0 = decodeOperands c op rest := by
  simp [decode, hr, hc, hl]

/-- At the op word of an operation the decoder goes on to its operands. -/
theorem decode_opWord {i : Instr} (hi : i.opName = some op) :
    decode c (i.opWord :: rest) 0 = decodeOperands c op rest := by
  obtain ⟨hr, hc, hl⟩ := (eq_opWord_iff (Instr.issuable_of_opName hi)).1 rfl
  exact decode_of_assigned hr hc (hl.trans hi)

/-- Where the decoder reads an operation, the stream starts with its op word and its operands follow. -/
theorem decode_eq_op_inv {stream : List Word} {i : Instr} (h : decode c stream 0 = .op i) :
    ∃ op rest, i.opName = some op ∧ stream = i.opWord :: rest ∧ decodeOperands c op rest = .op i := by
  unfold decode at h
  split at h
  · cases h
  next w rest hstream =>
    split_ifs at h with hr h8 hc
    split at h
    · cases h
    next op hl =>
      have hi := decodeOperands_op h
      have word : w = i.opWord :=
        (eq_opWord_iff (Instr.issuable_of_opName hi)).2 ⟨not_not.1 hr, not_not.1 hc, hl.trans hi.symm⟩
      exact ⟨op, rest, hi, by rw [← word]; exact hstream, h⟩

/-- Settles O53: each example is decoded by evaluation. -/
theorem writtenWordsDecodeAsTheSpecSays : Obligations.WrittenWordsDecodeAsTheSpecSays := by
  unfold Obligations.WrittenWordsDecodeAsTheSpecSays
  decide

/-- Settles O56: the label reader names a step at its own word alone, whose class 8 the decoder refuses. -/
theorem stepLabelsAreNamedButNotIssuable : Obligations.StepLabelsAreNamedButNotIssuable := by
  intro i ho
  obtain ⟨reserved, -, label⟩ := opWord_fields i
  obtain ⟨cls, -⟩ := label ho
  refine ⟨decodeLabel_eq_ok.2 ⟨ho, rfl⟩, fun w h => (decodeLabel_eq_ok.1 h).2, fun c before rest => ?_⟩
  rw [decode_append]
  exact decode_of_label reserved cls

/-- A code outside the table of R85 names no operation. -/
theorem lookupOp_eq_none {code : BitVec 8}
    (h : code.toNat ∉ [0x01, 0x02, 0x10, 0x20, 0x21, 0x22, 0x23, 0x24, 0x30, 0x31]) : lookupOp code = none := by
  simp only [List.mem_cons, not_or] at h
  simp [lookupOp, ← BitVec.toNat_inj, h]

/-- Settles O57: the fields are the word's digits, and each clause is one of the decoder's tests. -/
theorem decoderRefusesInOrder : Obligations.DecoderRefusesInOrder := by
  rintro c before rest w d rfl
  rw [decode_append]
  have reserved : reservedOf w = 0 ↔ w.toNat / 256 % 16 = 0 := by
    rw [← toNat_reservedOf, ← BitVec.toNat_inj]; rfl
  have label : classOf w = 8 ↔ w.toNat / 4096 = 8 := by rw [← toNat_classOf, ← BitVec.toNat_inj]; rfl
  have operation : classOf w = 0 ↔ w.toNat / 4096 = 0 := by rw [← toNat_classOf, ← BitVec.toNat_inj]; rfl
  refine ⟨fun hr => decode_of_reserved (reserved.not.2 hr), fun hr hc => decode_of_label (reserved.2 hr) (label.2 hc),
    fun hr h8 h0 => decode_of_class (reserved.2 hr) (label.not.2 h8) (operation.not.2 h0), fun small unlisted => ?_⟩
  have code : (codeOf w).toNat = w.toNat := by rw [toNat_codeOf, Nat.mod_eq_of_lt small]
  exact decode_of_unassigned (reserved.2 (by omega)) (operation.2 (by omega)) (lookupOp_eq_none (code ▸ unlisted))

end Sys2Proof
end

section
/-! SUPPORT. Operands and their words, both ways (R83, R84): what a stream holds after an op word, and the operation
that it makes. -/

namespace Sys2Proof

/-- The words of operands with the given widths, in stream order (R83). -/
def operandStream (ws xs : List Nat) : List Word :=
  (List.zipWith (fun w x => splitOperand (operandWords w) x) ws xs).flatten

theorem operandStream_nil (xs : List Nat) : operandStream [] xs = [] := rfl

theorem operandStream_cons (w x : Nat) (ws xs : List Nat) :
    operandStream (w :: ws) (x :: xs) = splitOperand (operandWords w) x ++ operandStream ws xs := rfl

theorem operandsLength_cons (w : Nat) (ws : List Nat) : operandsLength (w :: ws) = operandWords w + operandsLength ws :=
  List.sum_cons

theorem operandStream_length {ws xs : List Nat} (h : ws.length = xs.length) :
    (operandStream ws xs).length = operandsLength ws := by
  induction ws generalizing xs with
  | nil => rfl
  | cons w ws ih =>
    cases xs with
    | nil => cases h
    | cons x xs =>
      rw [operandStream_cons, operandsLength_cons, List.length_append, splitOperand_length, ih (Nat.succ.inj h)]

/-- An operation's encoding is its op word and the words of its operands. -/
theorem encode_eq {c : Config} {i : Instr} {op : OpName} (hi : i.opName = some op) :
    encode c i = i.opWord :: operandStream (op.operandWidths c) i.operands := by
  simp only [encode, Instr.operandWidths, hi, operandStream]

/-- An operation is its name and its operand values. -/
theorem OpName.withOperands_eq_some {op : OpName} {xs : List Nat} {i : Instr} :
    op.withOperands xs = some i ↔ i.opName = some op ∧ i.operands = xs := by
  constructor
  · intro h
    refine ⟨OpName.opName_of_withOperands h, ?_⟩
    unfold OpName.withOperands at h
    split at h <;> cases h <;> rfl
  · rintro ⟨hi, rfl⟩
    cases i <;> cases hi <;> rfl

/-- An operation is well formed when each operand is below two to the power of its width (R83). -/
theorem Instr.wf_iff {c : Config} {i : Instr} {op : OpName} (hi : i.opName = some op) :
    i.wf c = true ↔ List.Forall₂ (fun w x => x < 2 ^ w) (op.operandWidths c) i.operands := by
  cases i <;> cases hi <;> simp [Instr.wf, Instr.operands, OpName.operandWidths]

/-- Operand assembly reads the operands from a stream with words enough exactly where the operands are in range and the
stream starts with their words. -/
theorem takeOperands_eq_ok {ws xs : List Nat} {stream : List Word} :
    operandsLength ws ≤ stream.length ∧ takeOperands ws stream = .ok xs ↔
      List.Forall₂ (fun w x => x < 2 ^ w) ws xs ∧ operandStream ws xs <+: stream := by
  induction ws generalizing xs stream with
  | nil => cases xs <;> simp [takeOperands, operandStream_nil, operandsLength]
  | cons w ws ih =>
    constructor
    · rintro ⟨enough, h⟩
      obtain ⟨ys, hx, hys, rfl⟩ := takeOperands_cons.1 h
      rw [operandsLength_cons] at enough
      obtain ⟨fits, follows⟩ := ih.1 ⟨by rw [List.length_drop]; omega, hys⟩
      have first : splitOperand (operandWords w) (assembleOperand (stream.take (operandWords w))) =
          stream.take (operandWords w) := by
        have := splitOperand_assembleOperand (stream.take (operandWords w))
        rwa [List.length_take_of_le (by omega)] at this
      refine ⟨.cons hx fits, ?_⟩
      rw [operandStream_cons, first]
      conv_rhs => rw [← List.take_append_drop (operandWords w) stream]
      exact (List.prefix_append_right_inj _).2 follows
    · rintro ⟨fits, rest, rfl⟩
      obtain ⟨x, ys, hx, hfits, rfl⟩ := List.forall₂_cons_left_iff.1 fits
      obtain ⟨enough, hys⟩ := ih.2 ⟨hfits, List.prefix_append _ rest⟩
      rw [operandStream_cons, List.append_assoc]
      refine ⟨?_, takeOperands_cons.2 ⟨ys, ?_⟩⟩
      · rw [operandsLength_cons, List.length_append, splitOperand_length]
        omega
      · rw [take_splitOperand, drop_splitOperand, assembleOperand_of_lt hx]
        exact ⟨hx, hys, rfl⟩

variable {c : Config} {op : OpName} {rest : List Word} {i : Instr}

theorem decodeOperands_of_short (h : rest.length < operandsLength (op.operandWidths c)) :
    decodeOperands c op rest = .refused .truncated :=
  if_pos h

/-- With words enough, operands that cannot all be assembled are out of range. -/
theorem decodeOperands_of_not_ok (enough : operandsLength (op.operandWidths c) ≤ rest.length)
    (h : ∀ xs, takeOperands (op.operandWidths c) rest ≠ .ok xs) : decodeOperands c op rest = .refused .operandRange := by
  rw [decodeOperands, if_neg (Nat.not_lt.2 enough)]
  cases taken : takeOperands (op.operandWidths c) rest with
  | error r => rw [takeOperands_error taken]
  | ok xs => exact absurd taken (h xs)

/-- The operands after an op word make the operation whose name the op word gives and whose operands the words hold. -/
theorem decodeOperands_eq_op :
    decodeOperands c op rest = .op i ↔
      i.opName = some op ∧ i.wf c = true ∧ operandStream (op.operandWidths c) i.operands <+: rest := by
  have assembled : decodeOperands c op rest = .op i ↔
      ∃ xs, (operandsLength (op.operandWidths c) ≤ rest.length ∧ takeOperands (op.operandWidths c) rest = .ok xs)
        ∧ op.withOperands xs = some i := by
    unfold decodeOperands
    split
    next short => simp [Nat.not_le.2 short]
    next enough =>
      cases takeOperands (op.operandWidths c) rest with
      | error r => simp
      | ok xs => cases hxs : op.withOperands xs <;> simp [Nat.not_lt.1 enough, hxs]
  rw [assembled]
  simp only [takeOperands_eq_ok, OpName.withOperands_eq_some]
  constructor
  · rintro ⟨xs, ⟨fits, words⟩, hi, rfl⟩
    exact ⟨hi, (Instr.wf_iff hi).2 fits, words⟩
  · rintro ⟨hi, wf, words⟩
    exact ⟨_, ⟨(Instr.wf_iff hi).1 wf, words⟩, hi, rfl⟩

/-- The decoder reads an operation exactly where it is a well-formed one whose words the stream holds from `cpc` on. -/
theorem decode_eq_op {prog : List Word} {cpc : Nat} :
    decode c prog cpc = .op i ↔ i.issuable = true ∧ i.wf c = true ∧ encode c i <+: prog.drop cpc := by
  rw [decode_eq_decode_drop]
  constructor
  · intro h
    obtain ⟨op, rest, hi, hstream, h⟩ := decode_eq_op_inv h
    obtain ⟨-, wf, words⟩ := decodeOperands_eq_op.1 h
    rw [hstream, encode_eq hi, List.cons_prefix_cons]
    exact ⟨Instr.issuable_of_opName hi, wf, rfl, words⟩
  · rintro ⟨ho, wf, rest, hstream⟩
    obtain ⟨op, hi⟩ := Option.isSome_iff_exists.1 ho
    rw [← hstream, encode_eq hi, List.cons_append, decode_opWord hi]
    exact decodeOperands_eq_op.2 ⟨hi, wf, List.prefix_append _ _⟩

/-- Settles O54: the words stand at `cpc`, and each operand takes the words that R84 counts. -/
theorem decodeOfEncodeIsTheOperation : Obligations.DecodeOfEncodeIsTheOperation := by
  intro c i op before rest hi wf
  constructor
  · refine decode_eq_op.2 ⟨Instr.issuable_of_opName hi, wf, rest, ?_⟩
    rw [List.append_assoc, List.drop_left]
  · rw [encode_eq hi, List.length_cons, operandStream_length ((Instr.wf_iff hi).1 wf).length_eq, OpName.length,
      Nat.add_comm]

/-- Settles O55: what the stream holds from `cpc` on starts with the words read. -/
theorem decodedOperationIsWhatTheStreamHolds : Obligations.DecodedOperationIsWhatTheStreamHolds := by
  intro c prog cpc i h
  obtain ⟨ho, wf, words⟩ := decode_eq_op.1 h
  have inside := words.length_le
  rw [List.length_drop] at inside
  have nonempty : 0 < (encode c i).length := Nat.succ_pos _
  exact ⟨wf, ho, (List.prefix_iff_eq_take.1 words).symm, by omega⟩

/-- Settles O58: with words enough the decoder can only refuse an operand's range, and it does where one operand does
not fit. -/
theorem truncatedOrOutOfRangeOperandsAreRefused : Obligations.TruncatedOrOutOfRangeOperandsAreRefused := by
  rintro c i op before rest d hi rfl
  rw [decode_append, decode_opWord hi, OpName.length]
  refine ⟨fun short => decodeOperands_of_short (by omega), fun enough w widths outside => ?_, ?_⟩
  · refine decodeOperands_of_not_ok (by omega) fun xs taken => ?_
    rw [widths] at taken
    obtain ⟨-, fits, -⟩ := takeOperands_cons.1 taken
    exact absurd fits (Nat.not_lt.2 outside)
  · rintro enough rfl outside
    refine decodeOperands_of_not_ok (by omega) fun xs taken => ?_
    obtain ⟨ys, tickFits, taken, -⟩ := takeOperands_cons.1 taken
    obtain ⟨-, hwFits, -⟩ := takeOperands_cons.1 taken
    exact outside.elim (Nat.not_le.2 tickFits) (Nat.not_le.2 hwFits)

end Sys2Proof
end

section
/-! SUPPORT. The two primitives of a critical section, from an idle foreground (R100 to R102). -/

namespace Sys2Proof.Machine

variable {s : State}

/-- An operation that ends in the micro-step it began in leaves `FGS` as it was (R31, R32). -/
theorem State.finish_of_idle (hf : s.fgs = .idle) (op : OpName) (v : Option Nat) :
    s.finish op v = { s with hist := s.hist ++ [.ret op v], cpc := s.cpc + op.length s.cfg } := by
  rw [State.finish, ← hf]

theorem exec_enterCritical_of_idle (hi : s.inIsr = false) (hf : s.fgs = .idle) :
    exec .enterCritical s = .next ({ s with gie := false }.finish .enterCritical (some s.statusWord)) :=
  enterCritical_next.2 ⟨fgLabel_idle _ hi hf, rfl⟩

theorem exec_exitCritical_of_idle (m : Nat) (hi : s.inIsr = false) (hf : s.fgs = .idle) :
    exec (.exitCritical m) s =
      .next ({ s with gie := if maskEnable m then true else s.gie }.finish .exitCritical none) :=
  exitCritical_next.2 ⟨fgLabel_idle _ hi hf, rfl⟩

theorem maskEnable_iff {m : Nat} : maskEnable m = true ↔ m % 2 = 1 := beq_iff_eq

/-- The mask word that `ENTER_CRITICAL` returns asks for the `GIE` it was read from (R100, R101). -/
@[simp] theorem maskEnable_statusWord : maskEnable s.statusWord = s.gie := by
  rw [State.statusWord]
  cases s.gie <;> rfl

/-- Settles O7: the next state of `ENTER_CRITICAL`, whose length is one word. -/
theorem enterCriticalReturnsPriorEnable : Obligations.EnterCriticalReturnsPriorEnable := by
  intro s hi hf
  have ends := State.finish_of_idle (s := { s with gie := false }) hf .enterCritical (some s.statusWord)
  rw [exec_enterCritical_of_idle hi hf, ends]
  rfl

/-- Settles O8: the next state of `EXIT_CRITICAL`; an odd mask turns on the last of the four enables that `ISR_ENTRY`
needs. -/
theorem exitCriticalRestoresEnable : Obligations.ExitCriticalRestoresEnable := by
  intro m s hi hf
  refine ⟨_, exec_exitCritical_of_idle m hi hf, ?_, fun odd pending armed => ?_⟩
  · have ends := State.finish_of_idle (s := { s with gie := if maskEnable m then true else s.gie }) hf .exitCritical none
    simp only [maskEnable_iff] at ends ⊢
    rw [ends]
    rfl
  · have enabled : maskEnable m = true := maskEnable_iff.2 odd
    exact isrEntry_next.2 ⟨entryEnabled_iff.2 ⟨pending, armed, if_pos enabled, hi⟩, rfl⟩

/-- Settles O9: the inner mask was read with `GIE = 0`, so it sets nothing; the outer mask is the first `GIE`. -/
theorem nestedCriticalSectionsRestoreEnable : Obligations.NestedCriticalSectionsRestoreEnable := by
  intro s hi hf
  refine ⟨_, _, _, _, _, _, exec_enterCritical_of_idle hi hf, List.getLast?_concat,
    exec_enterCritical_of_idle hi rfl, List.getLast?_concat, exec_exitCritical_of_idle _ hi rfl, ?inner,
    exec_exitCritical_of_idle _ hi rfl, ?outer⟩
  case inner => simp
  case outer => simp

end Sys2Proof.Machine
end

section
/-! SUPPORT. The interrupt flags under one micro-step: who writes `GIE`, and what a masked block keeps (R103, R104, R122,
R203). -/

namespace Sys2Proof.Machine

variable {s t u : State} {op i : Instr}

/-- The foreground writes of `GIE`, each with its direction (R100, R101, R110). -/
theorem FgWrites.gie_changed (h : FgWrites s op u) (changed : u.gie ≠ s.gie) :
    (op = .enterCritical ∧ u.gie = false) ∨ ((∃ m, op = .exitCritical m) ∧ u.gie = true)
      ∨ (op = .clockInit ∧ u.gie = true) := by
  cases h with
  | clearEnable => exact .inl ⟨rfl, rfl⟩
  | maskedEnable m =>
    refine .inr (.inl ⟨⟨m, rfl⟩, ?_⟩)
    by_cases hm : maskEnable m = true
    · exact if_pos hm
    · exact absurd (if_neg hm) changed
  | clock => exact .inr (.inr ⟨rfl, rfl⟩)
  | ticksWord v h write =>
    obtain ⟨-, -, -, hgie, -⟩ := memWrite_frame write
    exact absurd hgie changed
  | nothing | counter | deadline => exact absurd rfl changed

/-- The foreground writes `CMPIFG` in `CLOCK_INIT` alone (R110). -/
theorem FgWrites.keeps_cmpifg (h : FgWrites s op u) (hop : op ≠ .clockInit) : u.cmpifg = s.cmpifg := by
  cases h with
  | clock => exact absurd rfl hop
  | ticksWord v h write =>
    obtain ⟨-, -, -, -, -, hcmpifg, -⟩ := memWrite_frame write
    exact hcmpifg
  | nothing | clearEnable | maskedEnable | counter | deadline => rfl

/-- A step label other than `ISR_ENTRY` neither enters the handler nor takes the pending match; `ISR_ENTRY` needs its
four enables; none of them writes `GIE` (R104, R122, R203). -/
theorem exec_label_flags (hi : i.issuable = false) (h : exec i s = .next t) :
    t.gie = s.gie
      ∧ ((i = .isrEntry ∧ s.entryEnabled = true)
        ∨ ((t.inIsr = true → s.inIsr = true) ∧ (s.cmpifg = true → t.cmpifg = true))) := by
  cases i with
  | tmrCount =>
    obtain ⟨-, rfl⟩ := tmrCount_next.1 h
    exact ⟨rfl, .inr ⟨id, fun pending => matchFlag_iff.2 (.inr pending)⟩⟩
  | hostStop =>
    obtain rfl := hostStop_next.1 h
    exact ⟨rfl, .inr ⟨id, id⟩⟩
  | hostStart =>
    obtain rfl := hostStart_next.1 h
    exact ⟨rfl, .inr ⟨id, id⟩⟩
  | isrEntry =>
    obtain ⟨enabled, rfl⟩ := isrEntry_next.1 h
    exact ⟨rfl, .inl ⟨rfl, enabled⟩⟩
  | isrRearm =>
    obtain ⟨-, rfl⟩ := isrRearm_next.1 h
    exact ⟨rfl, .inr ⟨id, id⟩⟩
  | isrTest =>
    obtain ⟨-, rfl⟩ := isrTest_next.1 h
    exact ⟨rfl, .inr ⟨id, id⟩⟩
  | isrSnapshot =>
    obtain ⟨-, rfl⟩ := isrSnapshot_next.1 h
    exact ⟨rfl, .inr ⟨id, id⟩⟩
  | isrEventcheck =>
    obtain ⟨-, rfl⟩ := isrEventcheck_next.1 h
    simp
  | isrExit =>
    obtain ⟨-, rfl⟩ := isrExit_next.1 h
    exact ⟨rfl, .inr ⟨nofun, id⟩⟩
  | _ => cases hi

/-- Settles O10: no step label writes `GIE`, and the sequencer's move after a foreground write keeps it. -/
theorem enableFlagHasThreeWriters : Obligations.EnableFlagHasThreeWriters := by
  intro i s t h changed
  cases ho : i.issuable with
  | false => exact absurd (exec_label_flags ho h).1 changed
  | true =>
    obtain ⟨u, writes, moves⟩ := exec_fg_cases ho h
    obtain ⟨f, c, es, rfl⟩ := moves.eq
    exact writes.gie_changed changed

/-- One instruction outside the handler with `GIE = 0` (R103). -/
theorem exec_of_masked (h : exec i s = .next t) (out : s.inIsr = false) (masked : s.gie = false) :
    t.inIsr = false ∧ (i ≠ .clockInit → s.cmpifg = true → t.cmpifg = true) := by
  cases ho : i.issuable with
  | true =>
    obtain ⟨u, writes, moves⟩ := exec_fg_cases ho h
    obtain ⟨f, c, es, rfl⟩ := moves.eq
    obtain ⟨-, -, -, hinIsr, -⟩ := writes.keeps
    exact ⟨hinIsr.trans out, fun hop pending => (writes.keeps_cmpifg hop).trans pending⟩
  | false =>
    obtain ⟨-, ⟨-, enabled⟩ | ⟨entered, kept⟩⟩ := exec_label_flags ho h
    · obtain ⟨-, -, unmasked, -⟩ := entryEnabled_iff.1 enabled
      exact absurd unmasked (by simp [masked])
    · refine ⟨Bool.eq_false_iff.2 fun inside => ?_, fun _ => kept⟩
      exact absurd (entered inside) (by simp [out])

/-- Settles O11: choosing the agent touches no flag, so the step is its instruction on the masked block. -/
theorem maskedForegroundKeepsHandlerOut : Obligations.MaskedForegroundKeepsHandlerOut := by
  intro s t h out masked
  obtain ⟨-, i, hi, he⟩ := step_next.1 h
  obtain ⟨stays, kept⟩ := exec_of_masked he (s.chosen_inIsr.trans out) (s.chosen_gie.trans masked)
  refine ⟨stays, fun pending => ?_⟩
  by_cases hop : i = .clockInit
  · exact .inr (hop ▸ hi)
  · exact .inl (kept hop (s.chosen_cmpifg.trans pending))

end Sys2Proof.Machine
end

section
/-! SUPPORT. Clock initialization: the state that it leaves, the counter steps up to its first match, and the block
before it (R110, R111, R113). -/

namespace Sys2Proof.Machine

variable {s t : State} {i : Instr}

/-! ### The state after `CLOCK_INIT` -/

theorem exec_clockInit_of_idle (hi : s.inIsr = false) (hf : s.fgs = .idle) :
    exec .clockInit s = .next (s.initClock.finish .clockInit none) :=
  clockInit_next.2 ⟨fgLabel_idle _ hi hf, rfl⟩

/-- Settles O12: the bring-up's event comes before the completion's, and the operation's length is one word. -/
theorem clockInitSetsTheClock : Obligations.ClockInitSetsTheClock := by
  intro s hi hf
  have ends := State.finish_of_idle (s := s.initClock) hf .clockInit none
  rw [exec_clockInit_of_idle hi hf, ends, State.initClock_hist, List.append_assoc]
  rfl

/-! ### Counter steps in a row -/

/-- The state after `n` counter steps that do not wrap: a deadline among the values counted to has set `CMPIFG`
(R121, R122). -/
def State.countedBy (s : State) (n : Nat) : State :=
  { s with
    hwcnt := s.hwcnt + n
    cmpifg := s.cmpifg || decide (s.hwcnt < s.ccr ∧ s.ccr ≤ s.hwcnt + n) }

theorem State.countedBy_cmpifg {n : Nat} :
    (s.countedBy n).cmpifg = true ↔ s.cmpifg = true ∨ (s.hwcnt < s.ccr ∧ s.ccr ≤ s.hwcnt + n) := by
  rw [State.countedBy, Bool.or_eq_true, decide_eq_true_eq]

theorem State.countedBy_zero : s.countedBy 0 = s := by
  have noMatch : ¬ (s.hwcnt < s.ccr ∧ s.ccr ≤ s.hwcnt + 0) := by omega
  rw [State.countedBy, decide_eq_false noMatch, Bool.or_false, Nat.add_zero]

/-- The first of `n + 1` counter steps matches at `HWCNT + 1`, the others above it. -/
theorem State.countUp_countedBy {n : Nat} (noWrap : s.hwcnt + (n + 1) < 2 ^ s.cfg.wHw) :
    s.countUp.countedBy n = s.countedBy (n + 1) := by
  have counts : addW s.cfg.wHw s.hwcnt 1 = s.hwcnt + 1 := narrow_of_lt (by omega)
  have value : s.hwcnt + 1 + n = s.hwcnt + (n + 1) := by omega
  have reached : (s.hwcnt + 1 = s.ccr ∨ s.hwcnt + 1 < s.ccr ∧ s.ccr ≤ s.hwcnt + (n + 1)) ↔
      s.hwcnt < s.ccr ∧ s.ccr ≤ s.hwcnt + (n + 1) := by omega
  have flag : (matchFlag s.cmpifg (s.hwcnt + 1) s.ccr || decide (s.hwcnt + 1 < s.ccr ∧ s.ccr ≤ s.hwcnt + (n + 1))) =
      (s.cmpifg || decide (s.hwcnt < s.ccr ∧ s.ccr ≤ s.hwcnt + (n + 1))) := by
    rw [Bool.eq_iff_iff]
    simp only [Bool.or_eq_true, matchFlag_iff, decide_eq_true_eq]
    rw [or_right_comm, reached, or_comm]
  simp only [State.countedBy, State.countUp, counts, value, flag]

/-- A running counter takes any number of steps in a row. -/
theorem runAs_tmr {n : Nat} (hv : s.cfg.valid = true) (running : s.run = true)
    (noWrap : s.hwcnt + n < 2 ^ s.cfg.wHw) : runAs (List.replicate n .tmr) s = .next (s.countedBy n) := by
  induction n generalizing s with
  | zero => rw [State.countedBy_zero]; rfl
  | succ n ih =>
    have first : stepAs .tmr s = .next s.countUp := (stepAs_eq hv rfl).trans (tmrCount_next.2 ⟨running, rfl⟩)
    have counts : s.countUp.hwcnt = s.hwcnt + 1 := narrow_of_lt (by omega)
    have rest := ih (s := s.countUp) hv running (by rw [counts, State.countUp_cfg]; omega)
    rw [State.countUp_countedBy noWrap] at rest
    exact runAs_cons_next.2 ⟨_, first, rest⟩

/-- Settles O13: `CLOCK_INIT` leaves `HWCNT` at 0 and the deadline at `INTERVAL`, which `W_HW` bits hold. -/
theorem firstMatchAfterOneInterval : Obligations.FirstMatchAfterOneInterval := by
  intro n s t hv hi hf h upTo
  have legal := (Config.valid_iff s.cfg).1 hv
  obtain ⟨-, rfl⟩ := clockInit_next.1 h
  have noWrap : 0 + n < 2 ^ s.cfg.wHw := by
    have := legal.interval_lt
    omega
  refine ⟨_, runAs_tmr hv rfl noWrap, Nat.zero_add n, ?_⟩
  have ahead : 1 ≤ s.cfg.interval := legal.interval_pos
  simp only [State.countedBy_cmpifg, State.finish_cmpifg, State.initClock_cmpifg, State.finish_ccr, State.initClock_ccr,
    State.finish_hwcnt, State.initClock_hwcnt, Bool.false_eq_true, false_or]
  omega

/-! ### Before `CLOCK_INIT` -/

/-- With the interrupt disabled the handler cannot be entered (R124). -/
theorem isrEntry_needs_cmpie (unarmed : s.cmpie = false) : exec .isrEntry s ≠ .next t := by
  intro h
  obtain ⟨enabled, -⟩ := isrEntry_next.1 h
  obtain ⟨-, armed, -⟩ := entryEnabled_iff.1 enabled
  exact Bool.false_ne_true (unarmed.symm.trans armed)

/-- One instruction of a block whose interrupt is disabled and whose handler is not active: outside `ISR_REARM`, which
needs the handler, only `CLOCK_INIT` and `REBASE` write time (R38, R113). -/
theorem exec_of_unarmed (hw : s.Wf) (h : exec i s = .next t) (unarmed : s.cmpie = false)
    (out : s.inIsr = false) (hop : i ≠ .clockInit) :
    t.cmpie = false ∧ t.inIsr = false ∧ t.seconds = s.seconds
      ∧ ((∀ v h, i ≠ .rebase v h) → t.ticks = s.ticks ∧ (s.run = false → t.hwcnt = s.hwcnt)) := by
  have noPhase : s.iph = .none := hw.phase.2 out
  have notEntry : i ≠ .isrEntry := by
    rintro rfl
    exact isrEntry_needs_cmpie unarmed h
  have notRearm : i ≠ .isrRearm := by
    rintro rfl
    obtain ⟨phase, -⟩ := isrRearm_next.1 h
    cases noPhase.symm.trans phase
  have notExit : i ≠ .isrExit := by
    rintro rfl
    obtain ⟨phase, -⟩ := isrExit_next.1 h
    cases noPhase.symm.trans phase
  obtain ⟨ticks, seconds, hwcnt, -, -, cmpie, -, inIsr, -⟩ := registersHaveOnlyTheirWriters i s t hw.cfg_valid h
  have cmpieKept : t.cmpie = s.cmpie := by_contra fun changed => hop (cmpie changed)
  have inIsrKept : t.inIsr = s.inIsr := by_contra fun changed => (inIsr changed).elim notEntry notExit
  refine ⟨cmpieKept.trans unarmed, inIsrKept.trans out,
    by_contra fun changed => (seconds changed).elim notRearm hop,
    fun notRebase => ⟨?ticksKept, fun stopped => ?hwcntKept⟩⟩
  case ticksKept =>
    by_contra changed
    obtain rearm | init | ⟨v, x, rebase⟩ := ticks changed
    · exact notRearm rearm
    · exact hop init
    · exact notRebase v x rebase
  case hwcntKept =>
    by_contra changed
    obtain rfl | init | ⟨v, x, rebase⟩ := hwcnt changed
    · obtain ⟨running, -⟩ := tmrCount_next.1 h
      exact Bool.false_ne_true (stopped.symm.trans running)
    · exact hop init
    · exact notRebase v x rebase

/-- Settles O14: choosing the agent touches neither time nor flags, so the step is its instruction on the block before
`CLOCK_INIT`. -/
theorem nothingTicksBeforeClockInit : Obligations.NothingTicksBeforeClockInit := by
  intro s t hw h unarmed out notInit
  obtain ⟨-, i, hi, he⟩ := step_next.1 h
  rw [hi] at notInit ⊢
  have kept := exec_of_unarmed hw.chosen he (by simpa using unarmed) (by simpa using out) fun hop => notInit (hop ▸ rfl)
  simpa using kept

end Sys2Proof.Machine
end

section
/-! SUPPORT. The counter and the host (R121 to R123): the compare match on the new counter value, and who writes
`CMPIFG`. -/

namespace Sys2Proof.Machine

variable {s t : State} {i : Instr}

theorem matchFlag_eq (f : Bool) (h ccr : Nat) : matchFlag f h ccr = (f || decide (h = ccr)) := by
  rw [Bool.eq_iff_iff, matchFlag_iff, Bool.or_eq_true, decide_eq_true_eq, or_comm]

/-- A stopped counter has no step (R121). -/
theorem tmrCount_of_stopped (stopped : s.run = false) : exec .tmrCount s = .fault .counterStopped := by
  have notRunning : ¬ s.run = true := by simp [stopped]
  exact if_neg notRunning

/-- Settles O15: the counter's next state, with the match flag as a disjunction. -/
theorem counterCountsAndMatches : Obligations.CounterCountsAndMatches := by
  intro s
  refine ⟨fun running => tmrCount_next.2 ⟨running, ?_⟩, tmrCount_of_stopped⟩
  rw [State.countUp, matchFlag_eq]
  rfl

/-- Of the step labels, only a counter step into equality with `CCR` sets `CMPIFG` (R122). -/
theorem exec_label_sets_cmpifg (hi : i.issuable = false) (h : exec i s = .next t) (clear : s.cmpifg = false)
    (raised : t.cmpifg = true) : i = .tmrCount ∧ t.hwcnt = s.ccr ∧ t.ccr = s.ccr := by
  have unset : ¬ s.cmpifg = true := by simp [clear]
  cases i with
  | tmrCount =>
    obtain ⟨-, rfl⟩ := tmrCount_next.1 h
    exact ⟨rfl, (matchFlag_iff.1 raised).resolve_right unset, rfl⟩
  | hostStop => obtain rfl := hostStop_next.1 h; exact absurd raised unset
  | hostStart => obtain rfl := hostStart_next.1 h; exact absurd raised unset
  | isrEntry => obtain ⟨-, rfl⟩ := isrEntry_next.1 h; cases raised
  | isrRearm => obtain ⟨-, rfl⟩ := isrRearm_next.1 h; exact absurd raised unset
  | isrTest => obtain ⟨-, rfl⟩ := isrTest_next.1 h; exact absurd raised unset
  | isrSnapshot => obtain ⟨-, rfl⟩ := isrSnapshot_next.1 h; exact absurd raised unset
  | isrEventcheck => obtain ⟨-, rfl⟩ := isrEventcheck_next.1 h; exact absurd raised (by simpa using clear)
  | isrExit => obtain ⟨-, rfl⟩ := isrExit_next.1 h; exact absurd raised unset
  | _ => cases hi

/-- A micro-step of a foreground operation other than `CLOCK_INIT` keeps `CMPIFG`, and `CLOCK_INIT` clears it (R110). -/
theorem exec_fg_cmpifg (hi : i.issuable = true) (h : exec i s = .next t) :
    (i = .clockInit ∧ t.cmpifg = false) ∨ t.cmpifg = s.cmpifg := by
  by_cases hop : i = .clockInit
  · subst hop
    obtain ⟨-, rfl⟩ := clockInit_next.1 h
    exact .inl ⟨rfl, rfl⟩
  · obtain ⟨u, writes, moves⟩ := exec_fg_cases hi h
    obtain ⟨f, c, es, rfl⟩ := moves.eq
    exact .inr (writes.keeps_cmpifg hop)

/-- Settles O16: the foreground sets no pending match and clears one in `CLOCK_INIT` alone; the labels are looked up. -/
theorem pendingFlagWriters : Obligations.PendingFlagWriters := by
  intro i s t h
  cases ho : i.issuable with
  | true =>
    obtain ⟨hop, cleared⟩ | kept := exec_fg_cmpifg ho h
    · exact ⟨fun _ raised => (Bool.false_ne_true (cleared.symm.trans raised)).elim, fun _ _ => .inr hop⟩
    · rw [kept]
      exact ⟨fun clear raised => (Bool.false_ne_true (clear.symm.trans raised)).elim,
        fun pending taken => (Bool.false_ne_true (taken.symm.trans pending)).elim⟩
  | false =>
    refine ⟨exec_label_sets_cmpifg ho h, fun pending taken => ?_⟩
    obtain ⟨-, ⟨entry, -⟩ | ⟨-, kept⟩⟩ := exec_label_flags ho h
    · exact .inl entry
    · exact (Bool.false_ne_true (taken.symm.trans (kept pending))).elim

/-- Settles O17: the host's two steps have no condition. -/
theorem hostStopsAndStartsTheCounter : Obligations.HostStopsAndStartsTheCounter := by
  intro s
  exact ⟨hostStop_next.2 rfl, hostStart_next.2 rfl⟩

end Sys2Proof.Machine
end

section
/-! SUPPORT. The handler's micro-steps (R124 to R132): the phase that each needs, and the rearm and due tests as tests of an
integer difference modulo the width. -/

namespace Sys2Proof.Machine

variable {s t : State}

/-! ### Entry, exit and the phases -/

/-- The entry without all four enables has no step (R124). -/
theorem isrEntry_of_disabled (disabled : s.entryEnabled = false) : exec .isrEntry s = .fault .entryNotEnabled := by
  have notEnabled : ¬ s.entryEnabled = true := by simp [disabled]
  exact if_neg notEnabled

/-- Settles O18: `entryEnabled` is the conjunction of the four, so each missing one leaves it false. -/
theorem entryNeedsAllFourEnables : Obligations.EntryNeedsAllFourEnables := by
  intro s
  refine ⟨fun pending armed unmasked out => ?_, fun missing => isrEntry_of_disabled ?_⟩
  · exact isrEntry_next.2 ⟨entryEnabled_iff.2 ⟨pending, armed, unmasked, out⟩, rfl⟩
  · rw [Bool.eq_false_iff, Ne, entryEnabled_iff]
    rintro ⟨pending, armed, unmasked, out⟩
    simp [pending, armed, unmasked, out] at missing

/-- A handler micro-step that `IPH` does not name has no transition (R125). -/
theorem inPhase_of_ne {p : Phase} (after : State) (hp : s.iph ≠ p) : s.inPhase p after = .fault .phaseNotNamed :=
  if_neg hp

/-- Settles O25: each of the five is the `inPhase` of its phase. -/
theorem handlerStepsFollowThePhase : Obligations.HandlerStepsFollowThePhase := by
  intro s
  exact ⟨inPhase_of_ne _, inPhase_of_ne _, inPhase_of_ne _, inPhase_of_ne _, inPhase_of_ne _⟩

/-- Settles O19: in a legal configuration the seconds rule is the remainder test (R127). -/
theorem rearmCountsOneDeadline : Obligations.RearmCountsOneDeadline := by
  intro s hv hp
  have legal := (Config.valid_iff s.cfg).1 hv
  refine isrRearm_next.2 ⟨hp, ?_⟩
  simp only [State.countDeadline, onSecond_iff legal]
  rfl

/-- Settles O21: the snapshot's next state, in its phase. -/
theorem snapshotTakesTheLiveCounter : Obligations.SnapshotTakesTheLiveCounter := by
  intro s hp
  exact isrSnapshot_next.2 ⟨hp, rfl⟩

/-- Settles O24: the return's next state, in its phase. -/
theorem exitReturnsToTheForeground : Obligations.ExitReturnsToTheForeground := by
  intro s hp
  exact isrExit_next.2 ⟨hp, rfl⟩

/-! ### The rearm test -/

/-- The rearm test on the lead as an integer modulo `2^W_HW` (R128). -/
theorem deadlinePassed_iff {c : Config} {ccr h : Nat} :
    deadlinePassed c (leadOf c ccr h) = true ↔
      ((ccr : Int) - h) % (2 ^ c.wHw : Nat) = 0 ∨ ((ccr : Int) - h) % (2 ^ c.wHw : Nat) > c.interval := by
  rw [← subW_eq_int, deadlinePassed, leadOf, Bool.or_eq_true, beq_iff_eq, decide_eq_true_eq, gt_iff_lt, Nat.cast_lt,
    Nat.cast_eq_zero]

/-- Settles O20: the test's next state, with the lead as an integer. -/
theorem testStopsWhenDeadlineIsAhead : Obligations.TestStopsWhenDeadlineIsAhead := by
  intro s _ hp
  refine ⟨_, rfl, isrTest_next.2 ⟨hp, ?_⟩⟩
  simp only [deadlinePassed_iff]

/-! ### The due test -/

/-- `HALF_T` is half the range of `TICKS` (R8). -/
theorem two_mul_halfT {c : Config} (hc : c.Legal) : 2 * c.halfT = 2 ^ c.wTick := by
  have := hc.wTick_pos
  rw [Config.halfT, ← Nat.pow_succ', Nat.succ_eq_add_one, Nat.sub_add_cancel this]

/-- The half-range test on the difference as an integer modulo `2^W_TICK` (R130). -/
theorem due_iff_emod {c : Config} {tgt now : Nat} :
    due c tgt now = true ↔ ((now : Int) - tgt) % (2 ^ c.wTick : Nat) < (2 ^ (c.wTick - 1) : Nat) := by
  rw [← subW_eq_int, due, decide_eq_true_eq, Config.halfT, Nat.cast_lt]

/-- The half-range test sees the unwrapped difference, modulo `2^W_TICK`. -/
theorem due_mod_iff_emod {c : Config} {tgt now : Nat} :
    due c (tgt % 2 ^ c.wTick) (now % 2 ^ c.wTick) = true ↔
      ((now : Int) - tgt) % (2 ^ c.wTick : Nat) < (2 ^ (c.wTick - 1) : Nat) := by
  rw [due_iff_emod, Int.natCast_mod, Int.natCast_mod, ← Int.sub_emod]

/-- Settles O23: a difference of less than a wrap to either side is its remainder, or that less the modulus. -/
theorem dueTestIsRightWithinHalfTheRange : Obligations.DueTestIsRightWithinHalfTheRange := by
  intro c tgt now hv
  have range : 2 * 2 ^ (c.wTick - 1) = 2 ^ c.wTick := two_mul_halfT ((Config.valid_iff c).1 hv)
  have behind (h : tgt ≤ now) (wrap : now < tgt + 2 ^ c.wTick) :
      ((now : Int) - tgt) % (2 ^ c.wTick : Nat) = now - tgt := Int.emod_eq_of_lt (by omega) (by omega)
  have ahead (h : now < tgt) (wrap : tgt ≤ now + 2 ^ c.wTick) :
      ((now : Int) - tgt) % (2 ^ c.wTick : Nat) = now - tgt + (2 ^ c.wTick : Nat) := by
    rw [← Int.add_emod_right, Int.emod_eq_of_lt (by omega) (by omega)]
  rw [← Bool.not_eq_true, due_mod_iff_emod]
  refine ⟨fun near1 near2 => ?within, fun wrap far => ?farBehind, fun far wrap => ?farAhead⟩
  case within =>
    by_cases reached : tgt ≤ now
    · rw [behind reached (by omega)]
      omega
    · rw [ahead (by omega) (by omega)]
      omega
  case farBehind =>
    rw [behind (by omega) wrap]
    omega
  case farAhead =>
    rw [ahead (by omega) wrap]
    omega

/-! ### The event check -/

/-- The event check of a supplied answer, which is used up (R131). -/
theorem isrEventcheck_of_answers {ans : Option Nat} {rest : List (Option Nat)} (hp : s.iph = .check)
    (ha : s.answers = ans :: rest) : exec .isrEventcheck s = .next ({ s with answers := rest }.checkWith ans) := by
  have answer : s.nextAnswer = ans := by rw [State.nextAnswer, ha]
  have draw : s.drawAnswer = { s with answers := rest } := by rw [State.drawAnswer, ha]
  exact isrEventcheck_next.2 ⟨hp, by rw [answer, draw]⟩

/-- With no answer supplied, the event check is that of the free value (log entry 8). -/
theorem isrEventcheck_of_free (hp : s.iph = .check) (ha : s.answers = []) :
    exec .isrEventcheck s = .next ({ s with draws := s.draws + 1 }.checkWith (Config.freeAnswer s.draws)) := by
  have answer : s.nextAnswer = Config.freeAnswer s.draws := by rw [State.nextAnswer, ha]
  have draw : s.drawAnswer = { s with draws := s.draws + 1 } := by rw [State.drawAnswer, ha]
  exact isrEventcheck_next.2 ⟨hp, by rw [answer, draw]⟩

/-- Settles O22: one clause per answer of the scheduler; the due test is the one on integers. -/
theorem eventCheckSignalsADueEvent : Obligations.EventCheckSignalsADueEvent := by
  intro s hp
  refine ⟨fun rest ha => isrEventcheck_of_answers hp ha, fun x rest ha => ?expiration, fun ha => ?free,
    _, isrEventcheck_next.2 ⟨hp, rfl⟩⟩
  case expiration =>
    rw [isrEventcheck_of_answers hp ha]
    simp only [State.checkWith, checkEvents, due_iff_emod, Option.isSome_some, if_true, Option.map_some,
      Option.getD_some, narrow, List.append_assoc]
  case free =>
    have supplied := isrEventcheck_of_answers (ans := Config.freeAnswer s.draws) (rest := [])
      (s := { s with answers := [Config.freeAnswer s.draws], draws := s.draws + 1 }) hp rfl
    rw [isrEventcheck_of_free hp ha, supplied, ← ha]

end Sys2Proof.Machine
end

section
/-! SUPPORT. `TICKS`, `CCR` and `SECONDS` between two bases: who writes them, and what a number of rearms adds (R135 to
R137). -/

namespace Sys2Proof.Machine

variable {s t u : State} {op i : Instr}

/-! ### `TICKS` and `CCR` -/

/-- Outside `CLOCK_INIT` and `REBASE` the foreground writes neither `TICKS` nor `CCR` (R38, R136). -/
theorem FgWrites.keeps_ticks_ccr (h : FgWrites s op u) (notInit : op ≠ .clockInit)
    (notRebase : ∀ v h, op ≠ .rebase v h) :
    u.ticks = s.ticks ∧ u.ccr = s.ccr := by
  cases h with
  | nothing | clearEnable | maskedEnable => exact ⟨rfl, rfl⟩
  | clock => exact absurd rfl notInit
  | counter v h | deadline v h | ticksWord v h => exact absurd rfl (notRebase v h)

/-- Of the step labels, only `ISR_REARM` writes `TICKS` or `CCR` (R38, R126). -/
theorem exec_label_keeps_ticks_ccr (hi : i.issuable = false) (h : exec i s = .next t) (notRearm : i ≠ .isrRearm) :
    t.ticks = s.ticks ∧ t.ccr = s.ccr := by
  cases i with
  | tmrCount => obtain ⟨-, rfl⟩ := tmrCount_next.1 h; exact ⟨rfl, rfl⟩
  | hostStop => obtain rfl := hostStop_next.1 h; exact ⟨rfl, rfl⟩
  | hostStart => obtain rfl := hostStart_next.1 h; exact ⟨rfl, rfl⟩
  | isrEntry => obtain ⟨-, rfl⟩ := isrEntry_next.1 h; exact ⟨rfl, rfl⟩
  | isrRearm => exact absurd rfl notRearm
  | isrTest => obtain ⟨-, rfl⟩ := isrTest_next.1 h; exact ⟨rfl, rfl⟩
  | isrSnapshot => obtain ⟨-, rfl⟩ := isrSnapshot_next.1 h; exact ⟨rfl, rfl⟩
  | isrEventcheck => obtain ⟨-, rfl⟩ := isrEventcheck_next.1 h; simp
  | isrExit => obtain ⟨-, rfl⟩ := isrExit_next.1 h; exact ⟨rfl, rfl⟩
  | _ => cases hi

/-- Settles O29: the rearm's next state, and the frame of every other instruction that is no base. -/
theorem ticksAndDeadlineMoveTogether : Obligations.TicksAndDeadlineMoveTogether := by
  intro i s t h notInit notRebase
  refine ⟨fun rearm => ?_, fun notRearm => ?_⟩
  · subst rearm
    obtain ⟨-, rfl⟩ := isrRearm_next.1 h
    exact ⟨rfl, rfl⟩
  · cases ho : i.issuable with
    | false => exact exec_label_keeps_ticks_ccr ho h notRearm
    | true =>
      obtain ⟨u, writes, moves⟩ := exec_fg_cases ho h
      obtain ⟨f, c, es, rfl⟩ := moves.eq
      exact writes.keeps_ticks_ccr notInit notRebase

/-! ### `SECONDS` -/

/-- Adding to a narrowed sum. -/
theorem addW_mod (n x d : Nat) : addW n (x % 2 ^ n) d = (x + d) % 2 ^ n := Nat.mod_add_mod x (2 ^ n) d

/-- How many of the next `n` ticks are multiples of `TPS` (R137). -/
def State.secondsIn (s : State) (n : Nat) : Nat :=
  ((List.range n).filter fun j => (s.ticks + (j + 1)) % 2 ^ s.cfg.wTick % s.cfg.tps == 0).length

theorem State.secondsIn_succ (n : Nat) :
    s.secondsIn (n + 1) =
      s.secondsIn n + if (s.ticks + (n + 1)) % 2 ^ s.cfg.wTick % s.cfg.tps = 0 then 1 else 0 := by
  rw [State.secondsIn, List.range_succ, List.filter_append, List.length_append, ← State.secondsIn]
  congr 1
  split <;> simp [*]

/-- `TPS` divides `2^W_TICK`, so a wrap of `TICKS` does not shift the multiples of `TPS`. -/
theorem tick_boundary_iff_modEq {c : Config} (hc : c.Legal) (x j : Nat) :
    (x + (j + 1)) % 2 ^ c.wTick % c.tps = 0 ↔ j ≡ (c.tps - 1) * (x + 1) [MOD c.tps] := by
  have opposite : (c.tps - 1) * (x + 1) + (x + 1) = c.tps * (x + 1) := by
    rw [← Nat.succ_mul, Nat.succ_eq_add_one, Nat.sub_add_cancel hc.tps_pos]
  have shift : j ≡ (c.tps - 1) * (x + 1) [MOD c.tps] ↔ j + (x + 1) ≡ c.tps * (x + 1) [MOD c.tps] := by
    rw [← opposite]
    exact ⟨Nat.ModEq.add_right _, Nat.ModEq.add_right_cancel' _⟩
  rw [Nat.mod_mod_of_dvd _ hc.tps_dvd, shift, Nat.ModEq, Nat.mul_mod_right, Nat.add_left_comm]

/-- Every `TPS` ticks in a row hold one multiple of `TPS`. -/
theorem State.secondsIn_of_dvd (hc : s.cfg.Legal) {n : Nat} (hn : s.cfg.tps ∣ n) : s.secondsIn n = n / s.cfg.tps := by
  have boundaries : s.secondsIn n = n.count (· ≡ (s.cfg.tps - 1) * (s.ticks + 1) [MOD s.cfg.tps]) := by
    rw [State.secondsIn, ← List.countP_eq_length_filter, Nat.count]
    congr 1
    funext j
    rw [beq_eq_decide]
    exact decide_eq_decide.2 (tick_boundary_iff_modEq hc s.ticks j)
  rw [boundaries, Nat.count_modEq_card n hc.tps_pos, Nat.mod_eq_zero_of_dvd hn, if_neg (Nat.not_lt_zero _), Nat.add_zero]

/-- What `n` rearms in a row add (R135, R137). -/
theorem rearmTimes_next (hw : s.Wf) (n : Nat) :
    ∃ t, rearmTimes n s = .next t ∧ t.cfg = s.cfg ∧ t.ticks = (s.ticks + n) % 2 ^ s.cfg.wTick
      ∧ t.seconds = (s.seconds + s.secondsIn n) % 2 ^ s.cfg.wSec := by
  induction n with
  | zero => exact ⟨s, rfl, rfl, (Nat.mod_eq_of_lt hw.ticks_lt).symm, (Nat.mod_eq_of_lt hw.seconds_lt).symm⟩
  | succ n ih =>
    obtain ⟨t, run, cfg, ticks, seconds⟩ := ih
    have newTicks : addW s.cfg.wTick t.ticks 1 = (s.ticks + (n + 1)) % 2 ^ s.cfg.wTick := by
      rw [ticks, addW_mod, Nat.add_assoc]
    refine ⟨_, andThen_next.2 ⟨t, run, isrRearm_next.2 ⟨rfl, rfl⟩⟩, cfg, by rw [← newTicks, ← cfg]; rfl, ?_⟩
    simp only [State.countDeadline_seconds, cfg, newTicks, onSecond_iff hw.legal, State.secondsIn_succ]
    split
    · rw [seconds, addW_mod, Nat.add_assoc]
    · rw [seconds, Nat.add_zero]

/-- Settles O30: what the rearms add is `secondsIn`, which is `N / TPS` for whole seconds. -/
theorem secondsCountMultiplesOfTicksPerSecond : Obligations.SecondsCountMultiplesOfTicksPerSecond := by
  intro n s hw
  obtain ⟨t, run, -, ticks, seconds⟩ := rearmTimes_next hw n
  exact ⟨t, run, ticks, seconds, fun whole => by rw [seconds, State.secondsIn_of_dvd hw.legal whole]⟩

end Sys2Proof.Machine
end

section
/-! SUPPORT. The catch-up loop (R134, R247): an invariant of the handler between the first rearm and the snapshot, on the
counter and the deadline without wrapping. -/

namespace Sys2Proof.Machine

variable {s t u v : State} {D n k a : Nat}

/-! ### The rearm test without wrapping -/

/-- While the deadline `d` is at most `INTERVAL` ahead of the counter `n`, and behind it by less than a wrap less
`INTERVAL`, the rearm test says whether it has been reached (R128, R247). -/
theorem deadlinePassed_iff_le {c : Config} (hc : c.Legal) {d n : Nat} (ahead : d ≤ n + c.interval)
    (behind : n + c.interval < d + 2 ^ c.wHw) :
    deadlinePassed c (leadOf c (d % 2 ^ c.wHw) (n % 2 ^ c.wHw)) = true ↔ d ≤ n := by
  rw [deadlinePassed_iff, Int.natCast_mod, Int.natCast_mod, ← Int.sub_emod]
  have inRange := hc.interval_lt
  by_cases reached : n ≤ d
  · rw [Int.emod_eq_of_lt (by omega) (by omega)]
    omega
  · have wraps : ((d : Int) - n) % (2 ^ c.wHw : Nat) = d - n + (2 ^ c.wHw : Nat) := by
      rw [← Int.add_emod_right, Int.emod_eq_of_lt (by omega) (by omega)]
    rw [wraps]
    omega

/-! ### The invariant -/

/-- Where the loop is, with the counter at `n` and the deadline at `d` after `k` rearms and `a` handler steps: before a
rearm the deadline has been reached, before a test at most one interval of it is ahead, and at the snapshot it is ahead. -/
def CatchUpPhase (interval d n k a : Nat) : Phase → Prop
  | .rearm => a = 2 * k ∧ d ≤ n
  | .test => a + 1 = 2 * k ∧ d ≤ n + interval
  | .snap => a = 2 * k ∧ n < d ∧ d ≤ n + interval
  | _ => False

/-- `u` is a state of the catch-up that began in `s` with the deadline `D`: the counter is at `n` and the handler has taken
`a` steps, `k` of them rearms. -/
structure CatchUp (s : State) (D n k a : Nat) (u : State) : Prop where
  cfg : u.cfg = s.cfg
  ticks : u.ticks = (s.ticks + k) % 2 ^ s.cfg.wTick
  ccr : u.ccr = (D + k * s.cfg.interval) % 2 ^ s.cfg.wHw
  hwcnt : u.hwcnt = n % 2 ^ s.cfg.wHw
  phase : CatchUpPhase s.cfg.interval (D + k * s.cfg.interval) n k a u.iph

/-- The first rearm, with the deadline reached, begins a catch-up. -/
theorem CatchUp.start {h : Nat} (hw : s.Wf) (hp : s.iph = .rearm) (ccr : s.ccr = D % 2 ^ s.cfg.wHw)
    (hwcnt : s.hwcnt = h % 2 ^ s.cfg.wHw) (reached : D ≤ h) : CatchUp s D h 0 0 s where
  cfg := rfl
  ticks := (Nat.mod_eq_of_lt hw.ticks_lt).symm
  ccr := by rw [ccr, Nat.zero_mul, Nat.add_zero]
  hwcnt := hwcnt
  phase := by
    rw [hp, Nat.zero_mul]
    exact ⟨rfl, reached⟩

section Phases

variable (h : CatchUp s D n k a u)
include h

theorem CatchUp.at_rearm (hp : u.iph = .rearm) : a = 2 * k ∧ D + k * s.cfg.interval ≤ n := by
  have phase := h.phase
  rwa [hp] at phase

theorem CatchUp.at_test (hp : u.iph = .test) :
    a + 1 = 2 * k ∧ D + k * s.cfg.interval ≤ n + s.cfg.interval := by
  have phase := h.phase
  rwa [hp] at phase

theorem CatchUp.at_snap (hp : u.iph = .snap) :
    a = 2 * k ∧ n < D + k * s.cfg.interval ∧ D + k * s.cfg.interval ≤ n + s.cfg.interval := by
  have phase := h.phase
  rwa [hp] at phase

theorem CatchUp.iph_cases : u.iph = .rearm ∨ u.iph = .test ∨ u.iph = .snap := by
  have phase := h.phase
  cases hp : u.iph with
  | rearm => exact .inl rfl
  | test => exact .inr (.inl rfl)
  | snap => exact .inr (.inr rfl)
  | none | check | exit => rw [hp] at phase; exact phase.elim

end Phases

/-- Between two passes of the loop, the deadline tells whether it goes on. -/
theorem CatchUp.iph_eq_rearm (h : CatchUp s D n k (2 * k) u) (reached : D + k * s.cfg.interval ≤ n) : u.iph = .rearm := by
  obtain hp | hp | hp := h.iph_cases
  · exact hp
  · have := h.at_test hp
    omega
  · have := h.at_snap hp
    omega

theorem CatchUp.iph_eq_snap (h : CatchUp s D n k (2 * k) u) (ahead : n < D + k * s.cfg.interval) : u.iph = .snap := by
  obtain hp | hp | hp := h.iph_cases
  · have := h.at_rearm hp
    omega
  · have := h.at_test hp
    omega
  · exact hp

/-! ### The steps inside the loop -/

/-- A counter step brings the counter nearer to the deadline or further past it. -/
theorem CatchUp.countUp (h : CatchUp s D n k a u) (goesOn : u.iph ≠ .snap) : CatchUp s D (n + 1) k a u.countUp where
  cfg := h.cfg
  ticks := h.ticks
  ccr := h.ccr
  hwcnt := by rw [State.countUp_hwcnt, h.cfg, h.hwcnt, addW_mod]
  phase := by
    rw [State.countUp_iph]
    obtain hp | hp | hp := h.iph_cases
    · have := h.at_rearm hp
      rw [hp, CatchUpPhase]
      omega
    · have := h.at_test hp
      rw [hp, CatchUpPhase]
      omega
    · exact absurd hp goesOn

/-- The host's two steps are no part of the loop. -/
theorem CatchUp.setRun (h : CatchUp s D n k a u) (b : Bool) : CatchUp s D n k a { u with run := b } := { h with }

/-- A rearm moves the deadline that was reached one interval on (R126). -/
theorem CatchUp.rearm (h : CatchUp s D n k a u) (hp : u.iph = .rearm) :
    CatchUp s D n (k + 1) (a + 1) { u.countDeadline with iph := .test } where
  cfg := h.cfg
  ticks := by rw [State.countDeadline_ticks, h.cfg, h.ticks, addW_mod, Nat.add_assoc]
  ccr := by rw [State.countDeadline_ccr, h.cfg, h.ccr, addW_mod, Nat.add_assoc, Nat.succ_mul]
  hwcnt := h.hwcnt
  phase := by
    have := h.at_rearm hp
    rw [CatchUpPhase, Nat.succ_mul k]
    omega

/-- A test within the lag bound sends the loop on exactly when the deadline has been reached (R128, R247). -/
theorem CatchUp.test (hc : s.cfg.Legal) (h : CatchUp s D n k a u) (hp : u.iph = .test)
    (lag : n + s.cfg.interval < D + k * s.cfg.interval + 2 ^ s.cfg.wHw) :
    CatchUp s D n k (a + 1)
      { u with
        ih := u.hwcnt
        iph := if deadlinePassed u.cfg (leadOf u.cfg u.ccr u.hwcnt) then .rearm else .snap } where
  cfg := h.cfg
  ticks := h.ticks
  ccr := h.ccr
  hwcnt := h.hwcnt
  phase := by
    obtain ⟨steps, ahead⟩ := h.at_test hp
    simp only [h.cfg, h.ccr, h.hwcnt, deadlinePassed_iff_le hc ahead lag]
    split
    · exact ⟨steps, ‹_›⟩
    · exact ⟨steps, by omega, ahead⟩

/-! ### The agents' steps inside the loop -/

theorem stepAs_isr_of_rearm (hv : u.cfg.valid = true) (hp : u.iph = .rearm) :
    stepAs .isr u = .next { u.countDeadline with iph := .test } := by
  have instr : u.instrOf .isr = .next .isrRearm := by rw [State.instrOf, State.isrInstr, hp]
  rw [stepAs_eq hv instr]
  exact isrRearm_next.2 ⟨hp, rfl⟩

theorem stepAs_isr_of_test (hv : u.cfg.valid = true) (hp : u.iph = .test) :
    stepAs .isr u = .next
      { u with
        ih := u.hwcnt
        iph := if deadlinePassed u.cfg (leadOf u.cfg u.ccr u.hwcnt) then .rearm else .snap } := by
  have instr : u.instrOf .isr = .next .isrTest := by rw [State.instrOf, State.isrInstr, hp]
  rw [stepAs_eq hv instr]
  exact isrTest_next.2 ⟨hp, rfl⟩

/-- Any agent's step before the snapshot goes on with the catch-up, if a test is within the lag bound; the foreground has
none (R125). -/
theorem CatchUp.stepAs (hc : s.cfg.Legal) (h : CatchUp s D n k a u) (hw : u.Wf) {c : Choice} (goesOn : u.iph ≠ .snap)
    (lag : c = .isr → u.iph = .test → n + s.cfg.interval < D + k * s.cfg.interval + 2 ^ s.cfg.wHw)
    (step : stepAs c u = .next v) : ∃ k', CatchUp s D (n + [c].count .tmr) k' (a + [c].count .isr) v := by
  cases c with
  | fg =>
    obtain ⟨out, -⟩ := (stepAs_fg_next_iff hw).1 ⟨v, step⟩
    have noPhase := hw.phase.2 out
    obtain hp | hp | hp := h.iph_cases <;> cases noPhase.symm.trans hp
  | tmr =>
    rw [stepAs_eq hw.cfg_valid rfl] at step
    obtain ⟨-, rfl⟩ := tmrCount_next.1 step
    exact ⟨k, h.countUp goesOn⟩
  | hostStop =>
    rw [stepAs_eq hw.cfg_valid rfl] at step
    obtain rfl := hostStop_next.1 step
    exact ⟨k, h.setRun false⟩
  | hostStart =>
    rw [stepAs_eq hw.cfg_valid rfl] at step
    obtain rfl := hostStart_next.1 step
    exact ⟨k, h.setRun true⟩
  | isr =>
    obtain hp | hp | hp := h.iph_cases
    · cases (stepAs_isr_of_rearm hw.cfg_valid hp).symm.trans step
      exact ⟨k + 1, h.rearm hp⟩
    · cases (stepAs_isr_of_test hw.cfg_valid hp).symm.trans step
      exact ⟨k, h.test hc hp (lag rfl hp)⟩
    · exact absurd hp goesOn

/-! ### The deadlines counted -/

/-- The rearms after which the deadline is 1 to `INTERVAL` ahead are the deadlines from `D` up to the counter (R134). -/
theorem eq_passed_deadlines {interval : Nat} (reached : D ≤ n) (ahead : n < D + k * interval)
    (near : D + k * interval ≤ n + interval) : k = (n - D) / interval + 1 := by
  cases k with
  | zero => omega
  | succ j =>
    rw [Nat.succ_mul] at ahead near
    rw [Nat.div_eq_of_lt_le (k := j) (by omega) (by rw [Nat.succ_mul]; omega)]

/-- The deadline after all those up to the counter is 1 to `INTERVAL` ahead. -/
theorem passed_deadlines_bounds {interval : Nat} (hi : 0 < interval) (reached : D ≤ n) :
    n < D + ((n - D) / interval + 1) * interval
      ∧ D + ((n - D) / interval + 1) * interval ≤ n + interval := by
  have whole := Nat.div_add_mod' (n - D) interval
  have rest := Nat.mod_lt (n - D) hi
  rw [Nat.succ_mul]
  omega

/-! ### A handler that runs alone -/

/-- One pass of the loop with nothing between the rearm and the test. -/
theorem CatchUp.pass (hc : s.cfg.Legal) (h : CatchUp s D n k a u) (hp : u.iph = .rearm)
    (wrap : n < D + 2 ^ s.cfg.wHw) : ∃ v, runAs [.isr, .isr] u = .next v ∧ CatchUp s D n (k + 1) (a + 1 + 1) v := by
  have valid : u.cfg.valid = true := by rw [h.cfg]; exact (Config.valid_iff _).2 hc
  have lag : n + s.cfg.interval < D + (k + 1) * s.cfg.interval + 2 ^ s.cfg.wHw := by
    rw [Nat.succ_mul]
    omega
  exact ⟨_, runAs_cons_next.2 ⟨_, stepAs_isr_of_rearm valid hp,
    runAs_cons_next.2 ⟨_, stepAs_isr_of_test valid rfl, rfl⟩⟩, (h.rearm hp).test hc rfl lag⟩

/-- As many passes as there are deadlines up to the counter. -/
theorem CatchUp.passes {h : Nat} (hc : s.cfg.Legal) (first : CatchUp s D h 0 0 s) (wrap : h < D + 2 ^ s.cfg.wHw)
    (k : Nat) (near : D + k * s.cfg.interval ≤ h + s.cfg.interval) :
    ∃ u, runAs (List.replicate (2 * k) .isr) s = .next u ∧ CatchUp s D h k (2 * k) u := by
  induction k with
  | zero => exact ⟨s, rfl, first⟩
  | succ k ih =>
    rw [Nat.succ_mul] at near
    obtain ⟨u, run, upTo⟩ := ih (by omega)
    obtain ⟨v, pass, next⟩ := upTo.pass hc (upTo.iph_eq_rearm (by omega)) wrap
    refine ⟨v, ?_, next⟩
    rw [Nat.mul_succ, List.replicate_add]
    exact runAs_append_next.2 ⟨u, run, pass⟩

/-- Settles O26: the passes up to the last deadline reached, after which the test has chosen the snapshot. -/
theorem catchUpCountsEveryPassedDeadline : Obligations.CatchUpCountsEveryPassedDeadline := by
  intro s D h hw hp ccr hwcnt reached wrap
  obtain ⟨ahead, near⟩ := passed_deadlines_bounds hw.legal.interval_pos reached
  obtain ⟨t, run, last⟩ := (CatchUp.start hw hp ccr hwcnt reached).passes hw.legal wrap _ near
  exact ⟨_, t, rfl, run, last.iph_eq_snap ahead, last.hwcnt.trans hwcnt.symm, last.ticks, last.ccr⟩

/-! ### Any interleaving -/

/-- No proper part of the schedule, from `s`, reaches the snapshot. -/
def SnapsOnlyAtEnd (s : State) (sch : List Choice) : Prop :=
  ∀ pre u, pre <+: sch → pre ≠ sch → runAs pre s = .next u → u.iph ≠ .snap

/-- The lag is below `2^W_HW - INTERVAL` at every test of the schedule (R247). -/
def LagBounded (s : State) (D h : Nat) (sch : List Choice) : Prop :=
  ∀ pre u, pre ++ [.isr] <+: sch → runAs pre s = .next u → u.iph = .test →
    h + pre.count .tmr + s.cfg.interval < D + (pre.count .isr + 1) / 2 * s.cfg.interval + 2 ^ s.cfg.wHw

theorem State.Wf.stepAs {c : Choice} (hw : s.Wf) (h : stepAs c s = .next t) : t.Wf := by
  obtain ⟨-, i, hi, he⟩ := stepAs_next.1 h
  exact hw.exec (hw.wf_of_instrOf hi) he

theorem State.Wf.runAs {cs : List Choice} (hw : s.Wf) (h : runAs cs s = .next t) : t.Wf :=
  runAs_invariant (P := State.Wf) (fun _ _ _ _ wf step => wf.stepAs step) hw h

/-- The invariant after each part of the schedule. -/
theorem CatchUp.of_prefix {h : Nat} {sch : List Choice} (hw : s.Wf) (first : CatchUp s D h 0 0 s)
    (snapsLast : SnapsOnlyAtEnd s sch) (lag : LagBounded s D h sch) (pre : List Choice) :
    ∀ u, pre <+: sch → runAs pre s = .next u → ∃ k, CatchUp s D (h + pre.count .tmr) k (pre.count .isr) u := by
  induction pre using List.reverseRecOn with
  | nil =>
    rintro u - ⟨⟩
    exact ⟨0, first⟩
  | append_singleton pre c ih =>
    intro v inside run
    obtain ⟨u, before, last⟩ := runAs_append_next.1 run
    obtain ⟨v', step, ⟨⟩⟩ := runAs_cons_next.1 last
    have shorter : pre <+: sch := (List.prefix_append pre [c]).trans inside
    have proper : pre ≠ sch := by
      rintro rfl
      simpa using inside.length_le
    obtain ⟨k, upTo⟩ := ih u shorter before
    have lagHere (hc : c = .isr) (hp : u.iph = .test) :
        h + pre.count .tmr + s.cfg.interval < D + k * s.cfg.interval + 2 ^ s.cfg.wHw := by
      subst hc
      have bound := lag pre u inside before hp
      obtain ⟨steps, -⟩ := upTo.at_test hp
      rwa [steps, Nat.mul_div_cancel_left k two_pos] at bound
    rw [List.count_append, List.count_append, ← Nat.add_assoc]
    exact upTo.stepAs hw.legal (hw.runAs before) (snapsLast pre u shorter proper before) lagHere step

/-- Settles O27: at the snapshot the invariant has the deadline 1 to `INTERVAL` ahead of the last test's counter. -/
theorem catchUpCountsUnderInterleaving : Obligations.CatchUpCountsUnderInterleaving := by
  intro s t D h sch hw hp ccr hwcnt reached run snap snapsOnlyAtEnd lagBounded
  have first := CatchUp.start hw hp ccr hwcnt reached
  obtain ⟨k, last⟩ := first.of_prefix hw snapsOnlyAtEnd lagBounded sch t List.prefix_rfl run
  obtain ⟨steps, ahead, near⟩ := last.at_snap snap
  have passed : k = (h + sch.count .tmr - D) / s.cfg.interval + 1 := eq_passed_deadlines (by omega) ahead near
  refine ⟨k, passed, steps, last.ticks, last.ccr, ?_, ahead⟩
  rw [Nat.sub_mul, Nat.one_mul]
  omega

end Sys2Proof.Machine
end

section
/-! SUPPORT. The read synchronizer by itself (R160, R161, R164): what it has read after a number of word reads of a
register whose value may differ at each, and the value that two agreeing samples give. -/

namespace Sys2Proof.Machine

variable {c : Config} {k width n : Nat} {v : Nat → Nat}

/-! ### Samples of a changing register -/

/-- The first `n` words of the sample that begins with read number `m`, the register holding `v i` at read number `i`. -/
def sampleWords (c : Config) (k : Nat) (v : Nat → Nat) (m n : Nat) : List Nat :=
  (List.range n).map fun i => wordAt c.wWord (v (m + i)) (sampleIndex c k i)

/-- The value of the whole sample that begins with read number `m`. -/
def sampleFrom (c : Config) (k width : Nat) (v : Nat → Nat) (m : Nat) : Nat :=
  sampleValue c k width (sampleWords c k v m k)

@[simp] theorem sampleWords_length (m n : Nat) : (sampleWords c k v m n).length = n := by simp [sampleWords]

theorem sampleWords_succ (m n : Nat) :
    sampleWords c k v m n ++ [wordAt c.wWord (v (m + n)) (sampleIndex c k n)] = sampleWords c k v m (n + 1) := by
  simp [sampleWords, List.range_succ]

/-- A sample during which the register stands still is the register's value (R164). -/
theorem sampleFrom_of_held {m x : Nat} (hx : x < 2 ^ width) (hk : width ≤ k * c.wWord)
    (held : ∀ i, i < k → v (m + i) = x) : sampleFrom c k width v m = x := by
  have words : sampleWords c k v m k = (c.order k).map (wordAt c.wWord x) := by
    refine List.ext_getElem (by simp) fun i _ hi => ?_
    have inside : i < k := by simpa using hi
    simp [sampleWords, sampleIndex, held i inside, inside]
  rw [sampleFrom, words, sampleValue_words hx hk]

/-! ### The progress of a `ReadSync` -/

/-- The sample before sample number `j`, if there is one: samples follow each other without a gap. -/
def previousSample (c : Config) (k width : Nat) (v : Nat → Nat) : Nat → Option Nat
  | 0 => none
  | j + 1 => some (sampleFrom c k width v (j * k))

/-- Where a `ReadSync` can be after `n` word reads: inside a sample, no two neighbours of the whole ones before it being
equal; or at its end, the last two samples being equal to the agreed value (R161). -/
def SyncProgress (c : Config) (k width : Nat) (v : Nat → Nat) (n : Nat) : SyncResult → Prop
  | .again a w => ∃ j i, n = j * k + i ∧ i < k ∧ a = previousSample c k width v j ∧ w = sampleWords c k v (j * k) i
      ∧ ∀ l, l + 2 ≤ j → sampleFrom c k width v (l * k) ≠ sampleFrom c k width v ((l + 1) * k)
  | .agreed x => ∃ j, n = (j + 2) * k ∧ x = sampleFrom c k width v (j * k) ∧ x = sampleFrom c k width v ((j + 1) * k)

theorem SyncProgress.start (hk : 0 < k) : SyncProgress c k width v 0 (.again none []) :=
  ⟨0, 0, by simp, hk, rfl, rfl, nofun⟩

theorem SyncProgress.length_lt {a : Option Nat} {w : List Nat} (h : SyncProgress c k width v n (.again a w)) :
    w.length < k := by
  obtain ⟨j, i, -, hi, -, rfl, -⟩ := h
  simpa using hi

/-- Only before its first read a `ReadSync` has neither a sample nor a word. -/
theorem SyncProgress.eq_zero (h : SyncProgress c k width v n (.again none [])) : n = 0 := by
  obtain ⟨j, i, rfl, -, before, words, -⟩ := h
  have noWord : i = 0 := by simpa using (congrArg List.length words).symm
  cases j with
  | zero => rw [noWord, Nat.zero_mul]
  | succ j => cases before

/-- A word read joins the sample, and the last word of a sample ends the `ReadSync` or makes the sample the previous
one. -/
theorem SyncProgress.read {a : Option Nat} {w : List Nat} (h : SyncProgress c k width v n (.again a w)) :
    SyncProgress c k width v (n + 1)
      (syncStep c k width a w (wordAt c.wWord (v n) (sampleIndex c k w.length))) := by
  obtain ⟨j, i, rfl, hi, rfl, rfl, differ⟩ := h
  obtain ⟨goesOn, he⟩ | ⟨last, agree, he⟩ | ⟨last, slide, he⟩ := syncStep_cases c k width (previousSample c k width v j)
    (sampleWords c k v (j * k) i) (wordAt c.wWord (v (j * k + i)) (sampleIndex c k (sampleWords c k v (j * k) i).length))
  all_goals
    rw [he]
    simp only [sampleWords_length, sampleWords_succ] at *
  · exact ⟨j, i + 1, by omega, goesOn, rfl, rfl, differ⟩
  all_goals
    obtain rfl : i + 1 = k := by omega
    rw [← sampleFrom] at *
  · cases j with
    | zero => cases agree
    | succ j => exact ⟨j, by ring, (Option.some.inj agree).symm, rfl⟩
  · refine ⟨j + 1, 0, by ring, by omega, rfl, rfl, fun l hl => ?_⟩
    by_cases earlier : l + 2 ≤ j
    · exact differ l earlier
    · obtain rfl : j = l + 1 := by omega
      exact fun equal => slide (congrArg some equal)

theorem SyncProgress.two_samples_le {x : Nat} (h : SyncProgress c k width v n (.agreed x)) : 2 * k ≤ n := by
  obtain ⟨j, rfl, -⟩ := h
  exact Nat.mul_le_mul_right k (Nat.le_add_left 2 j)

/-- Over a register that stands still the first two samples agree on its value (R165). -/
theorem SyncProgress.of_constant {x : Nat} {r : SyncResult} (hx : x < 2 ^ width) (hk : width ≤ k * c.wWord)
    (h : SyncProgress c k width (fun _ => x) (2 * k) r) : r = .agreed x := by
  have steady (m : Nat) : sampleFrom c k width (fun _ => x) m = x := sampleFrom_of_held hx hk fun _ _ => rfl
  cases r with
  | agreed y =>
    obtain ⟨j, -, rfl, -⟩ := h
    rw [steady]
  | again a w =>
    obtain ⟨j, i, reads, hi, -, -, differ⟩ := h
    have two : 2 ≤ j := by
      by_contra few
      have : j * k ≤ 1 * k := Nat.mul_le_mul_right k (by omega)
      omega
    exact absurd ((steady _).trans (steady _).symm) (differ 0 two)

/-- If the register changes at most once over the last two samples, one of the two is not torn, so the agreed value is
one that the register held at one of their reads (R164). -/
theorem SyncProgress.agreed_held {x : Nat} (hk : 0 < k) (hwidth : width ≤ k * c.wWord) (hv : ∀ i, v i < 2 ^ width)
    (once : ChangesOnce v (2 * k) n) (h : SyncProgress c k width v n (.agreed x)) :
    ∃ i, n ≤ i + 2 * k ∧ i < n ∧ x = v i := by
  obtain ⟨y, z, cut, value⟩ := once
  obtain ⟨j, rfl, first, second⟩ := h
  have ends : (j + 2) * k = j * k + 2 * k := by ring
  have middle : (j + 1) * k = j * k + k := by ring
  rw [middle] at second
  rw [ends] at value ⊢
  by_cases early : cut ≤ j * k + k
  · have held (i : Nat) (hi : i < k) : v (j * k + k + i) = z := by
      rw [value _ (by omega) (by omega), if_neg (by omega)]
    refine ⟨j * k + k, by omega, by omega, second.trans (sampleFrom_of_held (hv _) hwidth fun i hi => ?_)⟩
    exact (held i hi).trans (held 0 hk).symm
  · have held (i : Nat) (hi : i < k) : v (j * k + i) = y := by
      rw [value _ (by omega) (by omega), if_pos (by omega)]
    refine ⟨j * k, by omega, by omega, first.trans (sampleFrom_of_held (hv _) hwidth fun i hi => ?_)⟩
    exact (held i hi).trans (held 0 hk).symm

end Sys2Proof.Machine
end

section
/-! SUPPORT. The four uses of `ReadSync` (R162, R163, R169): one word read of a use, and the readers' micro-steps. -/

namespace Sys2Proof.Machine

variable {s t : State} {a : Option Nat} {w : List Nat}

/-! ### The uses of `ReadSync` -/

/-- What calls `ReadSync`: the two reads, and a `WAIT` for its `start` and for each `now` (R162, R163, R169). -/
inductive SyncUse where
  | ticks
  | seconds
  | waitStart (n : Nat)
  | waitNow (n start : Nat)

namespace SyncUse

/-- The operation that calls. -/
def op : SyncUse → Instr
  | ticks => .currentTicks
  | seconds => .currentSeconds
  | waitStart n | waitNow n _ => .wait n

/-- The register sampled is `SECONDS`, not `TICKS`. -/
def secs : SyncUse → Bool
  | seconds => true
  | _ => false

/-- The label of the operation's next word read. -/
def label : SyncUse → Option Nat → List Nat → FgLabel
  | ticks | seconds => .sample
  | waitStart _ => .waitStart
  | waitNow _ start => .waitNow start

/-- What the operation does after a word read. -/
def after (s : State) : SyncUse → SyncResult → State
  | ticks => s.afterTicksRead
  | seconds => s.afterSecondsRead
  | waitStart n => s.afterWaitStart n
  | waitNow n start => s.afterWaitNow n start

variable {use : SyncUse}

@[simp] theorem after_again (s : State) (use : SyncUse) (a : Option Nat) (w : List Nat) :
    use.after s (.again a w) = s.continueAt use.op (use.label a w) := by
  cases use <;> rfl

theorem after_sequences (s : State) (use : SyncUse) (r : SyncResult) : s.Sequences use.op (use.after s r) := by
  cases use with
  | ticks => exact afterTicksRead_sequences r
  | seconds => exact afterSecondsRead_sequences r
  | waitStart n => exact afterWaitStart_sequences n r
  | waitNow n start => exact afterWaitNow_sequences n start r

end SyncUse

/-! ### One word read -/

/-- The word that a sample of the register reads next, when it has read `n` words (R160). -/
def State.wordRead (s : State) (secs : Bool) (n : Nat) : Nat :=
  wordAt s.cfg.wWord (s.sampled secs) (sampleIndex s.cfg (sampledWords s.cfg secs) n)

/-- One word read of any use: the word read is the live one, and the use goes on from what the synchronizer makes of
it (R160, R161). -/
theorem exec_syncUse {use : SyncUse} (hc : s.cfg.Legal) (hl : s.fgLabel use.op = .ok (use.label a w))
    (hw : w.length < sampledWords s.cfg use.secs) :
    exec use.op s = .next (use.after s (syncStep s.cfg (sampledWords s.cfg use.secs) (sampledWidth s.cfg use.secs) a w
      (s.wordRead use.secs w.length))) := by
  cases use with
  | ticks => exact currentTicks_next.2 ⟨a, w, _, hl, memRead_ticks hc (sampleIndex_lt hw), rfl⟩
  | seconds => exact currentSeconds_next.2 ⟨a, w, _, hl, memRead_seconds hc (sampleIndex_lt hw), rfl⟩
  | waitStart n => exact wait_next.2 (.inl ⟨a, w, _, hl, memRead_ticks hc (sampleIndex_lt hw), rfl⟩)
  | waitNow n start => exact wait_next.2 (.inr ⟨start, a, w, _, hl, memRead_ticks hc (sampleIndex_lt hw), rfl⟩)

/-- The same by what the word does: it joins the sample, or it is the last of a sample that equals the one before it or
that does not. -/
theorem exec_syncUse_cases {use : SyncUse} (hc : s.cfg.Legal) (hl : s.fgLabel use.op = .ok (use.label a w))
    (hw : w.length < sampledWords s.cfg use.secs) :
    (w.length + 1 < sampledWords s.cfg use.secs →
      exec use.op s = .next (s.continueAt use.op (use.label a (w ++ [s.wordRead use.secs w.length]))))
    ∧ (w.length + 1 = sampledWords s.cfg use.secs →
      ∀ v, v = sampleValue s.cfg (sampledWords s.cfg use.secs) (sampledWidth s.cfg use.secs)
          (w ++ [s.wordRead use.secs w.length]) →
        (a = some v → exec use.op s = .next (use.after s (.agreed v)))
        ∧ (a ≠ some v → exec use.op s = .next (s.continueAt use.op (use.label (some v) [])))) := by
  rw [exec_syncUse hc hl hw]
  simp only [← SyncUse.after_again]
  obtain ⟨inside, he⟩ | ⟨last, agree, he⟩ | ⟨last, slide, he⟩ := syncStep_cases s.cfg (sampledWords s.cfg use.secs)
    (sampledWidth s.cfg use.secs) a w (s.wordRead use.secs w.length)
  all_goals rw [he]
  · exact ⟨fun _ => rfl, fun last => absurd last inside.ne⟩
  · refine ⟨fun inside => absurd last (Nat.not_le.2 inside), ?_⟩
    rintro - v rfl
    exact ⟨fun _ => rfl, fun slide => absurd agree slide⟩
  · refine ⟨fun inside => absurd last (Nat.not_le.2 inside), ?_⟩
    rintro - v rfl
    exact ⟨fun agree => absurd agree slide, fun _ => rfl⟩

/-- Where the foreground takes a word read: inside a sample, and for the first use of an operation at its beginning. -/
theorem fgLabel_of_sample {use : SyncUse} (hi : s.inIsr = false) (first : firstLabel use.op = use.label none [])
    (hf : (s.fgs = .idle ∧ a = none ∧ w = []) ∨ s.fgs = .busy use.op (use.label a w)) :
    s.fgLabel use.op = .ok (use.label a w) := by
  obtain ⟨idle, rfl, rfl⟩ | busy := hf
  · rw [fgLabel_idle _ hi idle, first]
  · exact fgLabel_busy hi busy

/-- The place of the next word in `order(K)`. -/
theorem order_getElem?_sampleIndex {c : Config} {k n : Nat} (hn : n < k) : (c.order k)[n]? = some (sampleIndex c k n) := by
  have inside : n < (c.order k).length := by simpa using hn
  rw [sampleIndex, List.getD_eq_getElem _ _ inside, List.getElem?_eq_getElem inside]

/-- Settles O35: the one word read of `CURRENT_TICKS`. -/
theorem currentTicksReadsOneWordAStep : Obligations.CurrentTicksReadsOneWordAStep := by
  intro s a w hv hi hf hw
  have label := fgLabel_of_sample (use := .ticks) hi rfl hf
  exact ⟨_, _, order_getElem?_sampleIndex hw, rfl, exec_syncUse_cases ((Config.valid_iff _).1 hv) label hw⟩

/-- Settles O36: the one word read of `CURRENT_SECONDS`. -/
theorem currentSecondsReadsOneWordAStep : Obligations.CurrentSecondsReadsOneWordAStep := by
  intro s a w hv hi hf hw
  have label := fgLabel_of_sample (use := .seconds) hi rfl hf
  exact ⟨_, _, order_getElem?_sampleIndex hw, rfl, exec_syncUse_cases ((Config.valid_iff _).1 hv) label hw⟩

/-! ### `WAIT` -/

/-- The wait's test, as integers modulo two to the power of the width (R10, R169). -/
theorem le_subW_iff_emod {width n now start : Nat} :
    n ≤ subW width now start ↔ (n : Int) ≤ ((now : Int) - start) % (2 ^ width : Nat) := by
  rw [← subW_eq_int, Int.ofNat_le]

theorem afterWaitNow_of_elapsed {n start now : Nat}
    (elapsed : (n : Int) ≤ ((now : Int) - start) % (2 ^ s.cfg.wTick : Nat)) :
    s.afterWaitNow n start (.agreed now) = s.finish .wait none :=
  if_pos (le_subW_iff_emod.2 elapsed)

theorem afterWaitNow_of_early {n start now : Nat}
    (early : ((now : Int) - start) % (2 ^ s.cfg.wTick : Nat) < n) :
    s.afterWaitNow n start (.agreed now) = s.continueAt (.wait n) (.waitNow start none []) :=
  if_neg fun elapsed => absurd (le_subW_iff_emod.1 elapsed) (not_le.2 early)

/-- Settles O43: a word read for `start`, and one for a `now`, whose agreement ends the wait or begins the next `now`. -/
theorem waitReadsOneWordAStep : Obligations.WaitReadsOneWordAStep := by
  intro n s a w hv hi hw
  have legal := (Config.valid_iff _).1 hv
  refine ⟨_, _, order_getElem?_sampleIndex hw, rfl, fun hf => ?_, fun start hf => ?_⟩
  · exact exec_syncUse_cases legal (fgLabel_of_sample (use := .waitStart n) hi rfl hf) hw
  · obtain ⟨inside, last⟩ := exec_syncUse_cases (use := .waitNow n start) legal (fgLabel_busy hi hf) hw
    refine ⟨inside, fun whole v hx => ?_⟩
    obtain ⟨agree, slide⟩ := last whole v hx
    refine ⟨fun ha elapsed => (agree ha).trans ?_, fun ha early => (agree ha).trans ?_, slide⟩
    · exact congrArg _ (afterWaitNow_of_elapsed elapsed)
    · exact congrArg _ (afterWaitNow_of_early early)

/-- After a word read for a `now` the foreground is idle only when the wait has ended. -/
theorem afterWaitNow_idle {n start : Nat} {r : SyncResult} (h : (s.afterWaitNow n start r).fgs = .idle) :
    ∃ now, r = .agreed now ∧ (n : Int) ≤ ((now : Int) - start) % (2 ^ s.cfg.wTick : Nat)
      ∧ s.afterWaitNow n start r = s.finish .wait none := by
  cases r with
  | again a w => cases h
  | agreed now =>
    by_cases elapsed : (n : Int) ≤ ((now : Int) - start) % (2 ^ s.cfg.wTick : Nat)
    · exact ⟨now, rfl, elapsed, afterWaitNow_of_elapsed elapsed⟩
    · rw [afterWaitNow_of_early (not_le.1 elapsed)] at h
      cases h

theorem eq_some_of_syncStep_agreed {c : Config} {k width x v : Nat} (h : syncStep c k width a w x = .agreed v) :
    a = some v := by
  obtain ⟨-, he⟩ | ⟨-, agree, he⟩ | ⟨-, -, he⟩ := syncStep_cases c k width a w x
  all_goals rw [he] at h
  all_goals cases h
  exact agree

/-- Settles O45: a word read for `start` goes on, and one for a `now` ends the wait only on an agreed sample that has
elapsed. -/
theorem waitReturnsOnlyWhenElapsed : Obligations.WaitReturnsOnlyWhenElapsed := by
  intro n s t h idle
  obtain ⟨a, w, x, -, -, rfl⟩ | ⟨start, a, w, x, hl, -, rfl⟩ := wait_next.1 h
  · generalize syncStep s.cfg s.cfg.kT s.cfg.wTick a w x = r at idle
    cases r <;> cases idle
  · obtain ⟨now, agreed, elapsed, ends⟩ := afterWaitNow_idle idle
    obtain rfl := eq_some_of_syncStep_agreed agreed
    obtain ⟨-, ⟨-, first⟩ | busy⟩ := fgLabel_ok.1 hl
    · cases first
    · exact ⟨start, now, w, busy, elapsed, by rw [ends]; rfl⟩

/-! ### The reads of one or two words -/

theorem exec_fineTicks_first (hi : s.inIsr = false) (hf : s.fgs = .idle) :
    exec .fineTicks s = .next (s.continueAt .fineTicks (.fineHwcnt s.last)) :=
  fineTicks_next.2 (.inl ⟨fgLabel_idle _ hi hf, rfl⟩)

theorem exec_fineTicks_second {v : Nat} (hi : s.inIsr = false) (hf : s.fgs = .busy .fineTicks (.fineHwcnt v)) :
    exec .fineTicks s = .next (s.finish .fineTicks (some (subW s.cfg.wHw s.hwcnt v))) :=
  fineTicks_next.2 (.inr ⟨v, fgLabel_busy hi hf, rfl⟩)

/-- Settles O40: the two micro-steps, whose difference is that of integers modulo two to the power of the width. -/
theorem fineTicksSubtractsTheSnapshot : Obligations.FineTicksSubtractsTheSnapshot := by
  intro s hi
  exact ⟨exec_fineTicks_first hi, fun v hf => ⟨_, subW_eq_int _ _ _, exec_fineTicks_second hi hf⟩⟩

theorem addW_addW (n a b d : Nat) : addW n (addW n a b) d = addW n a (b + d) := by
  rw [addW, narrow, addW, narrow, Nat.mod_add_mod, Nat.add_assoc, addW, narrow]

/-- A running counter takes any number of steps in a row, past its wrap too; they change nothing else but `CMPIFG`
(R121). -/
theorem runAs_tmr_of_run {n : Nat} (hv : s.cfg.valid = true) (running : s.run = true)
    (hwcnt : s.hwcnt < 2 ^ s.cfg.wHw) :
    ∃ f, runAs (List.replicate n .tmr) s = .next { s with hwcnt := addW s.cfg.wHw s.hwcnt n, cmpifg := f } := by
  induction n generalizing s with
  | zero =>
    have stays : addW s.cfg.wHw s.hwcnt 0 = s.hwcnt := narrow_of_lt hwcnt
    exact ⟨s.cmpifg, by rw [stays]; rfl⟩
  | succ n ih =>
    have first : stepAs .tmr s = .next s.countUp := (stepAs_eq hv rfl).trans (tmrCount_next.2 ⟨running, rfl⟩)
    obtain ⟨f, rest⟩ := ih (s := s.countUp) hv running (addW_lt _ _ _)
    rw [State.countUp_cfg, State.countUp_hwcnt, addW_addW, Nat.add_comm 1 n] at rest
    exact ⟨f, runAs_cons_next.2 ⟨_, first, rest⟩⟩

/-- Up to the read of `LAST`, which the counter steps before it leave alone (R121, R166). -/
theorem runAs_fineTicks_first (hw : s.Wf) (hi : s.inIsr = false) (hf : s.fgs = .idle)
    (decoded : decode s.cfg s.prog s.cpc = .op .fineTicks) (running : s.run = true) (j : Nat) :
    ∃ f, runAs (List.replicate j .tmr ++ [.fg]) s = .next
      { s with
        hwcnt := addW s.cfg.wHw s.hwcnt j
        cmpifg := f
        fgs := .busy .fineTicks (.fineHwcnt s.last) } := by
  obtain ⟨f, counts⟩ := runAs_tmr_of_run (n := j) hw.cfg_valid running hw.hwcnt_lt
  have reads := (stepAs_eq (s := { s with hwcnt := addW s.cfg.wHw s.hwcnt j, cmpifg := f }) hw.cfg_valid
    (instrOf_fg_idle hi hf decoded)).trans (exec_fineTicks_first hi hf)
  exact ⟨f, runAs_append_next.2 ⟨_, counts, runAs_cons_next.2 ⟨_, reads, rfl⟩⟩⟩

/-- From there on, the counter steps up to the read of `HWCNT` show in the difference (R166). -/
theorem runAs_fineTicks_second {v : Nat} (hw : s.Wf) (hi : s.inIsr = false)
    (hf : s.fgs = .busy .fineTicks (.fineHwcnt v)) (running : s.run = true) (m : Nat) :
    ∃ t, runAs (List.replicate m .tmr ++ [.fg]) s = .next t
      ∧ t.hist = s.hist ++ [.ret .fineTicks (some (subW s.cfg.wHw (addW s.cfg.wHw s.hwcnt m) v))]
      ∧ t.cpc = s.cpc + 1 ∧ t.fgs = .idle := by
  obtain ⟨f, counts⟩ := runAs_tmr_of_run (n := m) hw.cfg_valid running hw.hwcnt_lt
  have reads := (stepAs_eq (s := { s with hwcnt := addW s.cfg.wHw s.hwcnt m, cmpifg := f }) hw.cfg_valid
    (instrOf_fg_busy hf)).trans (exec_fineTicks_second hi hf)
  exact ⟨_, runAs_append_next.2 ⟨_, counts, runAs_cons_next.2 ⟨_, reads, rfl⟩⟩, rfl, rfl, rfl⟩

/-- Settles O41: the counter steps before and after the first read add up to the difference. -/
theorem fineTicksCountsSinceTheSnapshot : Obligations.FineTicksCountsSinceTheSnapshot := by
  intro s j m hw hi hf running decoded snapshot bound
  obtain ⟨f, first⟩ := runAs_fineTicks_first hw hi hf decoded running j
  obtain ⟨t, second, hhist, hcpc, hfgs⟩ := runAs_fineTicks_second (hw.runAs first) hi rfl running m
  refine ⟨t, ?_, ?_, hcpc, hfgs⟩
  · rw [List.append_assoc]
    exact runAs_append_next.2 ⟨_, first, second⟩
  · rw [hhist, addW_addW, snapshot, subW_addW_cancel _ bound]

/-- Settles O42: `FINE_MAX` is one word long. -/
theorem fineMaxReturnsTheInterval : Obligations.FineMaxReturnsTheInterval := by
  intro s hi hf
  rw [fineMax_next.2 ⟨fgLabel_idle _ hi hf, rfl⟩, State.finish_of_idle hf]
  rfl

end Sys2Proof.Machine
end

section
/-! SUPPORT. A whole `ReadSync` in a run (R162 to R165, R169, R257): how far a use has got, whatever other agents have done
to the registers, and what it gives over a register that stands still or changes once. -/

namespace Sys2Proof.Machine

variable {s t u : State} {use : SyncUse} {r : SyncResult} {a : Option Nat} {w : List Nat} {n : Nat}

theorem sampledWords_pos {c : Config} (hc : c.Legal) (secs : Bool) : 0 < sampledWords c secs := by
  cases secs
  · exact hc.kT_pos
  · exact hc.kS_pos

/-- The words of a sampled register hold all its bits. -/
theorem sampledWidth_le_words {c : Config} (hc : c.Legal) (secs : Bool) :
    sampledWidth c secs ≤ sampledWords c secs * c.wWord := by
  cases secs
  · exact hc.wTick_le_words
  · exact hc.wSec_le_words

theorem State.Wf.sampled_lt (hw : s.Wf) (secs : Bool) : s.sampled secs < 2 ^ sampledWidth s.cfg secs := by
  cases secs
  · exact hw.ticks_lt
  · exact hw.seconds_lt

/-! ### How far a use has got -/

/-- A use of `ReadSync` that began in `s` has got to `r` in the state `u`: the sequencer is where the use alone would have
left it. The registers may have changed. -/
structure SyncUse.Reached (use : SyncUse) (s : State) (r : SyncResult) (u : State) : Prop where
  cfg : u.cfg = s.cfg
  prog : u.prog = s.prog
  gie : u.gie = s.gie
  inIsr : u.inIsr = s.inIsr
  cpc : u.cpc = (use.after s r).cpc
  hist : u.hist = (use.after s r).hist
  fgs : u.fgs = (use.after s r).fgs ∨ (r = .again none [] ∧ u.fgs = s.fgs)

namespace SyncUse

theorem Reached.start : use.Reached s (.again none []) s :=
  ⟨rfl, rfl, rfl, rfl, by simp, by simp, .inr ⟨rfl, rfl⟩⟩

/-- A `ReadSync` that goes on is at the label of its next word read. -/
theorem Reached.fgLabel (begins : s.fgLabel use.op = .ok (use.label none [])) (h : use.Reached s (.again a w) u) :
    u.fgLabel use.op = .ok (use.label a w) := by
  obtain ⟨out, first⟩ := fgLabel_ok.1 begins
  have outside : u.inIsr = false := h.inIsr.trans out
  obtain busy | ⟨⟨⟩, hf⟩ := h.fgs
  · exact fgLabel_busy outside (busy.trans (by simp))
  · rw [fgLabel_ok, hf]
    exact ⟨outside, first⟩

/-- A `ReadSync` that goes on is what the foreground steps next. -/
theorem Reached.instrOf_fg (begins : s.instrOf .fg = .next use.op) (h : use.Reached s (.again a w) u) :
    u.instrOf .fg = .next use.op := by
  obtain busy | ⟨-, hf⟩ := h.fgs
  · exact instrOf_fg_busy (lbl := use.label a w) (busy.trans (by simp))
  · have hcpc := h.cpc
    rw [after_again, State.continueAt_cpc] at hcpc
    rw [← begins]
    simp only [State.instrOf, State.fgInstr, hf, h.cfg, h.prog, h.inIsr, hcpc]

/-- What a use does next to the sequencer depends on the configuration, `cpc` and the history alone. -/
theorem after_sequencer (cfg : u.cfg = s.cfg) (cpc : u.cpc = s.cpc) (hist : u.hist = s.hist) (use : SyncUse)
    (r : SyncResult) :
    (use.after u r).cpc = (use.after s r).cpc ∧ (use.after u r).hist = (use.after s r).hist
      ∧ (use.after u r).fgs = (use.after s r).fgs := by
  cases r with
  | again a w => simp [cpc, hist]
  | agreed x =>
    cases use with
    | ticks => exact ⟨by simp [after, State.afterTicksRead, cfg, cpc], by simp [after, State.afterTicksRead, hist], rfl⟩
    | seconds =>
      exact ⟨by simp [after, State.afterSecondsRead, cfg, cpc], by simp [after, State.afterSecondsRead, hist], rfl⟩
    | waitStart k => exact ⟨cpc, hist, rfl⟩
    | waitNow k start =>
      simp only [after, State.afterWaitNow, cfg]
      split
      · exact ⟨by simp [cfg, cpc], by simp [hist], rfl⟩
      · exact ⟨cpc, hist, rfl⟩

/-- The foreground's step inside a `ReadSync`: one word read, of the value that the register has now. -/
theorem Reached.read {value : Nat → Nat} (hc : s.cfg.Legal) (begins : s.fgLabel use.op = .ok (use.label none []))
    (h : use.Reached s (.again a w) u)
    (progress : SyncProgress s.cfg (sampledWords s.cfg use.secs) (sampledWidth s.cfg use.secs) value n (.again a w))
    (register : u.sampled use.secs = value n) :
    ∃ r, exec use.op u = .next (use.after u r) ∧ use.Reached s r (use.after u r)
      ∧ SyncProgress s.cfg (sampledWords s.cfg use.secs) (sampledWidth s.cfg use.secs) value (n + 1) r := by
  have executes := exec_syncUse (by rwa [h.cfg]) (h.fgLabel begins) (by rw [h.cfg]; exact progress.length_lt)
  rw [State.wordRead, register, h.cfg] at executes
  refine ⟨_, executes, ?_, progress.read⟩
  have hcpc : u.cpc = s.cpc := by simpa using h.cpc
  have hhist : u.hist = s.hist := by simpa using h.hist
  generalize syncStep _ _ _ _ _ _ = r
  obtain ⟨cpc, hist, fgs⟩ := after_sequencer h.cfg hcpc hhist use r
  obtain ⟨f, c, es, moves⟩ := (use.after_sequences u r).eq
  exact ⟨by rw [moves, h.cfg], by rw [moves, h.prog], by rw [moves, h.gie], by rw [moves, h.inIsr], cpc, hist, .inl fgs⟩

end SyncUse

/-! ### No other agent steps -/

/-- The foreground has done nothing but move the sequencer. -/
def State.OnlyMoved (s u : State) : Prop := ∃ f c es, u = { s with fgs := f, cpc := c, hist := es }

theorem State.OnlyMoved.sequences {op : Instr} (h : s.OnlyMoved u) (moves : u.Sequences op t) : s.OnlyMoved t := by
  obtain ⟨f, c, es, rfl⟩ := h
  obtain ⟨f', c', es', rfl⟩ := moves.eq
  exact ⟨f', c', _, rfl⟩

theorem State.OnlyMoved.sampled (h : s.OnlyMoved u) (secs : Bool) : u.sampled secs = s.sampled secs := by
  obtain ⟨f, c, es, rfl⟩ := h
  rfl

theorem SyncUse.Reached.eq_after {x : Nat} (h : use.Reached s (.agreed x) u) (moved : s.OnlyMoved u) :
    u = use.after s (.agreed x) := by
  obtain ⟨f, c, es, rfl⟩ := moved
  obtain ⟨f', c', es', moves⟩ := (use.after_sequences s (.agreed x)).eq
  obtain ⟨-, -, -, -, cpc, hist, fgs | ⟨⟨⟩, -⟩⟩ := h
  rw [moves] at cpc hist fgs ⊢
  obtain rfl : c = c' := cpc
  obtain rfl : es = s.hist ++ es' := hist
  obtain rfl : f = f' := fgs
  rfl

/-- Two samples of a register that nothing changes complete a `ReadSync` with its value (R165). -/
theorem runAs_syncUse (hw : s.Wf) (begins : s.fgLabel use.op = .ok (use.label none []))
    (instr : s.instrOf .fg = .next use.op) :
    runAs (List.replicate (2 * sampledWords s.cfg use.secs) .fg) s =
      .next (use.after s (.agreed (s.sampled use.secs))) := by
  have part (n : Nat) (hn : n ≤ 2 * sampledWords s.cfg use.secs) :
      ∃ u r, runAs (List.replicate n .fg) s = .next u ∧ s.OnlyMoved u ∧ use.Reached s r u
        ∧ SyncProgress s.cfg (sampledWords s.cfg use.secs) (sampledWidth s.cfg use.secs)
            (fun _ => s.sampled use.secs) n r := by
    induction n with
    | zero => exact ⟨s, _, rfl, ⟨_, _, _, rfl⟩, .start, .start (sampledWords_pos hw.legal _)⟩
    | succ n ih =>
      obtain ⟨u, r, run, moved, reached, progress⟩ := ih (by omega)
      cases r with
      | agreed x =>
        have := progress.two_samples_le
        omega
      | again a w =>
        obtain ⟨r, executes, next, progress⟩ := reached.read hw.legal begins progress (moved.sampled _)
        have step : stepAs .fg u = .next (use.after u r) :=
          (stepAs_eq (by rw [reached.cfg]; exact hw.cfg_valid) (reached.instrOf_fg instr)).trans executes
        refine ⟨_, r, ?_, moved.sequences (use.after_sequences u r), next, progress⟩
        rw [List.replicate_succ']
        exact runAs_append_next.2 ⟨u, run, runAs_cons_next.2 ⟨_, step, rfl⟩⟩
  obtain ⟨u, r, run, moved, reached, progress⟩ := part _ le_rfl
  obtain rfl := progress.of_constant (hw.sampled_lt _) (sampledWidth_le_words hw.legal _)
  rw [run, reached.eq_after moved]

/-- Settles O37: both reads are one `ReadSync`, and each is one word long. -/
theorem quietReadsReturnTheCounter : Obligations.QuietReadsReturnTheCounter := by
  intro s hw hi hf
  refine ⟨fun decoded => ?_, fun decoded => ?_⟩
  · have run := runAs_syncUse (use := .ticks) hw (fgLabel_idle _ hi hf) (instrOf_fg_idle hi hf decoded)
    exact run.trans (congrArg _ (State.finish_of_idle hf _ _))
  · have run := runAs_syncUse (use := .seconds) hw (fgLabel_idle _ hi hf) (instrOf_fg_idle hi hf decoded)
    exact run.trans (congrArg _ (State.finish_of_idle hf _ _))

/-- Settles O44: one `ReadSync` for `start` and one for `now`, which is 0 ticks later. -/
theorem waitZeroReturnsAtOnce : Obligations.WaitZeroReturnsAtOnce := by
  intro s hw hi hf decoded
  have start := runAs_syncUse (use := .waitStart 0) hw (fgLabel_idle _ hi hf) (instrOf_fg_idle hi hf decoded)
  have now := runAs_syncUse (use := .waitNow 0 s.ticks) (hw.runAs start) (fgLabel_busy hi rfl) (instrOf_fg_busy rfl)
  have elapsed : ((0 : Nat) : Int) ≤ ((s.ticks : Int) - s.ticks) % (2 ^ s.cfg.wTick : Nat) := by simp
  have calls : 4 * s.cfg.kT = 2 * s.cfg.kT + 2 * s.cfg.kT := by ring
  rw [calls, List.replicate_add]
  refine (runAs_append_next.2 ⟨_, start, now⟩).trans (congrArg _ (Eq.trans ?_ (State.finish_of_idle hf .wait none)))
  exact afterWaitNow_of_elapsed (s := s.continueAt (.wait 0) (.waitNow s.ticks none [])) elapsed

/-! ### With interrupts masked -/

/-- Whatever the counter and the host do between the word reads of a masked `ReadSync`, its register stands still, and it
gets as far as its word reads take it (R165, R257). -/
theorem runAs_syncUse_masked (hw : s.Wf) (begins : s.fgLabel use.op = .ok (use.label none []))
    (instr : s.instrOf .fg = .next use.op) (masked : s.gie = false) (sch : List Choice) :
    ∀ u, sch.count .fg ≤ 2 * sampledWords s.cfg use.secs → runAs sch s = .next u →
      ∃ r, u.sampled use.secs = s.sampled use.secs ∧ use.Reached s r u
        ∧ SyncProgress s.cfg (sampledWords s.cfg use.secs) (sampledWidth s.cfg use.secs)
            (fun _ => s.sampled use.secs) (sch.count .fg) r := by
  induction sch using List.reverseRecOn with
  | nil =>
    rintro u - ⟨⟩
    exact ⟨_, rfl, .start, .start (sampledWords_pos hw.legal _)⟩
  | append_singleton sch c ih =>
    intro v bound run
    obtain ⟨u, before, last⟩ := runAs_append_next.1 run
    obtain ⟨v', step, ⟨⟩⟩ := runAs_cons_next.1 last
    rw [List.count_append] at bound ⊢
    obtain ⟨r, register, reached, progress⟩ := ih u (by omega) before
    have wf : u.Wf := hw.runAs before
    cases c with
    | fg =>
      rw [List.count_singleton_self] at bound ⊢
      cases r with
      | agreed x =>
        have := progress.two_samples_le
        omega
      | again a w =>
        obtain ⟨r, executes, next, progress⟩ := reached.read hw.legal begins progress register
        rw [stepAs_eq wf.cfg_valid (reached.instrOf_fg instr), executes] at step
        cases step
        have moved : u.OnlyMoved (use.after u r) := State.OnlyMoved.sequences ⟨_, _, _, rfl⟩ (use.after_sequences u r)
        exact ⟨r, (moved.sampled _).trans register, next, progress⟩
    | isr =>
      obtain inside | ⟨-, -, unmasked⟩ := (stepAs_isr_next_iff wf).1 ⟨v, step⟩
      · cases inside.symm.trans (reached.inIsr.trans (fgLabel_ok.1 begins).1)
      · cases unmasked.symm.trans (reached.gie.trans masked)
    | tmr =>
      rw [stepAs_eq wf.cfg_valid rfl] at step
      obtain ⟨-, rfl⟩ := tmrCount_next.1 step
      exact ⟨r, register, { reached with }, progress⟩
    | hostStop =>
      rw [stepAs_eq wf.cfg_valid rfl] at step
      obtain rfl := hostStop_next.1 step
      exact ⟨r, register, { reached with }, progress⟩
    | hostStart =>
      rw [stepAs_eq wf.cfg_valid rfl] at step
      obtain rfl := hostStart_next.1 step
      exact ⟨r, register, { reached with }, progress⟩

theorem SyncUse.Reached.fgs_of_agreed {x : Nat} (h : use.Reached s (.agreed x) u) :
    u.fgs = (use.after s (.agreed x)).fgs := by
  obtain hf | ⟨⟨⟩, -⟩ := h.fgs
  exact hf

/-- Two samples of a masked `ReadSync` complete it with the register's value. -/
theorem reached_of_masked (hw : s.Wf) (begins : s.fgLabel use.op = .ok (use.label none []))
    (instr : s.instrOf .fg = .next use.op) (masked : s.gie = false) {sch : List Choice}
    (reads : sch.count .fg = 2 * sampledWords s.cfg use.secs) (run : runAs sch s = .next t) :
    use.Reached s (.agreed (s.sampled use.secs)) t := by
  obtain ⟨r, -, reached, progress⟩ := runAs_syncUse_masked hw begins instr masked sch t reads.le run
  rw [reads] at progress
  rwa [progress.of_constant (hw.sampled_lt _) (sampledWidth_le_words hw.legal _)] at reached

/-- Settles O38: the masked `ReadSync` of each read. -/
theorem maskedReadsAreExact : Obligations.MaskedReadsAreExact := by
  intro s t sch hw hi masked hf run
  refine ⟨fun decoded reads => ?_, fun decoded reads => ?_⟩
  · have ends := reached_of_masked (use := .ticks) hw (fgLabel_idle _ hi hf) (instrOf_fg_idle hi hf decoded) masked
      reads run
    exact ⟨ends.hist, ends.cpc, ends.fgs_of_agreed⟩
  · have ends := reached_of_masked (use := .seconds) hw (fgLabel_idle _ hi hf) (instrOf_fg_idle hi hf decoded) masked
      reads run
    exact ⟨ends.hist, ends.cpc, ends.fgs_of_agreed⟩

/-! ### A register that changes once -/

/-- The sampled register set to a value. -/
def State.setSampled (s : State) (secs : Bool) (x : Nat) : State :=
  bif secs then { s with seconds := x } else { s with ticks := x }

@[simp] theorem State.sampled_setSampled (secs : Bool) (x : Nat) : (s.setSampled secs x).sampled secs = x := by
  cases secs <;> rfl

namespace SyncUse

theorem Reached.setSampled (h : use.Reached s r u) (secs : Bool) (x : Nat) : use.Reached s r (u.setSampled secs x) := by
  cases secs
  · exact { h with }
  · exact { h with }

/-- The foreground stands where a use of `ReadSync` leaves it at its end: the read is done; `WAIT` has its `start`; `WAIT`
is done or begins its next `now`. -/
def Ended (u : State) : SyncUse → Prop
  | ticks | seconds => u.fgs = .idle
  | waitStart n => ∃ start, u.fgs = .busy (.wait n) (.waitNow start none [])
  | waitNow n start => u.fgs = .idle ∨ u.fgs = .busy (.wait n) (.waitNow start none [])

theorem Reached.ended {x : Nat} (h : use.Reached s (.agreed x) u) : use.Ended u := by
  have hf := h.fgs_of_agreed
  cases use with
  | ticks | seconds => exact hf
  | waitStart n => exact ⟨x, hf⟩
  | waitNow n start =>
    simp only [after, State.afterWaitNow] at hf
    split at hf
    · exact .inl hf
    · exact .inr hf

/-- Inside a `ReadSync` the foreground stands there only before the first word read. -/
theorem Ended.eq_start (h : use.Ended u) (busy : u.fgs = .busy use.op (use.label a w)) : a = none ∧ w = [] := by
  cases use with
  | ticks | seconds => cases busy.symm.trans h
  | waitStart n =>
    obtain ⟨start, hf⟩ := h
    cases busy.symm.trans hf
  | waitNow n start =>
    obtain hf | hf := h
    · cases busy.symm.trans hf
    · cases busy.symm.trans hf
      exact ⟨rfl, rfl⟩

/-- So a use that has read a word and stands there has agreed. -/
theorem Reached.agreed_of_ended {value : Nat → Nat} {k width : Nat} (h : use.Reached s r u)
    (progress : SyncProgress s.cfg k width value n r) (hn : 0 < n) (ended : use.Ended u) : ∃ x, r = .agreed x := by
  cases r with
  | agreed x => exact ⟨x, rfl⟩
  | again a w =>
    have start : a = none ∧ w = [] := by
      obtain busy | ⟨⟨⟩, -⟩ := h.fgs
      · exact ended.eq_start (busy.trans (by simp))
      · exact ⟨rfl, rfl⟩
    obtain ⟨rfl, rfl⟩ := start
    exact absurd progress.eq_zero hn.ne'

/-- The end of a use over a register that has the value `value i` at word read number `i`. -/
theorem reached_of_firstReaches {value : Nat → Nat} (hc : s.cfg.Legal)
    (begins : s.fgLabel use.op = .ok (use.label none []))
    (first : FirstReaches (fun m => readDuring use.op (fun i u => u.setSampled use.secs (value i)) m s)
      use.Ended n t) :
    ∃ x, use.Reached s (.agreed x) t
      ∧ SyncProgress s.cfg (sampledWords s.cfg use.secs) (sampledWidth s.cfg use.secs) value n (.agreed x) := by
  obtain ⟨positive, run, ended, earlier⟩ := first
  have part (m : Nat) (hm : m ≤ n) :
      ∃ u r, readDuring use.op (fun i u => u.setSampled use.secs (value i)) m s = .next u ∧ use.Reached s r u
        ∧ SyncProgress s.cfg (sampledWords s.cfg use.secs) (sampledWidth s.cfg use.secs) value m r := by
    induction m with
    | zero => exact ⟨s, _, rfl, .start, .start (sampledWords_pos hc _)⟩
    | succ m ih =>
      obtain ⟨u, r, run, reached, progress⟩ := ih (by omega)
      cases r with
      | agreed x =>
        have reads := progress.two_samples_le
        have words := sampledWords_pos hc use.secs
        exact absurd reached.ended (earlier m u (by omega) (by omega) run)
      | again a w =>
        obtain ⟨r, executes, next, progress⟩ :=
          (reached.setSampled use.secs (value m)).read hc begins progress (State.sampled_setSampled _ _)
        exact ⟨_, r, andThen_next.2 ⟨u, run, executes⟩, next, progress⟩
  obtain ⟨u, r, run', reached, progress⟩ := part n le_rfl
  cases run.symm.trans run'
  obtain ⟨x, rfl⟩ := reached.agreed_of_ended progress positive ended
  exact ⟨x, reached, progress⟩

/-- A use whose register changes at most once over its last two samples ends with a value that the register held
(R164). -/
theorem reached_held {value : Nat → Nat} (hw : s.Wf) (begins : s.fgLabel use.op = .ok (use.label none []))
    (range : ∀ i, value i < 2 ^ sampledWidth s.cfg use.secs)
    (once : ChangesOnce value (2 * sampledWords s.cfg use.secs) n)
    (first : FirstReaches (fun m => readDuring use.op (fun i u => u.setSampled use.secs (value i)) m s)
      use.Ended n t) :
    ∃ i, n ≤ i + 2 * sampledWords s.cfg use.secs ∧ i < n ∧ use.Reached s (.agreed (value i)) t := by
  have hc := hw.legal
  obtain ⟨x, reached, progress⟩ := reached_of_firstReaches hc begins first
  obtain ⟨i, window, before, rfl⟩ :=
    progress.agreed_held (sampledWords_pos hc _) (sampledWidth_le_words hc _) range once
  exact ⟨i, window, before, reached⟩

end SyncUse

/-- Settles O39: the held value, as each use passes it on. -/
theorem synchronizerReturnsAHeldValue : Obligations.SynchronizerReturnsAHeldValue := by
  intro s t value n hw hi
  refine ⟨fun hf range once first => ?_, fun hf range once first => ?_, fun k hf range once first => ?_,
    fun k start hf range once first => ?_⟩
  · obtain ⟨i, window, before, ends⟩ :=
      SyncUse.reached_held (use := .ticks) hw (fgLabel_idle _ hi hf) range once first
    exact ⟨i, window, before, ends.hist⟩
  · obtain ⟨i, window, before, ends⟩ :=
      SyncUse.reached_held (use := .seconds) hw (fgLabel_idle _ hi hf) range once first
    exact ⟨i, window, before, ends.hist⟩
  · obtain ⟨i, window, before, ends⟩ :=
      SyncUse.reached_held (use := .waitStart k) hw (fgLabel_idle _ hi hf) range once first
    exact ⟨i, window, before, ends.fgs_of_agreed, ends.hist⟩
  · obtain ⟨i, window, before, ends⟩ :=
      SyncUse.reached_held (use := .waitNow k start) hw (fgLabel_busy hi hf) range once first
    have hfgs := ends.fgs_of_agreed
    have hhist := ends.hist
    refine ⟨i, window, before, fun elapsed => ?_, fun early => ?_⟩
    · simp only [SyncUse.after, afterWaitNow_of_elapsed elapsed] at hfgs hhist
      exact ⟨hfgs, hhist⟩
    · simp only [SyncUse.after, afterWaitNow_of_early early] at hfgs hhist
      exact ⟨hfgs, hhist⟩

end Sys2Proof.Machine
end

section
/-! SUPPORT. `SET_SECONDS`, and the words that `REBASE` writes into `TICKS`: all of them together make its operand (R11,
R190, R192). -/

namespace Sys2Proof.Machine

variable {c : Config} {v x k : Nat}

/-- Settles O50: `SET_SECONDS` is one micro-step, and its length is the op word and the operand's words. -/
theorem setSecondsDoesNothing : Obligations.SetSecondsDoesNothing := by
  intro v s hi hf
  rw [setSeconds_next.2 ⟨fgLabel_idle _ hi hf, rfl⟩, State.finish_of_idle hf]
  rfl

/-- `TICKS`, from `x`, when `REBASE` has written the first `k` words of `order(K_T)` from `v` (R190). -/
def ticksWritten (c : Config) (v x : Nat) : Nat → Nat
  | 0 => x
  | k + 1 =>
    setWordAt c.wWord c.wTick (ticksWritten c v x k) (sampleIndex c c.kT k) (wordAt c.wWord v (sampleIndex c c.kT k))

theorem ticksWritten_lt (hx : x < 2 ^ c.wTick) : ticksWritten c v x k < 2 ^ c.wTick := by
  cases k with
  | zero => exact hx
  | succ k => exact setWordAt_lt _ _ _ _ _

/-- A word of a value that fits the register is read back whole, wherever it is written (R11). -/
theorem wordAt_setWordAt_wordAt {w width y j : Nat} (hv : v < 2 ^ width) :
    wordAt w (setWordAt w width y j (wordAt w v j)) j = wordAt w v j := by
  have fits : v < 2 ^ (j * w) * 2 ^ (width - j * w) := by
    rw [← Nat.pow_add]
    exact hv.trans_le (Nat.pow_le_pow_right two_pos (by omega))
  have kept : wordAt w v j < 2 ^ (width - j * w) := (Nat.mod_le _ _).trans_lt (Nat.div_lt_of_lt_mul fits)
  rw [wordAt_setWordAt_of_lt (wordAt_lt _ _ _), Nat.mod_eq_of_lt kept]

/-- A word once written holds the operand's: later writes are to other words, or write the same again. -/
theorem wordAt_ticksWritten (hv : v < 2 ^ c.wTick) (hx : x < 2 ^ c.wTick) {i : Nat} (hi : i < k) :
    wordAt c.wWord (ticksWritten c v x k) (sampleIndex c c.kT i) = wordAt c.wWord v (sampleIndex c c.kT i) := by
  induction k with
  | zero => cases hi
  | succ k ih =>
    rw [ticksWritten]
    by_cases same : sampleIndex c c.kT i = sampleIndex c c.kT k
    · rw [same, wordAt_setWordAt_wordAt hv]
    · have earlier : i < k := Nat.lt_of_le_of_ne (Nat.le_of_lt_succ hi) fun last => same (by rw [last])
      rw [wordAt_setWordAt_other (ticksWritten_lt hx) same, ih earlier]

/-- `order(K)` reaches every word. -/
theorem exists_sampleIndex_eq (c : Config) {j : Nat} (hj : j < k) : ∃ i, i < k ∧ sampleIndex c k i = j := by
  obtain ⟨i, hi, at_i⟩ := List.mem_iff_getElem.1 ((mem_order c k j).2 hj)
  exact ⟨i, by simpa using hi, by rw [sampleIndex, List.getD_eq_getElem _ _ hi, at_i]⟩

/-- A value of `k` words is determined by them (R11). -/
theorem eq_of_wordAt_eq {w y : Nat} (hx : x < 2 ^ (k * w)) (hy : y < 2 ^ (k * w))
    (words : ∀ j, j < k → wordAt w x j = wordAt w y j) : x = y := by
  have sums : ((List.range k).map fun j => wordAt w x j * 2 ^ (j * w)) =
      (List.range k).map fun j => wordAt w y j * 2 ^ (j * w) :=
    List.map_congr_left fun j hj => by rw [words j (List.mem_range.1 hj)]
  rw [← Nat.mod_eq_of_lt hx, ← Nat.mod_eq_of_lt hy, ← sum_words, sums, sum_words]

/-- All `K_T` words together are the operand (R190, R191). -/
theorem ticksWritten_kT (hc : c.Legal) (hv : v < 2 ^ c.wTick) (hx : x < 2 ^ c.wTick) : ticksWritten c v x c.kT = v := by
  have inWords : 2 ^ c.wTick ≤ 2 ^ (c.kT * c.wWord) := Nat.pow_le_pow_right two_pos hc.wTick_le_words
  refine eq_of_wordAt_eq ((ticksWritten_lt hx).trans_le inWords) (hv.trans_le inWords) fun j hj => ?_
  obtain ⟨i, hi, rfl⟩ := exists_sampleIndex_eq c hj
  exact wordAt_ticksWritten hv hx hi

end Sys2Proof.Machine
end

section
/-! SUPPORT. `REBASE` in a run: the state after each of its micro-steps, with none between them and with those of the
counter and the host (R190, R191). -/

namespace Sys2Proof.Machine

variable {s t u : State} {v h n : Nat}

/-! ### One micro-step -/

/-- The length of `REBASE`: the op word and the words of both operands (R84). -/
theorem length_rebase (c : Config) : OpName.length c .rebase = 1 + (c.wTick + 15) / 16 + (c.wHw + 15) / 16 :=
  (Nat.add_assoc 1 _ _).symm

/-- Settles O47: the three kinds of write, each with the move of the sequencer after it. -/
theorem rebaseWritesOneWordAStep : Obligations.RebaseWritesOneWordAStep := by
  intro v h s hv hi
  refine ⟨fun hf => rebase_atHwcnt (fgLabel_idle _ hi hf), fun hf => rebase_atCcr (fgLabel_busy hi hf),
    fun k hk hf => ⟨_, _, order_getElem?_sampleIndex hk, rfl, fun inside => ?_, fun last => ?_⟩⟩
  all_goals rw [rebase_atTicks ((Config.valid_iff _).1 hv) (fgLabel_busy hi hf) hk, State.afterTicksWrite]
  · rw [if_pos inside]
    rfl
  · rw [if_neg last.not_lt, ← length_rebase]
    rfl

/-! ### The micro-steps in order -/

/-- The fields that the counter and the host write (R121 to R123). -/
def State.withCounter (s : State) (hwcnt : Nat) (cmpifg run : Bool) : State :=
  { s with hwcnt := hwcnt, cmpifg := cmpifg, run := run }

theorem State.withCounter_cfg (c : Nat) (f r : Bool) : (s.withCounter c f r).cfg = s.cfg := rfl

/-- The deadline of `REBASE v, h` and the first `k` words of its tick value are written (R190). -/
def State.rebaseWritten (s : State) (v h k : Nat) : State :=
  { s with ccr := addW s.cfg.wHw h s.cfg.interval, ticks := ticksWritten s.cfg v s.ticks k }

/-- The state after `n` micro-steps of `REBASE v, h` from `s`, but for the counter's and the host's fields, which are
those of `s`: the write of `HWCNT` is not in it. -/
def State.rebaseAt (s : State) (v h : Nat) : Nat → State
  | 0 => s
  | 1 => s.continueAt (.rebase v h) .rebaseCcr
  | k + 2 =>
    if k < s.cfg.kT then (s.rebaseWritten v h k).continueAt (.rebase v h) (.rebaseTicks k)
    else (s.rebaseWritten v h k).finish .rebase none

theorem State.rebaseAt_writing {k : Nat} (hk : k < s.cfg.kT) :
    s.rebaseAt v h (k + 2) = (s.rebaseWritten v h k).continueAt (.rebase v h) (.rebaseTicks k) :=
  if_pos hk

/-- After its last micro-step the new time base is complete (R190). -/
theorem State.rebaseAt_end (hc : s.cfg.Legal) (hx : s.ticks < 2 ^ s.cfg.wTick) (hv : v < 2 ^ s.cfg.wTick)
    (hf : s.fgs = .idle) :
    s.rebaseAt v h (s.cfg.kT + 2) =
      { s with
        ccr := (h + s.cfg.interval) % 2 ^ s.cfg.wHw
        ticks := v
        cpc := s.cpc + (1 + (s.cfg.wTick + 15) / 16 + (s.cfg.wHw + 15) / 16)
        hist := s.hist ++ [.ret .rebase none] } := by
  rw [State.rebaseAt, if_neg (Nat.lt_irrefl _), State.finish_of_idle (s := s.rebaseWritten v h _) hf,
    State.rebaseWritten, ticksWritten_kT hc hv hx, length_rebase]
  rfl

/-- No micro-step of `REBASE` enters the handler or writes an interrupt enable. -/
theorem State.rebaseAt_flags :
    (s.rebaseAt v h n).inIsr = s.inIsr ∧ (s.rebaseAt v h n).gie = s.gie ∧ (s.rebaseAt v h n).cmpie = s.cmpie := by
  match n with
  | 0 | 1 => exact ⟨rfl, rfl, rfl⟩
  | k + 2 =>
    rw [State.rebaseAt]
    split <;> exact ⟨rfl, rfl, rfl⟩

/-- What the counter and the host write, and what `REBASE` writes after its first micro-step, are apart. -/
theorem State.rebaseAt_withCounter (c : Nat) (f r : Bool) :
    (s.rebaseAt v h n).withCounter c f r = (s.withCounter c f r).rebaseAt v h n := by
  match n with
  | 0 | 1 => rfl
  | k + 2 =>
    rw [State.rebaseAt, State.rebaseAt, State.withCounter_cfg]
    split <;> rfl

/-- The first micro-step writes the counter and nothing else (R190). -/
theorem stepAs_fg_rebase_first (hv : s.cfg.valid = true) (hi : s.inIsr = false) (hf : s.fgs = .idle)
    (decoded : decode s.cfg s.prog s.cpc = .op (.rebase v h)) :
    stepAs .fg s = .next ((s.withCounter (narrow s.cfg.wHw h) s.cmpifg s.run).rebaseAt v h 1) :=
  (stepAs_eq hv (instrOf_fg_idle hi hf decoded)).trans (rebase_atHwcnt (fgLabel_idle _ hi hf))

theorem stepAs_fg_continueAt (hv : s.cfg.valid = true) (op : Instr) (lbl : FgLabel) :
    stepAs .fg (s.continueAt op lbl) = exec op (s.continueAt op lbl) :=
  stepAs_eq (s := s.continueAt op lbl) hv (instrOf_fg_busy rfl)

theorem fgLabel_continueAt (hi : s.inIsr = false) (op : Instr) (lbl : FgLabel) :
    (s.continueAt op lbl).fgLabel op = .ok lbl :=
  fgLabel_busy hi rfl

/-- Each later micro-step takes `REBASE` one further (R190). -/
theorem stepAs_fg_rebaseAt (hv : s.cfg.valid = true) (hi : s.inIsr = false) (hn : n < s.cfg.kT + 1) :
    stepAs .fg (s.rebaseAt v h (n + 1)) = .next (s.rebaseAt v h (n + 2)) := by
  have hc := (Config.valid_iff _).1 hv
  cases n with
  | zero =>
    rw [State.rebaseAt_writing hc.kT_pos]
    exact (stepAs_fg_continueAt hv _ _).trans (rebase_atCcr (fgLabel_continueAt hi _ _))
  | succ k =>
    have hk : k < s.cfg.kT := by omega
    rw [State.rebaseAt_writing hk]
    have label := fgLabel_continueAt (s := s.rebaseWritten v h k) hi (.rebase v h) (.rebaseTicks k)
    refine (stepAs_fg_continueAt (s := s.rebaseWritten v h k) hv _ _).trans (rebase_atTicks ?_ label hk)
    exact hc

/-! ### No other agent steps -/

theorem runAs_rebaseAt (hv : s.cfg.valid = true) (hi : s.inIsr = false) (hn : n ≤ s.cfg.kT + 1) :
    runAs (List.replicate n .fg) (s.rebaseAt v h 1) = .next (s.rebaseAt v h (n + 1)) := by
  induction n with
  | zero => rfl
  | succ n ih =>
    rw [List.replicate_succ']
    exact runAs_append_next.2 ⟨_, ih (by omega), runAs_cons_next.2 ⟨_, stepAs_fg_rebaseAt hv hi hn, rfl⟩⟩

/-- The operands that the decoder gives fit their widths (R83). -/
theorem decode_rebase_lt (decoded : decode s.cfg s.prog s.cpc = .op (.rebase v h)) :
    v < 2 ^ s.cfg.wTick ∧ h < 2 ^ s.cfg.wHw := by
  simpa [Instr.wf] using decode_op_wf decoded

/-- Settles O48: the write of the counter, then the other writes with the counter as it was written. -/
theorem uninterruptedRebaseSetsTheTimeBase : Obligations.UninterruptedRebaseSetsTheTimeBase := by
  intro v h s hw hi hf decoded
  obtain ⟨hv, hh⟩ := decode_rebase_lt decoded
  have first := stepAs_fg_rebase_first hw.cfg_valid hi hf decoded
  rw [narrow_of_lt hh] at first
  have rest := runAs_rebaseAt (s := s.withCounter h s.cmpifg s.run) (v := v) (h := h) hw.cfg_valid hi le_rfl
  have ends := State.rebaseAt_end (s := s.withCounter h s.cmpifg s.run) (h := h) hw.legal hw.ticks_lt hv hf
  rw [Nat.add_comm 2]
  exact runAs_cons_next.2 ⟨_, first, rest.trans (congrArg _ ends)⟩

/-! ### The counter and the host between the micro-steps -/

/-- `REBASE v, h`, begun at `s`, has taken `n` micro-steps, whatever the counter and the host have done. -/
def State.RebaseReaches (s : State) (v h n : Nat) (u : State) : Prop :=
  ∃ c f r, u = (s.withCounter c f r).rebaseAt v h n

theorem State.RebaseReaches.withCounter (reached : s.RebaseReaches v h n u) (c : Nat) (f r : Bool) :
    s.RebaseReaches v h n (u.withCounter c f r) := by
  obtain ⟨c', f', r', rfl⟩ := reached
  exact ⟨c, f, r, State.rebaseAt_withCounter c f r⟩

/-- A micro-step of the foreground takes it one further. -/
theorem State.RebaseReaches.stepAs_fg (reached : s.RebaseReaches v h n u) (hv : s.cfg.valid = true)
    (hi : s.inIsr = false) (hf : s.fgs = .idle) (decoded : decode s.cfg s.prog s.cpc = .op (.rebase v h))
    (hn : n < 2 + s.cfg.kT) (step : stepAs .fg u = .next t) : s.RebaseReaches v h (n + 1) t := by
  obtain ⟨c, f, r, rfl⟩ := reached
  cases n with
  | zero =>
    cases (stepAs_fg_rebase_first (s := s.withCounter c f r) hv hi hf decoded).symm.trans step
    exact ⟨_, f, r, rfl⟩
  | succ n =>
    have inside : n < s.cfg.kT + 1 := by omega
    cases (stepAs_fg_rebaseAt (s := s.withCounter c f r) hv hi inside).symm.trans step
    exact ⟨c, f, r, rfl⟩

/-- Begun with `GIE = 0` or `CMPIE = 0`, it has no handler step inside it (R191). -/
theorem State.RebaseReaches.stepAs_isr (reached : s.RebaseReaches v h n u) (hw : u.Wf) (hi : s.inIsr = false)
    (masked : s.gie = false ∨ s.cmpie = false) : stepAs .isr u ≠ .next t := by
  intro step
  obtain ⟨c, f, r, rfl⟩ := reached
  obtain ⟨inIsr, gie, cmpie⟩ := State.rebaseAt_flags (s := s.withCounter c f r) (v := v) (h := h) (n := n)
  obtain inside | ⟨-, armed, unmasked⟩ := (stepAs_isr_next_iff hw).1 ⟨t, step⟩
  · cases inside.symm.trans (inIsr.trans hi)
  · obtain off | off := masked
    · cases unmasked.symm.trans (gie.trans off)
    · cases armed.symm.trans (cmpie.trans off)

/-- Under any schedule, it has taken as many micro-steps as the foreground has. -/
theorem rebaseReaches_of_masked (hw : s.Wf) (hi : s.inIsr = false) (masked : s.gie = false ∨ s.cmpie = false)
    (hf : s.fgs = .idle) (decoded : decode s.cfg s.prog s.cpc = .op (.rebase v h)) (sch : List Choice) :
    ∀ u, sch.count .fg ≤ 2 + s.cfg.kT → runAs sch s = .next u → s.RebaseReaches v h (sch.count .fg) u := by
  induction sch using List.reverseRecOn with
  | nil =>
    rintro u - ⟨⟩
    exact ⟨_, _, _, rfl⟩
  | append_singleton sch c ih =>
    intro t bound run
    obtain ⟨u, before, last⟩ := runAs_append_next.1 run
    obtain ⟨t', step, ⟨⟩⟩ := runAs_cons_next.1 last
    rw [List.count_append] at bound ⊢
    have reached := ih u (by omega) before
    have wf : u.Wf := hw.runAs before
    cases c with
    | fg =>
      rw [List.count_singleton_self] at bound ⊢
      exact reached.stepAs_fg hw.cfg_valid hi hf decoded bound step
    | isr => exact absurd step (reached.stepAs_isr wf hi masked)
    | tmr =>
      rw [stepAs_eq wf.cfg_valid rfl] at step
      obtain ⟨-, rfl⟩ := tmrCount_next.1 step
      exact reached.withCounter _ _ u.run
    | hostStop =>
      rw [stepAs_eq wf.cfg_valid rfl] at step
      obtain rfl := hostStop_next.1 step
      exact reached.withCounter u.hwcnt u.cmpifg false
    | hostStart =>
      rw [stepAs_eq wf.cfg_valid rfl] at step
      obtain rfl := hostStart_next.1 step
      exact reached.withCounter u.hwcnt u.cmpifg true

/-- Settles O49: after all its micro-steps, the end state is that of an uninterrupted `REBASE` but for the counter's own
fields. -/
theorem serializedRebaseIsNotDisturbed : Obligations.SerializedRebaseIsNotDisturbed := by
  intro v h s t sch hw hi masked hf decoded run writes
  obtain ⟨hv, -⟩ := decode_rebase_lt decoded
  have reached := rebaseReaches_of_masked hw hi masked hf decoded sch t writes.le run
  rw [writes, Nat.add_comm] at reached
  obtain ⟨c, f, r, ends⟩ := reached
  obtain rfl := ends.trans (State.rebaseAt_end (s := s.withCounter c f r) hw.legal hw.ticks_lt hv hf)
  exact ⟨rfl, rfl, rfl, rfl, rfl, rfl, hf, rfl⟩

end Sys2Proof.Machine
end

section
/-! SUPPORT. What a step refuses: the constraints of R7 one by one, and where each refusal of R201 comes from. -/

namespace Sys2Proof

/-- The test of `TPS` in `Config.valid` is the one of R7. -/
theorem two_pow_log2_eq_iff {n : Nat} : 2 ^ Nat.log2 n = n ↔ ∃ k, n = 2 ^ k := by
  constructor
  · intro h
    exact ⟨_, h.symm⟩
  · rintro ⟨k, rfl⟩
    rw [Nat.log2_two_pow]

/-- The constraints in the words of R7's table. -/
theorem Config.legal_iff (c : Config) : c.Legal ↔
    8 ≤ c.wWord
      ∧ (1 ≤ c.wHw ∧ c.wHw ≤ c.wWord)
      ∧ (1 ≤ c.wTick ∧ c.wTick ≤ 8 * c.wWord)
      ∧ (1 ≤ c.wSec ∧ c.wSec ≤ 8 * c.wWord)
      ∧ ((∃ n, c.tps = 2 ^ n) ∧ c.tps ≤ 2 ^ c.wTick)
      ∧ 1 ≤ c.hwRate
      ∧ (c.interval = c.hwRate / c.tps ∧ 1 ≤ c.interval ∧ c.interval < 2 ^ c.wHw) := by
  constructor
  · intro h
    exact ⟨h.wWord_ge, ⟨h.wHw_pos, h.wHw_le⟩, ⟨h.wTick_pos, h.wTick_le⟩, ⟨h.wSec_pos, h.wSec_le⟩,
      ⟨two_pow_log2_eq_iff.1 h.tps_pow, h.tps_le⟩, h.hwRate_pos, h.interval_eq, h.interval_pos, h.interval_lt⟩
  · rintro ⟨word, ⟨hwPos, hwLe⟩, ⟨tickPos, tickLe⟩, ⟨secPos, secLe⟩, ⟨pow, tpsLe⟩, rate, interval, pos, lt⟩
    exact ⟨word, hwPos, hwLe, tickPos, tickLe, secPos, secLe, two_pow_log2_eq_iff.2 pow, tpsLe, rate, interval, pos,
      Nat.le_sub_one_of_lt lt⟩

namespace Machine

variable {s t : State} {i : Instr} {r : Refusal}

/-! ### What an instruction refuses -/

theorem memWrite_refused {off v : Nat} (h : s.memWrite off v = .refused r) : r = .wordNotWritable := by
  unfold State.memWrite at h
  repeat' split at h
  all_goals cases h
  rfl

theorem writeThen_refused {off v : Nat} {after : State → State} (h : s.writeThen off v after = .refused r) :
    r = .wordNotWritable := by
  unfold State.writeThen at h
  split at h
  · cases h
  · cases h
  · cases h
    exact memWrite_refused ‹_›

theorem oneStep_ne_refused {op : Instr} {after : State} : s.oneStep op after ≠ .refused r := by
  unfold State.oneStep
  split <;> nofun

theorem readSync_ne_refused {base k width : Nat} {a : Option Nat} {w : List Nat} {after : SyncResult → State} :
    s.readSync base k width a w after ≠ .refused r := by
  unfold State.readSync
  split <;> nofun

theorem inPhase_ne_refused {p : Phase} {after : State} : s.inPhase p after ≠ .refused r := by
  unfold State.inPhase
  split <;> nofun

/-- No instruction refuses for any reason but a word that is not writable (R41, R201). -/
theorem exec_refused (h : exec i s = .refused r) : r = .wordNotWritable := by
  cases i with
  | enterCritical | exitCritical | clockInit | fineMax | setSeconds => exact absurd h oneStep_ne_refused
  | isrRearm | isrTest | isrSnapshot | isrEventcheck | isrExit => exact absurd h inPhase_ne_refused
  | hostStop | hostStart => cases h
  | tmrCount =>
    change execTmrCount s = _ at h
    unfold execTmrCount at h
    split at h <;> cases h
  | isrEntry =>
    change execIsrEntry s = _ at h
    unfold execIsrEntry at h
    split at h <;> cases h
  | currentTicks =>
    change execCurrentTicks s = _ at h
    unfold execCurrentTicks at h
    split at h
    · cases h
    · exact absurd h readSync_ne_refused
    · cases h
  | currentSeconds =>
    change execCurrentSeconds s = _ at h
    unfold execCurrentSeconds at h
    split at h
    · cases h
    · exact absurd h readSync_ne_refused
    · cases h
  | fineTicks =>
    change execFineTicks s = _ at h
    unfold execFineTicks at h
    simp only [memRead_last, memRead_hwcnt] at h
    split at h <;> cases h
  | wait n =>
    change execWait n s = _ at h
    unfold execWait at h
    split at h
    · cases h
    · exact absurd h readSync_ne_refused
    · exact absurd h readSync_ne_refused
    · cases h
  | rebase v c =>
    change execRebase v c s = _ at h
    unfold execRebase at h
    split at h
    · cases h
    · exact writeThen_refused h
    · exact writeThen_refused h
    · exact writeThen_refused h
    · cases h

/-! ### What a step refuses -/

/-- An agent has its instruction refused only where the foreground begins an operation that the decoder refuses (R87). -/
theorem instrOf_refused {c : Choice} : s.instrOf c = .refused r ↔
    c = .fg ∧ s.fgs = .idle ∧ s.inIsr = false ∧ ∃ d, decode s.cfg s.prog s.cpc = .refused d ∧ r = .decoder d := by
  cases c with
  | fg =>
    simp only [State.instrOf, State.fgInstr]
    cases hf : s.fgs with
    | busy op lbl => simp
    | idle =>
      cases hi : s.inIsr with
      | true => simp
      | false => cases hd : decode s.cfg s.prog s.cpc <;> simp [eq_comm]
  | isr | tmr | hostStop | hostStart => simp [State.instrOf]

theorem step_of_instrOf_refused (hv : s.cfg.valid = true) (hi : s.instrOf s.choice = .refused r) :
    step s = .refused r := by
  simp only [step, hv, hi, if_true]

/-- `CONFIG_INVALID` is the refusal of an illegal configuration alone (R9). -/
theorem step_configInvalid_iff : step s = .refused .configInvalid ↔ ¬ s.cfg.Legal := by
  rw [← Config.valid_iff]
  constructor
  · intro h hv
    cases hi : s.instrOf s.choice with
    | next i =>
      rw [step_eq hv hi] at h
      cases exec_refused h
    | fault f =>
      simp only [step, hv, hi, if_true] at h
      cases h
    | refused r =>
      obtain ⟨-, -, -, d, -, rfl⟩ := instrOf_refused.1 hi
      rw [step_of_instrOf_refused hv hi] at h
      cases h
  · intro hv
    rw [step, if_neg hv]

/-- Settles O4: no legal configuration is refused, as instructions and the decoder have other reasons. -/
theorem stepRefusesByName : Obligations.StepRefusesByName := by
  refine ⟨fun s => step_configInvalid_iff.trans (not_congr s.cfg.legal_iff), fun s r hv hc hisr hf hd => ?_⟩
  exact step_of_instrOf_refused hv (instrOf_refused.2 ⟨hc, hf, hisr, r, hd, rfl⟩)

end Machine
end Sys2Proof
end

section
/-! SUPPORT. The free choice of the agent, among those whose steps are enabled (R6, R204). -/

namespace Sys2Proof.Machine

variable {s : State}

/-- The host's two steps always are enabled, so the free value picks one of a list that is not empty. -/
theorem State.choice_mem_enabled (h : s.sched = []) : s.choice ∈ s.enabled := by
  have nonempty : 0 < s.enabled.length := by simp [State.enabled]
  rw [State.choice, h]
  dsimp only
  rw [List.getD_eq_getElem _ _ (Nat.mod_lt _ nonempty)]
  exact List.getElem_mem _

theorem State.fg_mem_enabled : Choice.fg ∈ s.enabled ↔ s.fgEnabled = true := by simp [State.enabled]

theorem State.isr_mem_enabled : Choice.isr ∈ s.enabled ↔ s.isrEnabled = true := by simp [State.enabled]

theorem State.tmr_mem_enabled : Choice.tmr ∈ s.enabled ↔ s.run = true := by simp [State.enabled]

/-- The foreground is neither held nor done: an operation is in progress, or words are left (R31, R125). -/
theorem fgEnabled_iff :
    s.fgEnabled = true ↔ s.inIsr = false ∧ ((∃ op lbl, s.fgs = .busy op lbl) ∨ s.cpc < s.prog.length) := by
  unfold State.fgEnabled State.fgDone
  cases hf : s.fgs <;> simp

/-- An active handler always has a phase (R45), and an inactive one is enabled by the other three flags (R124). -/
theorem State.Wf.isrEnabled_iff (hw : s.Wf) :
    s.isrEnabled = true ↔ s.inIsr = true ∨ (s.cmpifg = true ∧ s.cmpie = true ∧ s.gie = true) := by
  unfold State.isrEnabled
  cases hi : s.inIsr with
  | true => simp [hw.phase, hi]
  | false => simp [entryEnabled_iff, hi]

/-- Settles O6: the choice is in the list of the enabled agents, whose conditions are looked up. -/
theorem freeChoiceIsEnabled : Obligations.FreeChoiceIsEnabled := by
  intro s hw hs
  have mem := State.choice_mem_enabled hs
  cases hc : s.choice with
  | fg => exact fgEnabled_iff.1 (State.fg_mem_enabled.1 (hc ▸ mem))
  | isr => exact hw.isrEnabled_iff.1 (State.isr_mem_enabled.1 (hc ▸ mem))
  | tmr => exact State.tmr_mem_enabled.1 (hc ▸ mem)
  | hostStop | hostStart => trivial

end Sys2Proof.Machine
end

section
/-! SUPPORT. The handler context: its two writers, and the foreground that it holds (R125, R205, R209). -/

namespace Sys2Proof.Machine

variable {s t : State} {i : Instr}

/-- `IN_ISR` has two writers, each with its direction (R124, R132). -/
theorem exec_inIsr_changed (h : exec i s = .next t) (changed : t.inIsr ≠ s.inIsr) :
    (i = .isrEntry ∧ t.inIsr = true) ∨ (i = .isrExit ∧ t.inIsr = false) := by
  cases ho : i.issuable with
  | true =>
    obtain ⟨u, writes, moves⟩ := exec_fg_cases ho h
    obtain ⟨f, c, es, rfl⟩ := moves.eq
    obtain ⟨-, -, -, kept, -⟩ := writes.keeps
    exact absurd kept changed
  | false =>
    cases i with
    | isrEntry => obtain ⟨-, rfl⟩ := isrEntry_next.1 h; exact .inl ⟨rfl, rfl⟩
    | isrExit => obtain ⟨-, rfl⟩ := isrExit_next.1 h; exact .inr ⟨rfl, rfl⟩
    | tmrCount => obtain ⟨-, rfl⟩ := tmrCount_next.1 h; exact absurd rfl changed
    | hostStop => obtain rfl := hostStop_next.1 h; exact absurd rfl changed
    | hostStart => obtain rfl := hostStart_next.1 h; exact absurd rfl changed
    | isrRearm => obtain ⟨-, rfl⟩ := isrRearm_next.1 h; exact absurd rfl changed
    | isrTest => obtain ⟨-, rfl⟩ := isrTest_next.1 h; exact absurd rfl changed
    | isrSnapshot => obtain ⟨-, rfl⟩ := isrSnapshot_next.1 h; exact absurd rfl changed
    | isrEventcheck => obtain ⟨-, rfl⟩ := isrEventcheck_next.1 h; simp at changed
    | _ => cases ho

/-- Inside the handler what completes is a step label, which leaves the sequencer alone (R125, R205). -/
theorem exec_keeps_foreground_inIsr (h : exec i s = .next t) (inside : s.inIsr = true) :
    t.fgs = s.fgs ∧ t.cpc = s.cpc := by
  cases ho : i.issuable with
  | true => exact absurd (inIsr_of_exec_fg ho h) (by simp [inside])
  | false => exact (exec_label_keeps ho h).2

/-- Where the foreground has no micro-step of an operation, the operation stops with the sequencer's fault. -/
theorem exec_of_fgLabel_error {f : Fault} (ho : i.issuable = true) (hl : s.fgLabel i = .error f) :
    exec i s = .fault f := by
  cases i with
  | enterCritical | exitCritical | clockInit | fineMax | setSeconds =>
    change s.oneStep _ _ = _
    rw [State.oneStep, hl]
  | currentTicks => change execCurrentTicks s = _; rw [execCurrentTicks, hl]
  | currentSeconds => change execCurrentSeconds s = _; rw [execCurrentSeconds, hl]
  | fineTicks => change execFineTicks s = _; rw [execFineTicks, hl]
  | wait n => change execWait n s = _; rw [execWait, hl]
  | rebase v c => change execRebase v c s = _; rw [execRebase, hl]
  | tmrCount | hostStop | hostStart | isrEntry | isrRearm | isrTest | isrSnapshot | isrEventcheck | isrExit => cases ho

theorem fgLabel_of_inIsr (op : Instr) (inside : s.inIsr = true) : s.fgLabel op = .error .foregroundHeld :=
  if_pos inside

/-- Settles O34: the two writers of `IN_ISR`, what a completed step keeps, and the sequencer's fault. -/
theorem handlerContextHoldsTheForeground : Obligations.HandlerContextHoldsTheForeground := by
  refine ⟨fun i s t h => ⟨fun outside entered => ?_, fun inside left => ?_, exec_keeps_foreground_inIsr h⟩,
    fun i s inside ho => exec_of_fgLabel_error ho (fgLabel_of_inIsr i inside)⟩
  · obtain ⟨hop, -⟩ | ⟨-, left⟩ := exec_inIsr_changed h (by simp [outside, entered])
    · exact hop
    · cases entered.symm.trans left
  · obtain ⟨-, entered⟩ | ⟨hop, -⟩ := exec_inIsr_changed h (by simp [inside, left])
    · cases entered.symm.trans left
    · exact hop

end Sys2Proof.Machine
end

section
/-! SUPPORT. An entry with a stale flag (R245): the deadline ahead of the counter is one behind it by almost a whole wrap, and
the catch-up counts all the deadlines of that wrap. -/

namespace Sys2Proof.Machine

variable {s : State}

/-- Taking the wrap-aware difference `a - b` back from `a`, a wrap later, gives `b`. -/
theorem add_two_pow_sub_subW (n a b : Nat) : (a + 2 ^ n - subW n a b) % 2 ^ n = b % 2 ^ n := by
  have below := subW_lt n a b
  zify [show subW n a b ≤ a + 2 ^ n by omega]
  have difference := subW_eq_int n a b
  push_cast at difference
  calc ((a : Int) + 2 ^ n - subW n a b) % 2 ^ n
    _ = ((a : Int) + 2 ^ n - (a - b)) % 2 ^ n := by rw [difference, Int.sub_emod, Int.emod_emod, ← Int.sub_emod]
    _ = ((b : Int) + 2 ^ n) % 2 ^ n := by congr 1; ring
    _ = (b : Int) % 2 ^ n := Int.add_emod_right _ _

/-- With the deadline `CCR` unwrapped as it stands, the counter is a wrap further on less the lead of the deadline. -/
theorem State.Wf.hwcnt_eq_wrap_sub_lead (hw : s.Wf) :
    s.hwcnt = (s.ccr + 2 ^ s.cfg.wHw - leadOf s.cfg s.ccr s.hwcnt) % 2 ^ s.cfg.wHw :=
  (Nat.mod_eq_of_lt hw.hwcnt_lt).symm.trans (add_two_pow_sub_subW _ _ _).symm

/-- Settles O28: the catch-up takes the deadline for reached, and as many intervals as fill the wrap bring it 1 to `INTERVAL`
ahead again. -/
theorem staleEntryOvercountsOneWrap : Obligations.StaleEntryOvercountsOneWrap := by
  intro s hw hp divides ⟨ahead, near⟩
  have oneWrap : 2 ^ s.cfg.wHw / s.cfg.interval * s.cfg.interval = 2 ^ s.cfg.wHw := Nat.div_mul_cancel divides
  have inRange := hw.legal.interval_lt
  have ccr : s.ccr = s.ccr % 2 ^ s.cfg.wHw := (Nat.mod_eq_of_lt hw.ccr_lt).symm
  have first := CatchUp.start hw hp ccr hw.hwcnt_eq_wrap_sub_lead (by omega)
  obtain ⟨t, run, last⟩ := first.passes hw.legal (by omega) (2 ^ s.cfg.wHw / s.cfg.interval) (by omega)
  refine ⟨t, run, last.iph_eq_snap (by omega), ?_, last.ticks⟩
  rw [last.ccr, oneWrap, Nat.add_mod_right, ← ccr]

end Sys2Proof.Machine
end

section
/-! SUPPORT. A `WAIT` that nothing serves (R248): while the compare interrupt cannot be taken, `TICKS` stands still, every
`now` agrees with `start`, and the wait goes on. -/

namespace Sys2Proof.Machine

variable {s t u : State} {n x : Nat} {sch : List Choice} {lbl : FgLabel}

/-! ### The loop over a register that stands still -/

/-- Over a register that stands still, samples agree on nothing but its value. -/
theorem SyncProgress.eq_of_agreed_constant {c : Config} {k width m y : Nat} (hx : x < 2 ^ width)
    (hk : width ≤ k * c.wWord) (h : SyncProgress c k width (fun _ => x) m (.agreed y)) : y = x := by
  obtain ⟨j, -, rfl, -⟩ := h
  exact sampleFrom_of_held hx hk fun _ _ => rfl

/-- The labels at which a `WAIT n` can be while `TICKS` has held `x` since it began: inside the `ReadSync` for `start`, or,
with `start = x`, inside one for a `now`. -/
def WaitLabel (c : Config) (n x : Nat) (lbl : FgLabel) : Prop :=
  ∃ (use : SyncUse) (a : Option Nat) (w : List Nat) (m : Nat), (use = .waitStart n ∨ use = .waitNow n x)
    ∧ lbl = use.label a w
    ∧ SyncProgress c (sampledWords c use.secs) (sampledWidth c use.secs) (fun _ => x) m (.again a w)

theorem waitLabel_firstLabel {c : Config} (hc : c.Legal) : WaitLabel c n x (firstLabel (.wait n)) :=
  ⟨_, none, [], 0, .inl rfl, rfl, .start hc.kT_pos⟩

theorem waitLabel_now {c : Config} (hc : c.Legal) : WaitLabel c n x (.waitNow x none []) :=
  ⟨_, none, [], 0, .inr rfl, rfl, .start hc.kT_pos⟩

/-- A `now` that agrees on the value of `start` has not waited a single tick (R169). -/
theorem afterWaitNow_self (hn : 1 ≤ n) (x : Nat) :
    s.afterWaitNow n x (.agreed x) = s.continueAt (.wait n) (.waitNow x none []) :=
  afterWaitNow_of_early (by rw [Int.sub_self, Int.zero_emod]; exact_mod_cast hn)

/-- A micro-step of the wait goes on with it: an agreed sample is the register's value, so `start` leads to the first `now`
and each `now` to the next. -/
theorem exec_wait_of_waitLabel (hw : s.Wf) (hn : 1 ≤ n) (hl : s.fgLabel (.wait n) = .ok lbl)
    (waits : WaitLabel s.cfg n s.ticks lbl) :
    ∃ lbl', exec (.wait n) s = .next (s.continueAt (.wait n) lbl') ∧ WaitLabel s.cfg n s.ticks lbl' := by
  obtain ⟨use, a, w, m, isUse, rfl, progress⟩ := waits
  have op : use.op = .wait n := by obtain rfl | rfl := isUse <;> rfl
  have register : s.sampled use.secs = s.ticks := by obtain rfl | rfl := isUse <;> rfl
  have reads := exec_syncUse hw.legal (by rwa [op]) progress.length_lt
  replace progress := progress.read
  rw [op, State.wordRead, register] at reads
  rw [reads]
  generalize syncStep _ _ _ a w _ = r at progress
  cases r with
  | again a w => exact ⟨use.label a w, by rw [SyncUse.after_again, op], use, a, w, _, isUse, rfl, progress⟩
  | agreed y =>
    have inRange : s.ticks < 2 ^ sampledWidth s.cfg use.secs := register ▸ hw.sampled_lt _
    obtain rfl := progress.eq_of_agreed_constant inRange (sampledWidth_le_words hw.legal _)
    refine ⟨.waitNow s.ticks none [], congrArg _ ?_, waitLabel_now hw.legal⟩
    obtain rfl | rfl := isUse
    · rfl
    · exact afterWaitNow_self hn s.ticks

/-! ### The compare interrupt that cannot be taken -/

/-- The handler is not entered under the schedule: interrupts are masked, the compare interrupt is not enabled, or no match
is pending and the counter stays stopped (R121, R124). -/
def State.Unserved (s : State) (sch : List Choice) : Prop :=
  s.gie = false ∨ s.cmpie = false ∨ (s.run = false ∧ s.cmpifg = false ∧ .hostStart ∉ sch)

theorem State.Unserved.stepAs_isr (unserved : s.Unserved sch) (hw : s.Wf) (out : s.inIsr = false) :
    stepAs .isr s ≠ .next t := by
  intro step
  obtain inside | ⟨pending, armed, unmasked⟩ := (stepAs_isr_next_iff hw).1 ⟨t, step⟩
  · cases inside.symm.trans out
  · obtain masked | unarmed | ⟨-, clear, -⟩ := unserved
    · cases unmasked.symm.trans masked
    · cases armed.symm.trans unarmed
    · cases pending.symm.trans clear

/-- A counter step needs a running counter, so it cannot raise the match that is missing. -/
theorem State.Unserved.countUp (unserved : s.Unserved sch) (running : s.run = true) : s.countUp.Unserved sch := by
  obtain masked | unarmed | ⟨stopped, -⟩ := unserved
  · exact .inl masked
  · exact .inr (.inl unarmed)
  · cases running.symm.trans stopped

theorem State.Unserved.hostStop (unserved : s.Unserved sch) : State.Unserved { s with run := false } sch :=
  unserved.imp_right (.imp_right fun ⟨_, quiet⟩ => ⟨rfl, quiet⟩)

theorem State.Unserved.hostStart (unserved : s.Unserved sch) (scheduled : .hostStart ∈ sch) :
    State.Unserved { s with run := true } sch :=
  unserved.imp_right (.imp_right fun ⟨_, _, never⟩ => absurd scheduled never)

/-! ### The wait under a schedule -/

/-- `WAIT n`, begun in `s`, is in progress in `u` or about to begin, and nothing that it waits for has moved. -/
structure HungWait (s : State) (n : Nat) (sch : List Choice) (u : State) : Prop where
  wf : u.Wf
  cfg : u.cfg = s.cfg
  ticks : u.ticks = s.ticks
  hist : u.hist = s.hist
  cpc : u.cpc = s.cpc
  unserved : u.Unserved sch
  instr : u.instrOf .fg = .next (.wait n)
  label : ∃ lbl, u.fgLabel (.wait n) = .ok lbl ∧ WaitLabel u.cfg n u.ticks lbl

theorem HungWait.start (hw : s.Wf) (out : s.inIsr = false) (unserved : s.Unserved sch) (hf : s.fgs = .idle)
    (decoded : decode s.cfg s.prog s.cpc = .op (.wait n)) : HungWait s n sch s where
  wf := hw
  cfg := rfl
  ticks := rfl
  hist := rfl
  cpc := rfl
  unserved := unserved
  instr := instrOf_fg_idle out hf decoded
  label := ⟨_, fgLabel_idle _ out hf, waitLabel_firstLabel hw.legal⟩

theorem HungWait.inIsr (h : HungWait s n sch u) : u.inIsr = false := by
  obtain ⟨lbl, hl, -⟩ := h.label
  exact (fgLabel_ok.1 hl).1

/-- What the foreground is at: the wait's beginning or its middle. -/
theorem HungWait.fgs (h : HungWait s n sch u) : u.fgs = .idle ∨ ∃ lbl, u.fgs = .busy (.wait n) lbl := by
  obtain ⟨lbl, hl, -⟩ := h.label
  obtain ⟨-, ⟨idle, -⟩ | busy⟩ := fgLabel_ok.1 hl
  · exact .inl idle
  · exact .inr ⟨lbl, busy⟩

/-- A step of any agent in the schedule leaves the wait hung. -/
theorem HungWait.stepAs (h : HungWait s n sch u) (hn : 1 ≤ n) {c : Choice} (scheduled : c ∈ sch)
    (step : stepAs c u = .next t) : HungWait s n sch t := by
  have wf : t.Wf := h.wf.stepAs step
  cases c with
  | fg =>
    obtain ⟨lbl, hl, waits⟩ := h.label
    obtain ⟨lbl', goesOn, waits'⟩ := exec_wait_of_waitLabel h.wf hn hl waits
    cases goesOn.symm.trans ((stepAs_eq h.wf.cfg_valid h.instr).symm.trans step)
    exact { h with wf, instr := instrOf_fg_busy rfl, label := ⟨lbl', fgLabel_busy h.inIsr rfl, waits'⟩ }
  | isr => exact absurd step (h.unserved.stepAs_isr h.wf h.inIsr)
  | tmr =>
    rw [stepAs_eq h.wf.cfg_valid rfl] at step
    obtain ⟨running, rfl⟩ := tmrCount_next.1 step
    exact { h with wf, unserved := h.unserved.countUp running }
  | hostStop =>
    rw [stepAs_eq h.wf.cfg_valid rfl] at step
    obtain rfl := hostStop_next.1 step
    exact { h with wf, unserved := h.unserved.hostStop }
  | hostStart =>
    rw [stepAs_eq h.wf.cfg_valid rfl] at step
    obtain rfl := hostStart_next.1 step
    exact { h with wf, unserved := h.unserved.hostStart scheduled }

/-- Settles O46: a hung wait stays hung through the schedule. -/
theorem maskedWaitNeverReturns : Obligations.MaskedWaitNeverReturns := by
  intro n s t sch hw out unserved hf decoded hn run
  have hung : HungWait s n sch t :=
    runAs_invariant (P := HungWait s n sch) (fun _ scheduled _ _ h step => h.stepAs hn scheduled step)
      (.start hw out unserved hf decoded) run
  exact ⟨hung.ticks, hung.hist, hung.cpc, hung.fgs⟩

end Sys2Proof.Machine
end
